-- ==== Sys2Proof/Word.lean ====
section
/-! DEFINITION. The two word types of the SDTP core: R8 fixes `LEN_W` and `CFG_W` at 32, R50 fixes the byte at 8 bits. -/

namespace Sys2Proof

/-- A 32-bit register or port value: a length, a cursor, a header field, a configuration word, the control word `W0`
(R8, R20, R30, R83). -/
abbrev Word := BitVec 32

/-- One byte of a byte space or a stream (R50). -/
abbrev Byte := BitVec 8

end Sys2Proof
end

