-- ==== Sys2Proof/Config.lean ====
section
/-! DEFINITION. What an implementation of the block fixes once (R7, R8) and the constants of the wire format (R71). -/

namespace Sys2Proof

/-- Byte order of the four header fields inside a frame (R7, R54). -/
inductive Endian where
  | le
  | be
  deriving DecidableEq, Repr

/-- The implementation parameters of R8 that are not fixed by it. They are constants of one block; a `State` carries
them so that every statement about `exec` and `step` is about every block (assumption 1). -/
structure Params where
  /-- Byte order of the header fields, for encoder and decoder alike (R7, R55). -/
  endian : Endian
  /-- Bytes of storage behind each buffer region (R8). -/
  maxCap : Nat
  /-- Bytes of body storage behind each packet register (R8). -/
  maxBody : Nat
  /-- Number of packet registers (R8). -/
  nPkt : Nat
  deriving DecidableEq, Repr

/-- The reference values of R8. -/
def Params.reference : Params := { endian := .le, maxCap := 4096, maxBody := 4096, nPkt := 4 }

/-- The constraints R8 puts on the parameters. -/
abbrev Params.wf (p : Params) : Prop :=
  (1 ≤ p.maxCap ∧ p.maxCap ≤ 2 ^ 32 - 1) ∧ p.maxBody ≤ 2 ^ 32 - 19 ∧ (1 ≤ p.nPkt ∧ p.nPkt ≤ 16)

/-- The Start-Of-Header marker (R71). -/
def soh : Byte := 0x02

/-- The terminator marker (R71). -/
def eot : Byte := 0x04

/-- Bytes of a frame besides the body: two markers and four 4-byte header fields (R73). -/
def frameOverhead : Nat := 18

end Sys2Proof
end

