-- ==== Sys2Proof/Syntax.lean ====
section
/-! DEFINITION. The command set: the sixteen commands of R85 with their operands (R83, R84), and the command as the host
presents it on the ports (R80). -/

namespace Sys2Proof

/-- The two buffer units; the index is the direction tag (R10, R28, R94). -/
inductive Sel where
  | input
  | output
  deriving DecidableEq, Repr

/-- The `sel` bit, unit index and direction tag of a unit: 0 = input, 1 = output (R81, R94). -/
def Sel.code : Sel → BitVec 1
  | .input => 0
  | .output => 1

/-- The index field naming a packet register: 4 bits of `W0` (R30, R81). -/
abbrev PktIdx := Fin 16

/-- The five packet type tags the source names (R91). They name values of the 32-bit `type` field; nothing checks that a
`type` is one of them (R35). -/
inductive PktType where
  | handshake
  | disconnect
  | error
  | dataPacket
  | dataStream
  deriving DecidableEq, Repr

/-- The code of a packet type tag (R91). -/
def PktType.code : PktType → Word
  | .handshake => 0
  | .disconnect => 1
  | .error => 2
  | .dataPacket => 3
  | .dataStream => 4

/-- The one device-type variant of the source, `DEVTYPE_DEFAULT` (R94). Any 32-bit value may stand in the field. -/
def devtypeDefault : Word := 0

/-- The six configuration words: the port `cmd.cfg` of R83 and the registers `CFG` of R22. -/
structure EndpointCfg where
  inChannel : Word
  outChannel : Word
  bufferSize : Word
  bitRate : Word
  deviceId : Word
  deviceType : Word
  deriving DecidableEq, Repr

/-- All six words 0: the reset value of `CFG` (R42) and its value after INST_CLOSE (R171). -/
def EndpointCfg.zero : EndpointCfg :=
  { inChannel := 0, outChannel := 0, bufferSize := 0, bitRate := 0, deviceId := 0, deviceType := 0 }

/-- One command of R85 with its operands. An absent pointer of the source is `none` for a byte or configuration operand
and `false` for a read destination; it is the cleared `dv` bit of the command word (R82). -/
inductive Instr where
  /-- BUF_CREATE sel, cap (R111). -/
  | bufCreate (sel : Sel) (cap : Word)
  /-- BUF_USED sel (R112). -/
  | bufUsed (sel : Sel)
  /-- BUF_WRITE sel, len, bytes or NULL (R113). -/
  | bufWrite (sel : Sel) (len : Word) (src : Option (List Byte))
  /-- BUF_READ.FULL sel, len, destination present or NULL (R115). -/
  | bufReadFull (sel : Sel) (len : Word) (dst : Bool)
  /-- BUF_READ.PARTIAL sel, len, destination present or NULL (R116). -/
  | bufReadPartial (sel : Sel) (len : Word) (dst : Bool)
  /-- BUF_READ.PEEK sel, len, destination present or NULL (R117). -/
  | bufReadPeek (sel : Sel) (len : Word) (dst : Bool)
  /-- BUF_CLEAR sel (R118). -/
  | bufClear (sel : Sel)
  /-- BUF_DESTROY sel (R119). -/
  | bufDestroy (sel : Sel)
  /-- PKT_CONSTRUCT P<pd>, len, type, rnd, bytes or NULL (R141). -/
  | pktConstruct (pd : PktIdx) (len type rnd : Word) (data : Option (List Byte))
  /-- PKT_SERIALIZE P<ps> (R145). -/
  | pktSerialize (ps : PktIdx)
  /-- PKT_DESERIALIZE P<pd>, len, bytes or NULL (R151). -/
  | pktDeserialize (pd : PktIdx) (len : Word) (bytes : Option (List Byte))
  /-- PKT_DESTROY P<ps> (R155). -/
  | pktDestroy (ps : PktIdx)
  /-- INST_CREATE configuration or NULL (R170). -/
  | instCreate (config : Option EndpointCfg)
  /-- INST_CLOSE (R171). -/
  | instClose
  /-- WRITE_PACKET P<ps> (R180). -/
  | writePacket (ps : PktIdx)
  /-- READ_PACKET P<pd> (R181). -/
  | readPacket (pd : PktIdx)
  deriving DecidableEq, Repr

/-- A command as the host presents it: the control word and every operand port, sampled together (R80, R83). -/
structure Command where
  /-- The control word `W0` (R81). -/
  w0 : Word
  /-- `cmd.len` -/
  len : Word
  /-- `cmd.type` -/
  type : Word
  /-- `cmd.rnd` -/
  rnd : Word
  /-- `cmd.cfg` -/
  cfg : EndpointCfg
  /-- `cmd.data` -/
  data : List Byte
  deriving DecidableEq, Repr

/-- A command whose operand ports all carry zeros and no data. -/
def Command.ofWord (w : Word) : Command :=
  { w0 := w, len := 0, type := 0, rnd := 0, cfg := .zero, data := [] }

end Sys2Proof
end

