-- ==== Sys2Proof/WellFormed.lean ====
section
/-! DEFINITION. When a command is well formed: its register index names a register (R96) and its payload keeps the
contract of R86. -/

namespace Sys2Proof

/-- R96: a command that uses `pd` or `ps` names a register below `N_PKT`. -/
def Instr.indexOk (p : Params) : Instr → Bool
  | .bufCreate _ _ => true
  | .bufUsed _ => true
  | .bufWrite _ _ _ => true
  | .bufReadFull _ _ _ => true
  | .bufReadPartial _ _ _ => true
  | .bufReadPeek _ _ _ => true
  | .bufClear _ => true
  | .bufDestroy _ => true
  | .pktConstruct pd _ _ _ _ => decide (pd.val < p.nPkt)
  | .pktSerialize ps => decide (ps.val < p.nPkt)
  | .pktDeserialize pd _ _ => decide (pd.val < p.nPkt)
  | .pktDestroy ps => decide (ps.val < p.nPkt)
  | .instCreate _ => true
  | .instClose => true
  | .writePacket ps => decide (ps.val < p.nPkt)
  | .readPacket pd => decide (pd.val < p.nPkt)

/-- R86: when a payload is present it holds exactly `len` bytes. -/
def payloadOk (len : Word) : Option (List Byte) → Bool
  | none => true
  | some bytes => bytes.length == len.toNat

/-- R86 for the three commands that take a byte payload (formats D and C of R84). -/
def Instr.payloadOk : Instr → Bool
  | .bufCreate _ _ => true
  | .bufUsed _ => true
  | .bufWrite _ len src => Sys2Proof.payloadOk len src
  | .bufReadFull _ _ _ => true
  | .bufReadPartial _ _ _ => true
  | .bufReadPeek _ _ _ => true
  | .bufClear _ => true
  | .bufDestroy _ => true
  | .pktConstruct _ len _ _ data => Sys2Proof.payloadOk len data
  | .pktSerialize _ => true
  | .pktDeserialize _ len bytes => Sys2Proof.payloadOk len bytes
  | .pktDestroy _ => true
  | .instCreate _ => true
  | .instClose => true
  | .writePacket _ => true
  | .readPacket _ => true

/-- A well-formed command of a block with parameters `p`. -/
def Instr.wellFormed (p : Params) (i : Instr) : Bool := i.indexOk p && i.payloadOk

end Sys2Proof
end

