-- ==== Sys2Proof/Decode.lean ====
section
/-! DEFINITION. The command word: its fields (R81), the opcode map (R85), the legality rules (R95, R96, R97), the decoder,
which is total and rejects by name, and the encoder. -/

namespace Sys2Proof

/-- Why a command word is illegal (the cases of R96). The host sees one answer for all of them. -/
inductive DecodeError where
  /-- Bits 31:16 are not zero. -/
  | reservedBits
  /-- `op` is 0xE or 0xF. -/
  | reservedOpcode
  /-- `op = 0x3` with `mode = 3`. -/
  | reservedMode
  /-- A field the command does not use is not zero. -/
  | unusedField
  /-- `pd` or `ps` is used and is not below `N_PKT`. -/
  | packetIndex
  deriving DecidableEq, Repr

/-- The fields of `W0` (R81). -/
structure Fields where
  op : BitVec 4
  sel : BitVec 1
  mode : BitVec 2
  dv : BitVec 1
  pd : BitVec 4
  ps : BitVec 4
  high : BitVec 16
  deriving DecidableEq, Repr

/-- The field places of R81. -/
def Fields.ofWord (w : Word) : Fields where
  op := w.extractLsb' 0 4
  sel := w.extractLsb' 4 1
  mode := w.extractLsb' 5 2
  dv := w.extractLsb' 7 1
  pd := w.extractLsb' 8 4
  ps := w.extractLsb' 12 4
  high := w.extractLsb' 16 16

/-- The fourteen operations, one opcode each (R85). -/
inductive Op where
  | bufCreate
  | bufUsed
  | bufWrite
  | bufRead
  | bufClear
  | bufDestroy
  | pktConstruct
  | pktSerialize
  | pktDeserialize
  | pktDestroy
  | instCreate
  | instClose
  | writePacket
  | readPacket
  deriving DecidableEq, Repr

/-- The opcode numbers of R85; 0xE and 0xF are reserved (R97). -/
def Op.ofCode (c : BitVec 4) : Option Op :=
  match c.toNat with
  | 0x0 => some .bufCreate
  | 0x1 => some .bufUsed
  | 0x2 => some .bufWrite
  | 0x3 => some .bufRead
  | 0x4 => some .bufClear
  | 0x5 => some .bufDestroy
  | 0x6 => some .pktConstruct
  | 0x7 => some .pktSerialize
  | 0x8 => some .pktDeserialize
  | 0x9 => some .pktDestroy
  | 0xA => some .instCreate
  | 0xB => some .instClose
  | 0xC => some .writePacket
  | 0xD => some .readPacket
  | _ => none

/-- Which fields of `W0` besides `op` a command uses. -/
structure Uses where
  sel : Bool := false
  mode : Bool := false
  dv : Bool := false
  pd : Bool := false
  ps : Bool := false
  deriving DecidableEq, Repr

/-- The column "fields used in W0" of R85. -/
def Op.uses : Op → Uses
  | .bufCreate => { sel := true }
  | .bufUsed => { sel := true }
  | .bufWrite => { sel := true, dv := true }
  | .bufRead => { sel := true, mode := true, dv := true }
  | .bufClear => { sel := true }
  | .bufDestroy => { sel := true }
  | .pktConstruct => { dv := true, pd := true }
  | .pktSerialize => { ps := true }
  | .pktDeserialize => { dv := true, pd := true }
  | .pktDestroy => { ps := true }
  | .instCreate => { dv := true }
  | .instClose => {}
  | .writePacket => { ps := true }
  | .readPacket => { pd := true }

/-- R95: every field that is not used is 0. -/
def Fields.unusedClear (f : Fields) (u : Uses) : Bool :=
  (u.sel || f.sel == 0) && (u.mode || f.mode == 0) && (u.dv || f.dv == 0) && (u.pd || f.pd == 0) && (u.ps || f.ps == 0)

/-- R96: a used register index is below `N_PKT`. -/
def Fields.indexClear (f : Fields) (u : Uses) (p : Params) : Bool :=
  (!u.pd || decide (f.pd.toNat < p.nPkt)) && (!u.ps || decide (f.ps.toNat < p.nPkt))

/-- The buffer unit of the `sel` bit (R81). -/
def selOf (b : BitVec 1) : Sel := if b = 0 then .input else .output

/-- The presence bit (R81, R82). -/
def dvOf (b : BitVec 1) : Bool := b == 1

/-- The packet register index of a 4-bit field (R81). -/
def idxOf (b : BitVec 4) : PktIdx := b.toFin

/-- An operand behind the presence bit: with `dv = 0` it is absent, whatever its port carries (R82, R83). -/
def operand {α : Type} (dv : BitVec 1) (x : α) : Option α := if dvOf dv then some x else none

/-- The command an operation's fields and ports stand for; the read operation has one reserved mode (R93). Ports that the
operation does not read are ignored (R84). -/
def build (op : Op) (f : Fields) (c : Command) : Except DecodeError Instr :=
  match op with
  | .bufCreate => .ok (.bufCreate (selOf f.sel) c.len)
  | .bufUsed => .ok (.bufUsed (selOf f.sel))
  | .bufWrite => .ok (.bufWrite (selOf f.sel) c.len (operand f.dv c.data))
  | .bufRead =>
    match f.mode.toNat with
    | 0 => .ok (.bufReadFull (selOf f.sel) c.len (dvOf f.dv))
    | 1 => .ok (.bufReadPartial (selOf f.sel) c.len (dvOf f.dv))
    | 2 => .ok (.bufReadPeek (selOf f.sel) c.len (dvOf f.dv))
    | _ => .error .reservedMode
  | .bufClear => .ok (.bufClear (selOf f.sel))
  | .bufDestroy => .ok (.bufDestroy (selOf f.sel))
  | .pktConstruct => .ok (.pktConstruct (idxOf f.pd) c.len c.type c.rnd (operand f.dv c.data))
  | .pktSerialize => .ok (.pktSerialize (idxOf f.ps))
  | .pktDeserialize => .ok (.pktDeserialize (idxOf f.pd) c.len (operand f.dv c.data))
  | .pktDestroy => .ok (.pktDestroy (idxOf f.ps))
  | .instCreate => .ok (.instCreate (operand f.dv c.cfg))
  | .instClose => .ok .instClose
  | .writePacket => .ok (.writePacket (idxOf f.ps))
  | .readPacket => .ok (.readPacket (idxOf f.pd))

/-- The decoder: the command of a control word and its ports, or the reason R96 gives for the word being illegal. -/
def decode (p : Params) (c : Command) : Except DecodeError Instr :=
  let f := Fields.ofWord c.w0
  if f.high ≠ 0 then .error .reservedBits
  else
    match Op.ofCode f.op with
    | none => .error .reservedOpcode
    | some op =>
      if f.unusedClear op.uses = false then .error .unusedField
      else if f.indexClear op.uses p = false then .error .packetIndex
      else build op f c

/-- One row of the opcode map: a word `w` selects it when `w AND mask = mtch` (R85). -/
structure Row where
  mtch : Word
  mask : Word
  deriving DecidableEq, Repr

/-- The row of a command in the opcode map (R85, the columns `match` and `mask`). -/
def Instr.row : Instr → Row
  | .bufCreate _ _ => ⟨0x00000000, 0xFFFFFFEF⟩
  | .bufUsed _ => ⟨0x00000001, 0xFFFFFFEF⟩
  | .bufWrite _ _ _ => ⟨0x00000002, 0xFFFFFF6F⟩
  | .bufReadFull _ _ _ => ⟨0x00000003, 0xFFFFFF6F⟩
  | .bufReadPartial _ _ _ => ⟨0x00000023, 0xFFFFFF6F⟩
  | .bufReadPeek _ _ _ => ⟨0x00000043, 0xFFFFFF6F⟩
  | .bufClear _ => ⟨0x00000004, 0xFFFFFFEF⟩
  | .bufDestroy _ => ⟨0x00000005, 0xFFFFFFEF⟩
  | .pktConstruct _ _ _ _ _ => ⟨0x00000006, 0xFFFFF07F⟩
  | .pktSerialize _ => ⟨0x00000007, 0xFFFF0FFF⟩
  | .pktDeserialize _ _ _ => ⟨0x00000008, 0xFFFFF07F⟩
  | .pktDestroy _ => ⟨0x00000009, 0xFFFF0FFF⟩
  | .instCreate _ => ⟨0x0000000A, 0xFFFFFF7F⟩
  | .instClose => ⟨0x0000000B, 0xFFFFFFFF⟩
  | .writePacket _ => ⟨0x0000000C, 0xFFFF0FFF⟩
  | .readPacket _ => ⟨0x0000000D, 0xFFFFF0FF⟩

/-- The sixteen rows of R85, in the table's order. -/
def opcodeRows : List Row :=
  [⟨0x00000000, 0xFFFFFFEF⟩, ⟨0x00000001, 0xFFFFFFEF⟩, ⟨0x00000002, 0xFFFFFF6F⟩, ⟨0x00000003, 0xFFFFFF6F⟩,
   ⟨0x00000023, 0xFFFFFF6F⟩, ⟨0x00000043, 0xFFFFFF6F⟩, ⟨0x00000004, 0xFFFFFFEF⟩, ⟨0x00000005, 0xFFFFFFEF⟩,
   ⟨0x00000006, 0xFFFFF07F⟩, ⟨0x00000007, 0xFFFF0FFF⟩, ⟨0x00000008, 0xFFFFF07F⟩, ⟨0x00000009, 0xFFFF0FFF⟩,
   ⟨0x0000000A, 0xFFFFFF7F⟩, ⟨0x0000000B, 0xFFFFFFFF⟩, ⟨0x0000000C, 0xFFFF0FFF⟩, ⟨0x0000000D, 0xFFFFF0FF⟩]

/-- A word selects a row (R85). -/
def Row.selects (r : Row) (w : Word) : Bool := w &&& r.mask == r.mtch

/-- The `sel` bit in its place (R81). -/
def selBits (s : Sel) : Word := s.code.setWidth 32 <<< 4

/-- The `dv` bit in its place (R81). -/
def dvBits (b : Bool) : Word := (BitVec.ofBool b).setWidth 32 <<< 7

/-- The `pd` field in its place (R81). -/
def pdBits (i : PktIdx) : Word := (BitVec.ofFin (w := 4) i).setWidth 32 <<< 8

/-- The `ps` field in its place (R81). -/
def psBits (i : PktIdx) : Word := (BitVec.ofFin (w := 4) i).setWidth 32 <<< 12

/-- The operand fields of a command's word. -/
def Instr.fieldBits : Instr → Word
  | .bufCreate sel _ => selBits sel
  | .bufUsed sel => selBits sel
  | .bufWrite sel _ src => selBits sel ||| dvBits src.isSome
  | .bufReadFull sel _ dst => selBits sel ||| dvBits dst
  | .bufReadPartial sel _ dst => selBits sel ||| dvBits dst
  | .bufReadPeek sel _ dst => selBits sel ||| dvBits dst
  | .bufClear sel => selBits sel
  | .bufDestroy sel => selBits sel
  | .pktConstruct pd _ _ _ data => dvBits data.isSome ||| pdBits pd
  | .pktSerialize ps => psBits ps
  | .pktDeserialize pd _ bytes => dvBits bytes.isSome ||| pdBits pd
  | .pktDestroy ps => psBits ps
  | .instCreate config => dvBits config.isSome
  | .instClose => 0
  | .writePacket ps => psBits ps
  | .readPacket pd => pdBits pd

/-- The control word of a command: its row's `match` with its operand fields (R85, R81). -/
def Instr.word (i : Instr) : Word := i.row.mtch ||| i.fieldBits

/-- The encoder: the control word and the operand ports the command reads (R84), every other port zero or empty. -/
def encode (i : Instr) : Command :=
  let c := Command.ofWord i.word
  match i with
  | .bufCreate _ cap => { c with len := cap }
  | .bufUsed _ => c
  | .bufWrite _ len src => { c with len := len, data := src.getD [] }
  | .bufReadFull _ len _ => { c with len := len }
  | .bufReadPartial _ len _ => { c with len := len }
  | .bufReadPeek _ len _ => { c with len := len }
  | .bufClear _ => c
  | .bufDestroy _ => c
  | .pktConstruct _ len type rnd data => { c with len := len, type := type, rnd := rnd, data := data.getD [] }
  | .pktSerialize _ => c
  | .pktDeserialize _ len bytes => { c with len := len, data := bytes.getD [] }
  | .pktDestroy _ => c
  | .instCreate config => { c with cfg := config.getD .zero }
  | .instClose => c
  | .writePacket _ => c
  | .readPacket _ => c

/-- The operand formats (R84). -/
inductive Format where
  /-- `W0` only. -/
  | n
  /-- `W0`, `len`. -/
  | l
  /-- `W0`, `len`, `data`. -/
  | d
  /-- `W0`, `len`, `type`, `rnd`, `data`. -/
  | c
  /-- `W0`, `cfg`. -/
  | g
  deriving DecidableEq, Repr

/-- The format of each command (R84, R85). -/
def Instr.format : Instr → Format
  | .bufCreate _ _ => .l
  | .bufUsed _ => .n
  | .bufWrite _ _ _ => .d
  | .bufReadFull _ _ _ => .l
  | .bufReadPartial _ _ _ => .l
  | .bufReadPeek _ _ _ => .l
  | .bufClear _ => .n
  | .bufDestroy _ => .n
  | .pktConstruct _ _ _ _ _ => .c
  | .pktSerialize _ => .n
  | .pktDeserialize _ _ _ => .d
  | .pktDestroy _ => .n
  | .instCreate _ => .g
  | .instClose => .n
  | .writePacket _ => .n
  | .readPacket _ => .n

/-- Two commands with the same control word whose ports agree on every port that format `f` reads (R84). -/
abbrev Command.SameRead (f : Format) (a b : Command) : Prop :=
  a.w0 = b.w0
    ∧ (f ∈ [.l, .d, .c] → a.len = b.len)
    ∧ (f = .c → a.type = b.type ∧ a.rnd = b.rnd)
    ∧ (f ∈ [.d, .c] → a.data = b.data)
    ∧ (f = .g → a.cfg = b.cfg)

/-- The command that an opcode-table word of `nbits` bits stands for: the word with the bits above `nbits` zero, its
operand ports all zero or empty. A command word has 32 bits (R80). -/
def tableCommand (nbits w : Nat) : Command := .ofWord (BitVec.ofNat 32 (w % 2 ^ min nbits 32))

/-- What the decoder of a block with the reference parameters reads from an opcode-table word. -/
def decodeTableWord (nbits w : Nat) : Option Instr := (decode .reference (tableCommand nbits w)).toOption

end Sys2Proof
end

