-- ==== Sys2Proof/Machine/State.lean ====
section
/-! DEFINITION. The state of the block as plain data (R20 to R42), the response record (R90, R92), the reasons a step can
stop, and the state after reset (R42). -/

namespace Sys2Proof.Machine

/-- The status codes of R92, by name. `invalidConnection` is kept and no command returns it (R194). -/
inductive Status where
  | ok
  | invalidConnection
  | invalidPacket
  | bufferFailure
  | undefined
  deriving DecidableEq, Repr

/-- The response record of R90. -/
structure Response where
  ok : Bool
  status : Status
  count : Word
  data : List Byte
  deriving DecidableEq, Repr

/-- The byte store of a buffer region (R50): the bytes that differ from what an unlisted offset reads as, by rising
offset. -/
structure Memory where
  cells : List Host.Cell
  deriving DecidableEq, Repr

/-- A buffer unit (R25). Its direction tag is its index and is not stored (R28); see `State.dir`. -/
structure BufUnit where
  /-- 1 when the unit has been created and not destroyed. -/
  live : Bool
  /-- Capacity of the region in bytes. -/
  cap : Word
  /-- Offset of the first valid byte. -/
  head : Word
  /-- Offset one past the last valid byte. -/
  tail : Word
  /-- The store, offsets 0 to `cap - 1`. -/
  region : Memory
  deriving DecidableEq, Repr

/-- A unit that is not live: every field zero and the region empty (R42, R119). -/
def BufUnit.absent : BufUnit := { live := false, cap := 0, head := 0, tail := 0, region := ⟨[]⟩ }

/-- A packet register (R30). -/
structure Packet where
  valid : Bool
  id : Word
  dataSize : Word
  type : Word
  checksum : Word
  bodyValid : Bool
  body : List Byte
  deriving DecidableEq, Repr

/-- ABSENT: the all-zero register with `valid = 0` (R10, R13). -/
def Packet.absent : Packet :=
  { valid := false, id := 0, dataSize := 0, type := 0, checksum := 0, bodyValid := false, body := [] }

/-- What the world outside presents to the block, one at a time: a command on the command port (R80), or a reset, "the
only event, besides commands, that changes state" (R220). -/
inductive Input where
  | command (c : Command)
  | reset
  deriving DecidableEq, Repr

/-- The state of the block, with the two fields the model adds: the constants of the block and what the host will
present. -/
structure State where
  /-- The implementation parameters (R8): constants, no step changes them (assumption 1). -/
  params : Params
  /-- `CFG` (R22). -/
  cfg : EndpointCfg
  /-- `INST.live` (R24). -/
  instLive : Bool
  /-- `BUF[0]` = `IN` (R25). -/
  bufIn : BufUnit
  /-- `BUF[1]` = `OUT` (R25). -/
  bufOut : BufUnit
  /-- `P[0]` to `P[N_PKT - 1]` (R30). -/
  pkts : List Packet
  /-- The response port (R42, R90): the output of the step that led to this state, not retained by the next one (R21, R53);
  `none` is "no response pending" (assumption 6). -/
  rsp : Option Response
  /-- What the host will present, in order (R36); not state of the block (assumption 2). -/
  inputs : List Input
  deriving DecidableEq, Repr

/-- Why the model stops with a fault. Each is a primitive of R10 used where R10 gives it no meaning; no state that meets
`State.Inv` reaches one (assumption 8). -/
inductive Fault where
  /-- `tail - head` is asked for and `head > tail`, so it is no natural number (R10, R110). Raised by BUF_USED, BUF_WRITE,
  BUF_READ, WRITE_PACKET and READ_PACKET. Safe: the spec gives the command no effect there. -/
  | cursorsCrossed
  /-- `MemRead`, `MemWrite` or `zero` on offsets beyond a region's capacity (R10, R51). Raised by BUF_WRITE, BUF_READ,
  BUF_CLEAR, WRITE_PACKET and READ_PACKET. Safe: the spec gives the command no effect there. -/
  | outsideRegion
  /-- `body[0 .. data_size)` of a register whose body is shorter (R10, R30). Raised by PKT_SERIALIZE and WRITE_PACKET. Safe:
  the spec gives the command no effect there. -/
  | outsideBody
  deriving DecidableEq, Repr

/-- Why the model gives no meaning to a command. -/
inductive Refusal where
  /-- An instruction that has no meaning in this model yet. Raised by no arm of `exec`. Safe. -/
  | notModelled (mnemonic : String)
  /-- `|cmd.data|` differs from `cmd.len` with `dv = 1` and the payload would be read (R86, U11 "refuse"). Raised by
  BUF_WRITE, PKT_CONSTRUCT and PKT_DESERIALIZE. Safe: the spec says the model does not accept the input. -/
  | payloadMismatch
  deriving DecidableEq, Repr

/-- The state after reset of a block with parameters `p` (R42, R220). -/
def State.resetWith (p : Params) : State where
  params := p
  cfg := .zero
  instLive := false
  bufIn := .absent
  bufOut := .absent
  pkts := List.replicate p.nPkt .absent
  rsp := none
  inputs := []

/-- The state after reset of the block with the reference parameters of R8. -/
def State.reset : State := .resetWith .reference

end Sys2Proof.Machine
end

