-- ==== Sys2Proof/Machine/Ops.lean ====
section
/-! DEFINITION. The named operations over byte spaces, buffer units, packet registers, the response port and the inputs.
Taking a failure (`State.raise`, R10 and R190) is one operation here; there is no return from one (R203). -/

namespace Sys2Proof.Machine

/-! ### Byte store -/

/-- What an unlisted offset of a region reads as: create gives "every byte 0x00" (R111). -/
def Memory.unlisted : Byte := 0x00

/-- The empty store: every byte reads as `Memory.unlisted`. -/
def Memory.blank : Memory := ⟨[]⟩

/-- The canonical form: offsets strictly rising, no entry equal to what an unlisted offset reads as. -/
abbrev Memory.wf (m : Memory) : Prop :=
  m.cells.Pairwise (fun a b => a.1 < b.1) ∧ ∀ c ∈ m.cells, c.2 ≠ Memory.unlisted

/-- The byte listed at an offset, or what an unlisted offset reads as. -/
def readCells : List Host.Cell → Nat → Byte
  | [], _ => Memory.unlisted
  | (k, v) :: rest, a => if k = a then v else readCells rest a

/-- The byte at an offset. -/
def Memory.read (m : Memory) (a : Nat) : Byte := readCells m.cells a

/-- A cell in front of a list, left out when it holds what an unlisted offset reads as. -/
def consCell (a : Nat) (v : Byte) (rest : List Host.Cell) : List Host.Cell :=
  if v = Memory.unlisted then rest else (a, v) :: rest

/-- Store one byte, keeping the canonical form. -/
def writeCells : List Host.Cell → Nat → Byte → List Host.Cell
  | [], a, v => consCell a v []
  | (k, x) :: rest, a, v =>
    if a < k then consCell a v ((k, x) :: rest)
    else if a = k then consCell a v rest
    else (k, x) :: writeCells rest a v

/-- Store one byte. -/
def Memory.write (m : Memory) (a : Nat) (v : Byte) : Memory := ⟨writeCells m.cells a v⟩

/-- The `n` bytes from offset `off` on, first byte at the lowest offset (R10 `MemRead`, without its precondition). -/
def Memory.readBytes (m : Memory) (off n : Nat) : List Byte := (List.range' off n).map m.read

/-- Store a byte sequence from offset `off` on (R10 `MemWrite`, without its precondition). -/
def Memory.writeBytes (m : Memory) (off : Nat) : List Byte → Memory
  | [] => m
  | v :: rest => (m.write off v).writeBytes (off + 1) rest

/-- Zero the offsets `lo` to `hi - 1` (R10 `zero`, without its precondition): they are listed no more. -/
def Memory.zero (m : Memory) (lo hi : Nat) : Memory := ⟨m.cells.filter fun c => decide (c.1 < lo) || decide (hi ≤ c.1)⟩

/-! ### Buffer units -/

/-- A unit just created with capacity `c`: live, empty, every byte zero (R111). -/
def BufUnit.fresh (c : Word) : BufUnit := { live := true, cap := c, head := 0, tail := 0, region := .blank }

/-- `used(b) = b.tail - b.head` (R110), which is a natural number only when the cursors are in order. -/
def BufUnit.used (b : BufUnit) : Except Fault Nat :=
  if b.head.toNat ≤ b.tail.toNat then .ok (b.tail.toNat - b.head.toNat) else .error .cursorsCrossed

/-- `MemRead(b.region, off, n)`: "Defined only when `off + n` does not exceed the length of the space" (R10). -/
def BufUnit.peek (b : BufUnit) (off n : Nat) : Except Fault (List Byte) :=
  if off + n ≤ b.cap.toNat then .ok (b.region.readBytes off n) else .error .outsideRegion

/-- `MemWrite(b.region, off, |v|, v)`, same precondition (R10). -/
def BufUnit.poke (b : BufUnit) (off : Nat) (v : List Byte) : Except Fault BufUnit :=
  if off + v.length ≤ b.cap.toNat then .ok { b with region := b.region.writeBytes off v } else .error .outsideRegion

/-- `zero(b.region, lo, hi)`, same precondition (R10). -/
def BufUnit.wipe (b : BufUnit) (lo hi : Nat) : Except Fault BufUnit :=
  if lo ≤ hi ∧ hi ≤ b.cap.toNat then .ok { b with region := b.region.zero lo hi } else .error .outsideRegion

/-- Buffer unit `s` (R10 `BUF[s]`). -/
def State.buf (s : State) : Sel → BufUnit
  | .input => s.bufIn
  | .output => s.bufOut

/-- Write buffer unit `s`. -/
def State.setBuf (s : State) (sel : Sel) (b : BufUnit) : State :=
  match sel with
  | .input => { s with bufIn := b }
  | .output => { s with bufOut := b }

/-- The direction tag of a unit: hardwired to its index (R28). -/
def State.dir (_ : State) (sel : Sel) : BitVec 1 := sel.code

/-- The reject test of a write of `n` bytes, the not-live case among its causes (R110, R113). -/
def BufUnit.rejectsWrite (b : BufUnit) (n : Nat) (present : Bool) : Bool :=
  !b.live || decide (n = 0) || !present || decide (b.cap.toNat ≤ n)

/-- A write of `n` bytes "exceeds current free space (`capacity - used`)" (R113). -/
def BufUnit.overwrites (b : BufUnit) (n : Nat) : Bool := decide (b.cap.toNat - (b.tail.toNat - b.head.toNat) < n)

/-- The offset at which an accepted write of `n` bytes stores its first byte (R113). -/
def BufUnit.writeOffset (b : BufUnit) (n : Nat) : Nat := if b.overwrites n then 0 else b.tail.toNat

/-- The overwrite branch of R113: discard the used range, start again at the region origin. -/
def BufUnit.overwrite (b : BufUnit) (bytes : List Byte) : Except Fault BufUnit :=
  match b.wipe b.head.toNat b.tail.toNat with
  | .error e => .error e
  | .ok b₁ =>
    match BufUnit.poke { b₁ with head := 0 } 0 bytes with
    | .error e => .error e
    | .ok b₂ => .ok { b₂ with tail := BitVec.ofNat 32 bytes.length }

/-- The append branch of R113. -/
def BufUnit.append (b : BufUnit) (bytes : List Byte) : Except Fault BufUnit :=
  match b.poke b.tail.toNat bytes with
  | .error e => .error e
  | .ok b₁ => .ok { b₁ with tail := BitVec.ofNat 32 (b.tail.toNat + bytes.length) }

/-- An accepted write (R113): overwrite when the bytes do not fit the free space, else append. -/
def BufUnit.store (b : BufUnit) (bytes : List Byte) : Except Fault BufUnit :=
  match b.used with
  | .error e => .error e
  | .ok _ => if b.overwrites bytes.length then b.overwrite bytes else b.append bytes

/-- The whole write of R113 with the source present: the count it returns and the unit after it. -/
def BufUnit.writeAll (b : BufUnit) (bytes : List Byte) : Except Fault (Nat × BufUnit) :=
  if b.rejectsWrite bytes.length true then .ok (0, b)
  else
    match b.store bytes with
    | .error e => .error e
    | .ok b₁ => .ok (bytes.length, b₁)

/-- The common part of a read (R114): `none` when it is rejected, else the bytes copied out. -/
def BufUnit.fetch (b : BufUnit) (q : Nat) (dst : Bool) : Except Fault (Option (List Byte)) :=
  if b.live = false then .ok none
  else
    match b.used with
    | .error e => .error e
    | .ok u =>
      if u = 0 ∨ dst = false ∨ q = 0 then .ok none
      else
        match b.peek b.head.toNat (min q u) with
        | .error e => .error e
        | .ok out => .ok (some out)

/-- What a performed full read does to the unit (R115). -/
def BufUnit.afterFull (b : BufUnit) : Except Fault BufUnit :=
  match b.wipe 0 b.cap.toNat with
  | .error e => .error e
  | .ok b₁ => .ok { b₁ with tail := b.head }

/-- What a performed partial read of `eff` bytes does to the unit (R116): the bytes `region[eff .. used)` move down to
offset 0 as if first copied out (R65), `tail` moves back by `eff`, `head` stays. -/
def BufUnit.afterPartial (b : BufUnit) (eff : Nat) : Except Fault BufUnit :=
  match b.used with
  | .error e => .error e
  | .ok u =>
    match b.peek eff (u - eff) with
    | .error e => .error e
    | .ok rest =>
      match b.poke 0 rest with
      | .error e => .error e
      | .ok b₁ => .ok { b₁ with tail := BitVec.ofNat 32 (b.tail.toNat - eff) }

/-- What BUF_CLEAR does to a live unit (R118). -/
def BufUnit.cleared (b : BufUnit) : Except Fault BufUnit :=
  if b.head.toNat < b.tail.toNat then
    match b.wipe b.head.toNat b.tail.toNat with
    | .error e => .error e
    | .ok b₁ => .ok { b₁ with tail := b.head }
  else .ok b

/-! ### Packet registers -/

/-- Packet register `i`, if the block has it (R10 `P[i]`, R30). -/
def State.pkt (s : State) (i : PktIdx) : Option Packet := s.pkts[i.val]?

/-- Write the whole of packet register `i` (R10, R31). -/
def State.setPkt (s : State) (i : PktIdx) (p : Packet) : State := { s with pkts := s.pkts.set i.val p }

/-! ### Response port, failures -/

/-- The response of a command appears on the response port (R90). -/
def State.respond (s : State) (r : Response) : State := { s with rsp := some r }

/-- The failure response of a signal: `ok = 0`, the signal's status code, no count, no data (R90, R190). The failures that
have no code carry status `ok` (R90, R195). -/
def Response.failure (st : Status) : Response := { ok := false, status := st, count := 0, data := [] }

/-- `raise X` (R10): "the command completes now with the failure response of signal `X`". Nothing is saved and no control
is transferred (R190, R201). -/
def State.raise (st : Status) (s : State) : Host.Outcome State Fault Refusal := .next (s.respond (.failure st))

/-- The answer to an illegal command word (R96, R191). -/
def State.illegal (s : State) : Host.Outcome State Fault Refusal := s.raise .undefined

/-- Go on with a primitive's result, or stop where R10 gives it no meaning. -/
def orFault {α : Type} (r : Except Fault α) (k : α → Host.Outcome State Fault Refusal) : Host.Outcome State Fault Refusal :=
  match r with
  | .ok a => k a
  | .error e => .fault e

/-! ### Inputs -/

/-- What the block finds when it looks at its inputs. -/
inductive Presented where
  /-- Nothing is presented (R221: "the block waits for its first command"); the state with no response pending. -/
  | nothing (s : State)
  /-- Reset is asserted; the state after it. -/
  | reset (s : State)
  /-- A legal command, and the state with that input taken. -/
  | run (i : Instr) (s : State)
  /-- An illegal command word, and the state with that input taken. -/
  | illegal (s : State)
  deriving DecidableEq, Repr

/-- Reset, with `rest` still to be presented: every piece of state at its reset value (R220), the constants kept. -/
def State.afterReset (s : State) (rest : List Input) : State := { State.resetWith s.params with inputs := rest }

/-- The state with the front input taken, `rest` still to be presented, and the response of the step before gone: the port
streams are values of one command and are not retained (R53). -/
def State.taken (s : State) (rest : List Input) : State := { s with inputs := rest, rsp := none }

/-- Take the next input. Decode comes first (R197): an illegal word is known as such before any operand or state is looked
at. -/
def State.presented (s : State) : Presented :=
  match s.inputs with
  | [] => .nothing (s.taken [])
  | .reset :: rest => .reset (s.afterReset rest)
  | .command c :: rest =>
    match decode s.params c with
    | .ok i => .run i (s.taken rest)
    | .error _ => .illegal (s.taken rest)

end Sys2Proof.Machine
end

