-- ==== Sys2Proof/Machine/Flags.lean ====
section
/-! DEFINITION. Flags. The block has no condition codes (R37): what it has are the presence bits of its state and, in a
response, the `ok` bit and the status code (R90, R92). -/

namespace Sys2Proof.Machine

/-- The value of a status code (R92). -/
def Status.value : Status → Int
  | .ok => 0
  | .invalidConnection => -1
  | .invalidPacket => -2
  | .bufferFailure => -3
  | .undefined => -4

/-- The 8-bit two's complement pattern of a status code on the response port (R92). -/
def Status.code (st : Status) : BitVec 8 := BitVec.ofInt 8 st.value

/-- A command that completed or was granted: `ok = 1`, status OK, nothing returned (R90). -/
def Response.done : Response := { ok := true, status := .ok, count := 0, data := [] }

/-- BUF_USED on a live unit: `ok = 1` and the count (R112). -/
def Response.used (n : Nat) : Response := { ok := true, status := .ok, count := BitVec.ofNat 32 n, data := [] }

/-- A performed write of `n` bytes: `ok` is `count > 0` (R90, R113). -/
def Response.wrote (n : Nat) : Response := { ok := decide (0 < n), status := .ok, count := BitVec.ofNat 32 n, data := [] }

/-- Bytes copied out by a read or a serialization: `ok` is `count > 0`, `|data| = count` (R90, R114, R145). -/
def Response.bytes (out : List Byte) : Response :=
  { ok := decide (0 < out.length), status := .ok, count := BitVec.ofNat 32 out.length, data := out }

/-- A WRITE_PACKET status: `ok` is `status = OK` (R180). -/
def Response.ofStatus (st : Status) : Response := { ok := decide (st = .ok), status := st, count := 0, data := [] }

/-- The presence bit `body_valid` of a packet with `n` body bytes (R31, R141, R151). -/
def bodyPresent (n : Nat) : Bool := decide (0 < n)

end Sys2Proof.Machine
end

