-- ==== Sys2Proof/Machine/Operands.lean ====
section
/-! DEFINITION. The operand forms of the commands: packet register operands, byte payloads, and the layout of 32-bit
header fields as bytes. -/

namespace Sys2Proof.Machine

/-- A packet register operand: the register's value, or the answer R96 gives when the block has no such register. -/
def withPkt (s : State) (i : PktIdx) (k : Packet → Host.Outcome State Fault Refusal) : Host.Outcome State Fault Refusal :=
  match s.pkt i with
  | some p => k p
  | none => s.illegal

/-- A byte payload that is about to be read: the contract of R86 must hold, else the command is refused (U11). -/
def withPayload (n : Nat) (bytes : List Byte) (k : List Byte → Host.Outcome State Fault Refusal) :
    Host.Outcome State Fault Refusal :=
  if bytes.length = n then k bytes else .refused .payloadMismatch

/-- `enc32` (R54). -/
def enc32 (e : Endian) (v : Word) : List Byte :=
  match e with
  | .le => [v.extractLsb' 0 8, v.extractLsb' 8 8, v.extractLsb' 16 8, v.extractLsb' 24 8]
  | .be => [v.extractLsb' 24 8, v.extractLsb' 16 8, v.extractLsb' 8 8, v.extractLsb' 0 8]

/-- `dec32` of the four bytes `b0 b1 b2 b3` (R54). -/
def dec32 (e : Endian) (b0 b1 b2 b3 : Byte) : Word :=
  match e with
  | .le => BitVec.ofNat 32 (b0.toNat + 2 ^ 8 * b1.toNat + 2 ^ 16 * b2.toNat + 2 ^ 24 * b3.toNat)
  | .be => BitVec.ofNat 32 (2 ^ 24 * b0.toNat + 2 ^ 16 * b1.toNat + 2 ^ 8 * b2.toNat + b3.toNat)

/-- Byte `i` of a sequence; every use is guarded by a length test (R151). -/
def byteAt (s : List Byte) (i : Nat) : Byte := s.getD i 0

/-- `dec32(s[off .. off + 4))` (R75). -/
def fieldAt (e : Endian) (s : List Byte) (off : Nat) : Word :=
  dec32 e (byteAt s off) (byteAt s (off + 1)) (byteAt s (off + 2)) (byteAt s (off + 3))

end Sys2Proof.Machine
end

