-- ==== Sys2Proof/Machine/Buffer.lean ====
section
/-! DEFINITION. The Byte Buffer commands (40_byte_buffer.md), one meaning each. -/

namespace Sys2Proof.Machine

/-- BUF_CREATE (R111). -/
def execBufCreate (sel : Sel) (cap : Word) (s : State) : Host.Outcome State Fault Refusal :=
  if s.params.maxCap < cap.toNat then s.raise .ok
  else .next ((s.setBuf sel (.fresh cap)).respond .done)

/-- BUF_USED (R112). -/
def execBufUsed (sel : Sel) (s : State) : Host.Outcome State Fault Refusal :=
  if (s.buf sel).live = false then s.raise .ok
  else orFault (s.buf sel).used fun u => .next (s.respond (.used u))

/-- BUF_WRITE (R113). A command that rejects its operands does not look at the payload (R86). -/
def execBufWrite (sel : Sel) (len : Word) (src : Option (List Byte)) (s : State) : Host.Outcome State Fault Refusal :=
  if (s.buf sel).rejectsWrite len.toNat src.isSome then s.raise .ok
  else withPayload len.toNat (src.getD []) fun bytes =>
    orFault ((s.buf sel).store bytes) fun b => .next ((s.setBuf sel b).respond (.wrote len.toNat))

/-- The common part of the three reads (R114): reject, or copy out, apply the mode's effect to the unit and answer. -/
def readWith (effect : BufUnit → Nat → Except Fault BufUnit) (sel : Sel) (len : Word) (dst : Bool) (s : State) :
    Host.Outcome State Fault Refusal :=
  orFault ((s.buf sel).fetch len.toNat dst) fun r =>
    match r with
    | none => s.raise .ok
    | some out => orFault (effect (s.buf sel) out.length) fun b => .next ((s.setBuf sel b).respond (.bytes out))

/-- BUF_READ.FULL (R115). -/
def execBufReadFull (sel : Sel) (len : Word) (dst : Bool) (s : State) : Host.Outcome State Fault Refusal :=
  readWith (fun b _ => b.afterFull) sel len dst s

/-- BUF_READ.PARTIAL (R116). -/
def execBufReadPartial (sel : Sel) (len : Word) (dst : Bool) (s : State) : Host.Outcome State Fault Refusal :=
  readWith (fun b eff => b.afterPartial eff) sel len dst s

/-- BUF_READ.PEEK (R117). -/
def execBufReadPeek (sel : Sel) (len : Word) (dst : Bool) (s : State) : Host.Outcome State Fault Refusal :=
  readWith (fun b _ => .ok b) sel len dst s

/-- BUF_CLEAR (R118). -/
def execBufClear (sel : Sel) (s : State) : Host.Outcome State Fault Refusal :=
  if (s.buf sel).live = false then s.raise .ok
  else orFault (s.buf sel).cleared fun b => .next ((s.setBuf sel b).respond .done)

/-- BUF_DESTROY (R119). -/
def execBufDestroy (sel : Sel) (s : State) : Host.Outcome State Fault Refusal :=
  if (s.buf sel).live then .next ((s.setBuf sel .absent).respond .done)
  else .next (s.respond .done)

end Sys2Proof.Machine
end

