-- ==== Sys2Proof/Machine/Endpoint.lean ====
section
/-! DEFINITION. The Instance commands (42_instance.md), one meaning each. -/

namespace Sys2Proof.Machine

/-- The state of an endpoint just created from a configuration (R170): the six words by value, both units as BUF_CREATE
makes them. -/
def State.openEndpoint (s : State) (c : EndpointCfg) : State :=
  { s with cfg := c, instLive := true, bufIn := .fresh c.bufferSize, bufOut := .fresh c.bufferSize }

/-- The state with the endpoint closed (R171): both units destroyed, `CFG` cleared. -/
def State.closeEndpoint (s : State) : State :=
  { s with cfg := .zero, instLive := false, bufIn := .absent, bufOut := .absent }

/-- INST_CREATE (R170). -/
def execInstCreate (config : Option EndpointCfg) (s : State) : Host.Outcome State Fault Refusal :=
  match config with
  | none => s.raise .ok
  | some c =>
    if c.bufferSize.toNat = 0 then s.raise .ok
    else if s.params.maxCap < c.bufferSize.toNat then s.raise .ok
    else .next ((s.openEndpoint c).respond .done)

/-- INST_CLOSE (R171). -/
def execInstClose (s : State) : Host.Outcome State Fault Refusal :=
  if s.instLive then .next (s.closeEndpoint.respond .done) else .next (s.respond .done)

end Sys2Proof.Machine
end

