-- ==== Sys2Proof/Machine/Codec.lean ====
section
/-! DEFINITION. The two pure functions of R140, `Serialize` and `Deserialize`, over the frame of R70, and the packet that
PKT_CONSTRUCT makes. -/

namespace Sys2Proof.Machine

/-- The frame of a packet (R70, R74): fields from the register, nothing recomputed. -/
def frameOf (e : Endian) (k : Packet) : List Byte :=
  [soh] ++ enc32 e k.id ++ enc32 e k.dataSize ++ enc32 e k.type ++ enc32 e k.checksum
    ++ k.body.take k.dataSize.toNat ++ [eot]

/-- `Serialize` (R145): `none` is FAIL. -/
def serialize (p : Params) (k : Packet) : Except Fault (Option (List Byte)) :=
  if k.valid = false then .ok none
  else if 0 < k.dataSize.toNat ∧ k.bodyValid = false then .ok none
  else if 2 ^ 32 - 1 < frameOverhead + k.dataSize.toNat then .ok none
  else if frameOverhead + p.maxBody < frameOverhead + k.dataSize.toNat then .ok none
  else if k.body.length < k.dataSize.toNat then .error .outsideBody
  else .ok (some (frameOf p.endian k))

/-- The packet a frame `s` declares (R75, R151). -/
def packetAt (e : Endian) (s : List Byte) : Packet :=
  let ds := fieldAt e s 5
  { valid := true
    id := fieldAt e s 1
    dataSize := ds
    type := fieldAt e s 9
    checksum := fieldAt e s 13
    bodyValid := bodyPresent ds.toNat
    body := (s.drop 17).take ds.toNat }

/-- `Deserialize(s, |s|)` (R151): `none` is FAIL. -/
def deserialize (p : Params) (s : List Byte) : Option Packet :=
  if s.length < frameOverhead then none
  else if byteAt s 0 ≠ soh then none
  else if s.length < frameOverhead + (fieldAt p.endian s 5).toNat then none
  else if p.maxBody < (fieldAt p.endian s 5).toNat then none
  else if byteAt s (17 + (fieldAt p.endian s 5).toNat) ≠ eot then none
  else some (packetAt p.endian s)

/-- The packet PKT_CONSTRUCT makes of its operands (R141). -/
def constructed (len type rnd : Word) (body : List Byte) : Packet :=
  { valid := true
    id := rnd
    dataSize := len
    type := type
    checksum := 0
    bodyValid := bodyPresent len.toNat
    body := body }

end Sys2Proof.Machine
end

