-- ==== Sys2Proof/Machine/PacketCodec.lean ====
section
/-! DEFINITION. The Packet Codec commands (41_packet_codec.md), one meaning each. -/

namespace Sys2Proof.Machine

/-- A codec command that returns a packet: the packet on success, ABSENT and `ok = 0` on failure (R140). -/
def returnPacket (s : State) (pd : PktIdx) : Option Packet → Host.Outcome State Fault Refusal
  | some k => .next ((s.setPkt pd k).respond .done)
  | none => (s.setPkt pd .absent).raise .ok

/-- PKT_CONSTRUCT (R141). -/
def execPktConstruct (pd : PktIdx) (len type rnd : Word) (data : Option (List Byte)) (s : State) :
    Host.Outcome State Fault Refusal :=
  withPkt s pd fun _ =>
    if data.isSome = false ∧ 0 < len.toNat then returnPacket s pd none
    else if s.params.maxBody < len.toNat then returnPacket s pd none
    else
      match data with
      | none => returnPacket s pd (some (constructed len type rnd []))
      | some bytes => withPayload len.toNat bytes fun body => returnPacket s pd (some (constructed len type rnd body))

/-- PKT_SERIALIZE (R145). -/
def execPktSerialize (ps : PktIdx) (s : State) : Host.Outcome State Fault Refusal :=
  withPkt s ps fun k =>
    orFault (serialize s.params k) fun r =>
      match r with
      | none => s.raise .ok
      | some f => .next (s.respond (.bytes f))

/-- PKT_DESERIALIZE (R151). Fewer than 18 bytes fail before the payload is read (R86). -/
def execPktDeserialize (pd : PktIdx) (len : Word) (bytes : Option (List Byte)) (s : State) :
    Host.Outcome State Fault Refusal :=
  withPkt s pd fun _ =>
    match bytes with
    | none => returnPacket s pd none
    | some b =>
      if len.toNat < frameOverhead then returnPacket s pd none
      else withPayload len.toNat b fun f => returnPacket s pd (deserialize s.params f)

/-- PKT_DESTROY (R155). -/
def execPktDestroy (ps : PktIdx) (s : State) : Host.Outcome State Fault Refusal :=
  withPkt s ps fun _ => .next ((s.setPkt ps .absent).respond .done)

end Sys2Proof.Machine
end

