-- ==== Sys2Proof/Machine/Facade.lean ====
section
/-! DEFINITION. The I/O Facade commands (43_io_facade.md), one meaning each. -/

namespace Sys2Proof.Machine

/-- Write a frame to `OUT`: the capacity test, the Byte Buffer write, the re-verification (R180). -/
def sendFrame (s : State) (f : List Byte) : Host.Outcome State Fault Refusal :=
  if s.bufOut.cap.toNat < f.length then s.raise .bufferFailure
  else
    orFault (s.bufOut.writeAll f) fun r =>
      if r.1 < f.length then (s.setBuf .output r.2).raise .bufferFailure
      else .next ((s.setBuf .output r.2).respond (.ofStatus .ok))

/-- WRITE_PACKET (R180): absent arguments first, then serialization, then the buffer (R198). -/
def execWritePacket (ps : PktIdx) (s : State) : Host.Outcome State Fault Refusal :=
  withPkt s ps fun k =>
    if s.instLive = false ∨ k.valid = false ∨ s.bufOut.live = false then s.raise .undefined
    else
      orFault (serialize s.params k) fun r =>
        match r with
        | none => s.raise .invalidPacket
        | some f => sendFrame s f

/-- READ_PACKET (R181): the whole used space of `IN` is consumed before it is parsed. -/
def execReadPacket (pd : PktIdx) (s : State) : Host.Outcome State Fault Refusal :=
  withPkt s pd fun _ =>
    if s.instLive = false ∨ s.bufIn.live = false then returnPacket s pd none
    else
      orFault s.bufIn.used fun u =>
        if u = 0 then returnPacket s pd none
        else
          orFault (s.bufIn.peek s.bufIn.head.toNat u) fun f =>
            returnPacket (s.setBuf .input { s.bufIn with tail := s.bufIn.head }) pd (deserialize s.params f)

end Sys2Proof.Machine
end

