-- ==== Sys2Proof/Machine/Dispatch.lean ====
section
/-! DEFINITION. One arm per command of R85. -/

namespace Sys2Proof.Machine

def exec (i : Instr) (s : State) : Host.Outcome State Fault Refusal :=
  match i with
  | .bufCreate sel cap => Sys2Proof.Machine.execBufCreate sel cap s
  | .bufUsed sel => Sys2Proof.Machine.execBufUsed sel s
  | .bufWrite sel len src => Sys2Proof.Machine.execBufWrite sel len src s
  | .bufReadFull sel len dst => Sys2Proof.Machine.execBufReadFull sel len dst s
  | .bufReadPartial sel len dst => Sys2Proof.Machine.execBufReadPartial sel len dst s
  | .bufReadPeek sel len dst => Sys2Proof.Machine.execBufReadPeek sel len dst s
  | .bufClear sel => Sys2Proof.Machine.execBufClear sel s
  | .bufDestroy sel => Sys2Proof.Machine.execBufDestroy sel s
  | .pktConstruct pd len type rnd data => Sys2Proof.Machine.execPktConstruct pd len type rnd data s
  | .pktSerialize ps => Sys2Proof.Machine.execPktSerialize ps s
  | .pktDeserialize pd len bytes => Sys2Proof.Machine.execPktDeserialize pd len bytes s
  | .pktDestroy ps => Sys2Proof.Machine.execPktDestroy ps s
  | .instCreate config => Sys2Proof.Machine.execInstCreate config s
  | .instClose => Sys2Proof.Machine.execInstClose s
  | .writePacket ps => Sys2Proof.Machine.execWritePacket ps s
  | .readPacket pd => Sys2Proof.Machine.execReadPacket pd s

end Sys2Proof.Machine
end

