-- ==== Sys2Proof/Machine/Step.lean ====
section
/-! DEFINITION. One step: take the next input and act on it (R12, R61). -/

namespace Sys2Proof.Machine

/-- One step. With nothing presented the block waits (R221): its state does not change and no response is pending
(assumptions 6 and 10). -/
def step (s : State) : Host.Outcome State Fault Refusal :=
  match s.presented with
  | .nothing t => .next t
  | .reset t => .next t
  | .run i t => exec i t
  | .illegal t => t.illegal

/-- The state in which the host presents an opcode-table word next. -/
def State.withFetchWord (s : State) (nbits w : Nat) : State :=
  { s with inputs := .command (tableCommand nbits w) :: s.inputs }

end Sys2Proof.Machine
end

