-- ==== Sys2Proof/Machine/Assembler.lean ====
section
/-! DEFINITION. The textual command lines of R100 to R102: lexing, operand forms, and one command per line. A line is a
list of characters. What R100 and R101 leave open is fixed in assumption 15. -/

namespace Sys2Proof.Machine

/-- The words and marks of a line. -/
inductive Token where
  | word (w : List Char)
  | comma
  | openBrace
  | closeBrace
  /-- A double-quoted ASCII string, one byte per character (R101). -/
  | quoted (bytes : List Byte)
  deriving DecidableEq, Repr

/-- Where the lexer stands: between tokens, inside a word, inside a string (collected in reverse). -/
inductive LexState where
  | between
  | inWord (w : List Char)
  | inString (bytes : List Byte)
  deriving DecidableEq, Repr

/-- The double quote. -/
def quoteMark : Char := Char.ofNat 0x22

/-- The token a character is on its own, if it is one. -/
def markOf (c : Char) : Option Token :=
  if c = ',' then some .comma
  else if c = Char.ofNat 0x7B then some .openBrace
  else if c = Char.ofNat 0x7D then some .closeBrace
  else none

/-- The token collected so far, in front of the tokens that follow. -/
def LexState.flush (st : LexState) (rest : List Token) : List Token :=
  match st with
  | .inWord w => .word w.reverse :: rest
  | .between => rest
  | .inString _ => rest

/-- The tokens of a line; a semicolon outside a string starts a comment (R100). -/
def tokens : List Char → LexState → Option (List Token)
  | [], .inString _ => none
  | [], .between => some []
  | [], .inWord w => some [.word w.reverse]
  | c :: cs, .inString b =>
    if c = quoteMark then (tokens cs .between).map (.quoted b.reverse :: ·)
    else if c.toNat < 128 then tokens cs (.inString (BitVec.ofNat 8 c.toNat :: b))
    else none
  | c :: cs, st =>
    if c = ';' then some (st.flush [])
    else if c = ' ' ∨ c = '\t' then (tokens cs .between).map st.flush
    else if c = quoteMark then (tokens cs (.inString [])).map st.flush
    else
      match markOf c with
      | some m => (tokens cs .between).map fun ts => st.flush (m :: ts)
      | none =>
        match st with
        | .inWord w => tokens cs (.inWord (c :: w))
        | .between => tokens cs (.inWord [c])
        | .inString _ => none

/-- The value of a digit in a base up to 16. -/
def digitValue (base : Nat) (c : Char) : Option Nat :=
  let n := c.toNat
  let v := if 48 ≤ n ∧ n ≤ 57 then n - 48 else if 65 ≤ n ∧ n ≤ 70 then n - 55 else if 97 ≤ n ∧ n ≤ 102 then n - 87 else base
  if v < base then some v else none

/-- Digits in a base, most significant first, after the value `acc`. -/
def digitsValue (base : Nat) : List Char → Nat → Option Nat
  | [], acc => some acc
  | c :: cs, acc => (digitValue base c).bind fun v => digitsValue base cs (base * acc + v)

/-- A number below `bound` in a base, with at least one digit. -/
def boundedNumber (base bound : Nat) (w : List Char) : Option Nat :=
  if w.isEmpty then none else (digitsValue base w 0).filter fun v => decide (v < bound)

/-- A 32-bit number, decimal or `0x` hexadecimal (R101). -/
def numberOf (w : List Char) : Option Word :=
  match w with
  | '0' :: 'x' :: hex => (boundedNumber 16 (2 ^ 32) hex).map (BitVec.ofNat 32)
  | _ => (boundedNumber 10 (2 ^ 32) w).map (BitVec.ofNat 32)

/-- `IN` or `OUT` (R101). -/
def selOfWord (w : List Char) : Option Sel :=
  if w = "IN".toList then some .input else if w = "OUT".toList then some .output else none

/-- `P<n>`, decimal, within the 4-bit field of R81 (R101). -/
def pktOfWord (w : List Char) : Option PktIdx :=
  match w with
  | 'P' :: n => (boundedNumber 10 16 n).map (Fin.ofNat 16)
  | _ => none

/-- A packet type: a name of R91 or a number (R101). -/
def typeOfWord (w : List Char) : Option Word :=
  if w = "TYPE_HANDSHAKE".toList then some PktType.handshake.code
  else if w = "TYPE_DISCONNECT".toList then some PktType.disconnect.code
  else if w = "TYPE_ERROR".toList then some PktType.error.code
  else if w = "TYPE_DATA_PACKET".toList then some PktType.dataPacket.code
  else if w = "TYPE_DATA_STREAM".toList then some PktType.dataStream.code
  else numberOf w

/-- A two-digit hexadecimal byte (R101). -/
def byteOfWord (w : List Char) : Option Byte :=
  if w.length = 2 then (boundedNumber 16 256 w).map (BitVec.ofNat 8) else none

/-- The bytes of a brace list, up to its closing brace, which ends the line. -/
def braceBytes : List Token → Option (List Byte)
  | [.closeBrace] => some []
  | .word w :: rest => (byteOfWord w).bind fun b => (braceBytes rest).map (b :: ·)
  | _ => none

/-- A byte operand: a brace list, a string, or `NULL` (R101). It ends the line. -/
def bytesOperand : List Token → Option (Option (List Byte))
  | [.word w] => if w = "NULL".toList then some none else none
  | [.quoted b] => some (some b)
  | .openBrace :: rest => (braceBytes rest).map some
  | _ => none

/-- The destination of a read: present unless a trailing `NULL` follows (R101). -/
def destinationOperand : List Token → Option Bool
  | [] => some true
  | [.comma, .word w] => if w = "NULL".toList then some false else none
  | _ => none

/-- A configuration operand: six numbers in braces, or `NULL` (R100, R101). -/
def configOperand : List Token → Option (Option EndpointCfg)
  | [.word w] => if w = "NULL".toList then some none else none
  | [.openBrace, .word a, .comma, .word b, .comma, .word c, .comma, .word d, .comma, .word e, .comma, .word f, .closeBrace] =>
    match numberOf a, numberOf b, numberOf c, numberOf d, numberOf e, numberOf f with
    | some a, some b, some c, some d, some e, some f => some (some ⟨a, b, c, d, e, f⟩)
    | _, _, _, _, _, _ => none
  | _ => none

/-- An operand list of one buffer unit. -/
def unitOnly (ts : List Token) (k : Sel → Instr) : Option Instr :=
  match ts with
  | [.word u] => (selOfWord u).map k
  | _ => none

/-- An operand list of one packet register. -/
def pktOnly (ts : List Token) (k : PktIdx → Instr) : Option Instr :=
  match ts with
  | [.word x] => (pktOfWord x).map k
  | _ => none

/-- An operand list of a unit and a number, and what follows them. -/
def unitAndNumber (ts : List Token) (k : Sel → Word → List Token → Option Instr) : Option Instr :=
  match ts with
  | .word u :: .comma :: .word n :: rest =>
    match selOfWord u, numberOf n with
    | some s, some v => k s v rest
    | _, _ => none
  | _ => none

/-- The operands of PKT_CONSTRUCT and PKT_DESERIALIZE up to the length, and what follows the next comma. -/
def pktAndNumber (ts : List Token) (k : PktIdx → Word → List Token → Option Instr) : Option Instr :=
  match ts with
  | .word x :: .comma :: .word n :: .comma :: rest =>
    match pktOfWord x, numberOf n with
    | some i, some v => k i v rest
    | _, _ => none
  | _ => none

/-- The operands of PKT_CONSTRUCT after the length. -/
def constructTail (pd : PktIdx) (len : Word) (ts : List Token) : Option Instr :=
  match ts with
  | .word t :: .comma :: .word r :: .comma :: rest =>
    match typeOfWord t, numberOf r, bytesOperand rest with
    | some type, some rnd, some data => some (.pktConstruct pd len type rnd data)
    | _, _, _ => none
  | _ => none

/-- The operands of a read after the length. -/
def readTail (k : Bool → Instr) (ts : List Token) : Option Instr := (destinationOperand ts).map k

/-- The operands of a write after the length. -/
def writeTail (k : Option (List Byte) → Instr) (ts : List Token) : Option Instr :=
  match ts with
  | .comma :: rest => (bytesOperand rest).map k
  | _ => none

/-- A mnemonic and its operands: the sixteen line forms of R100. -/
def command (m : List Char) (ts : List Token) : Option Instr :=
  if m = "BUF_CREATE".toList then unitAndNumber ts fun s n rest => if rest = [] then some (.bufCreate s n) else none
  else if m = "BUF_USED".toList then unitOnly ts .bufUsed
  else if m = "BUF_WRITE".toList then unitAndNumber ts fun s n => writeTail (.bufWrite s n)
  else if m = "BUF_READ.FULL".toList then unitAndNumber ts fun s n => readTail (.bufReadFull s n)
  else if m = "BUF_READ.PARTIAL".toList then unitAndNumber ts fun s n => readTail (.bufReadPartial s n)
  else if m = "BUF_READ.PEEK".toList then unitAndNumber ts fun s n => readTail (.bufReadPeek s n)
  else if m = "BUF_CLEAR".toList then unitOnly ts .bufClear
  else if m = "BUF_DESTROY".toList then unitOnly ts .bufDestroy
  else if m = "PKT_CONSTRUCT".toList then pktAndNumber ts constructTail
  else if m = "PKT_SERIALIZE".toList then pktOnly ts .pktSerialize
  else if m = "PKT_DESERIALIZE".toList then
    pktAndNumber ts fun i n rest => (bytesOperand rest).map (.pktDeserialize i n)
  else if m = "PKT_DESTROY".toList then pktOnly ts .pktDestroy
  else if m = "INST_CREATE".toList then (configOperand ts).map .instCreate
  else if m = "INST_CLOSE".toList then if ts = [] then some .instClose else none
  else if m = "WRITE_PACKET".toList then pktOnly ts .writePacket
  else if m = "READ_PACKET".toList then pktOnly ts .readPacket
  else none

/-- A line of R100: one mnemonic with its operands is one command (R102). -/
def parseLine (line : List Char) : Option Instr :=
  match tokens line .between with
  | some (.word m :: ts) => command m ts
  | _ => none

/-- The command a line stands for on the ports; `.WORD n` presents the control word `n` itself with empty ports, as the
programs of 95_test_vectors.md do. -/
def assemble (line : List Char) : Option Command :=
  match tokens line .between with
  | some [.word d, .word n] =>
    if d = ".WORD".toList then (numberOf n).map Command.ofWord else (parseLine line).map encode
  | _ => (parseLine line).map encode

end Sys2Proof.Machine
end

