-- ==== Sys2Proof/Safety.lean ====
section
/-! DEFINITION. What claims are stated in: the invariant of the block's states (R8, R20 to R31, R90, R194), what a host can
observe (R38), and when two states differ only in bytes no command can see (R39). -/

namespace Sys2Proof.Machine

/-- The invariant of a buffer unit: the cursors of R26 and R27, the capacity bound of R25, the region in canonical form with
no byte at or beyond the capacity (R51), and a unit that is not live cleared (R42, R119). -/
abbrev BufUnit.Inv (p : Params) (b : BufUnit) : Prop :=
  (b.head = 0 ∧ b.tail.toNat ≤ b.cap.toNat ∧ b.cap.toNat ≤ p.maxCap)
    ∧ (b.region.wf ∧ ∀ c ∈ b.region.cells, c.1 < b.cap.toNat)
    ∧ (b.live = false → b = .absent)

/-- The invariant of a packet register (R31). -/
abbrev Packet.Inv (p : Params) (k : Packet) : Prop :=
  (k.valid = false → k = .absent)
    ∧ (k.valid = true →
        k.dataSize.toNat ≤ p.maxBody ∧ k.body.length = k.dataSize.toNat ∧ (k.bodyValid = true ↔ 0 < k.dataSize.toNat))

/-- The invariant of `INST` and `CFG`: the legal values of R22, and `CFG` clear while there is no instance (R42, R171). -/
abbrev State.EndpointInv (s : State) : Prop :=
  (s.instLive = true → 1 ≤ s.cfg.bufferSize.toNat ∧ s.cfg.bufferSize.toNat ≤ s.params.maxCap)
    ∧ (s.instLive = false → s.cfg = .zero)

/-- The invariant of a response: the codes no command returns from a state built by commands (R192, R194), a failure status
only with `ok = 0`, nothing returned with `ok = 0`, and as many bytes as counted or none (R90). -/
abbrev Response.Inv (r : Response) : Prop :=
  (r.status ≠ .invalidConnection ∧ r.status ≠ .invalidPacket)
    ∧ (r.status ≠ .ok → r.ok = false)
    ∧ (r.ok = false → r.count = 0 ∧ r.data = [])
    ∧ (r.data = [] ∨ r.data.length = r.count.toNat)

/-- The invariant of the block. -/
abbrev State.Inv (s : State) : Prop :=
  s.params.wf
    ∧ (s.bufIn.Inv s.params ∧ s.bufOut.Inv s.params)
    ∧ (s.pkts.length = s.params.nPkt ∧ ∀ k ∈ s.pkts, k.Inv s.params)
    ∧ s.EndpointInv
    ∧ ∀ r ∈ s.rsp, Response.Inv r

/-- A legal control word (R96): it matches a row of R85, and the register indices the row uses are below `N_PKT`. A row uses
`pd` (`ps`) when its mask leaves bits 11:8 (15:12) free. -/
def legalWord (p : Params) (w : Word) : Prop :=
  ∃ r ∈ opcodeRows, r.selects w = true
    ∧ (r.mask &&& 0xF00 = 0 → (w >>> 8 &&& 0xF).toNat < p.nPkt)
    ∧ (r.mask &&& 0xF000 = 0 → (w >>> 12 &&& 0xF).toNat < p.nPkt)

/-- The valid bytes of a unit, `region[head .. tail)` in order of arrival (R26). -/
def BufUnit.contents (b : BufUnit) : List Byte := b.region.readBytes b.head.toNat (b.tail.toNat - b.head.toNat)

/-- What a host can observe after a step: the response of that step and every packet register (R38). -/
structure Observation where
  rsp : Option Response
  pkts : List Packet
  deriving DecidableEq, Repr

/-- The observation a state gives (R38). -/
def State.observed (s : State) : Observation := { rsp := s.rsp, pkts := s.pkts }

/-- Two units "that agree on `live`, `cap`, `head`, `tail` and `region[0 .. tail)`" (R39). -/
abbrev BufUnit.SameVisible (a b : BufUnit) : Prop :=
  a.live = b.live ∧ a.cap = b.cap ∧ a.head = b.head ∧ a.tail = b.tail
    ∧ ∀ i < a.tail.toNat, a.region.read i = b.region.read i

/-- Two states that differ at most in region bytes at and above `tail` (R39). -/
abbrev State.SameVisible (s t : State) : Prop :=
  s.params = t.params ∧ s.cfg = t.cfg ∧ s.instLive = t.instLive ∧ s.pkts = t.pkts ∧ s.rsp = t.rsp ∧ s.inputs = t.inputs
    ∧ s.bufIn.SameVisible t.bufIn ∧ s.bufOut.SameVisible t.bufOut

/-- A 32-bit value with its four bytes in the opposite order (R56). -/
def byteReversed (v : Word) : Word := v.extractLsb' 0 8 ++ v.extractLsb' 8 8 ++ v.extractLsb' 16 8 ++ v.extractLsb' 24 8

/-- The other byte order. -/
def otherEndian : Endian → Endian
  | .le => .be
  | .be => .le

/-- Field `k` of a packet header, in the order of R72: `id`, `data_size`, `type`, `checksum`. -/
def Packet.headerField (p : Packet) : Fin 4 → Word
  | 0 => p.id
  | 1 => p.dataSize
  | 2 => p.type
  | 3 => p.checksum

/-- The other buffer unit. -/
def otherUnit : Sel → Sel
  | .input => .output
  | .output => .input

/-- While the instance is live both units are live with the configured capacity (R24). -/
abbrev State.Paired (s : State) : Prop :=
  s.instLive = true →
    s.bufIn.live = true ∧ s.bufOut.live = true ∧ s.bufIn.cap = s.cfg.bufferSize ∧ s.bufOut.cap = s.cfg.bufferSize

/-- The next state of an outcome, if it is one. -/
def nextOf (o : Host.Outcome State Fault Refusal) : Option State :=
  match o with
  | .next s => some s
  | .fault _ => none
  | .refused _ => none

end Sys2Proof.Machine
end

