-- ==== Sys2Proof/Certificates/Slice0/Obligations.lean ====
section
/-! DEFINITION. The statements for the provers. A response is written `⟨ok, status, count, data⟩` (R90). `s.Inv` is the
invariant of the block (Safety.lean); that every step keeps it is a statement of its own. -/

open Sys2Proof Sys2Proof.Machine

/-! ### Encoding -/

/-- Words written out from E1 of 95_test_vectors.md, by R81 and R85, decode to the commands they stand for. -/
def Obligations.WordsOfTheTableDecode : Prop :=
  decodeTableWord 32 0b10000 = some (.bufCreate .output 0)
    ∧ decodeTableWord 32 0b10010010 = some (.bufWrite .output 0 (some []))
    ∧ decodeTableWord 32 0b10100011 = some (.bufReadPartial .input 0 true)
    ∧ decodeTableWord 32 0b11_0000_0110 = some (.pktConstruct 3 0 0 0 none)
    ∧ decodeTableWord 32 0b1010 = some (.instCreate none)
    ∧ decodeTableWord 32 0b0001_0000_0000_1100 = some (.writePacket 1)
    ∧ decodeTableWord 32 0b11_0000_1101 = some (.readPacket 3)
    ∧ decodeTableWord 32 0b0100_0000_0000_0111 = none

/-- Lines of E1 of 95_test_vectors.md, by R100 and R101, assemble to the commands they stand for. -/
def Obligations.LinesOfTheTableAssemble : Prop :=
  parseLine "BUF_CREATE OUT, 64".toList = some (.bufCreate .output 64)
    ∧ parseLine "BUF_READ.PARTIAL IN, 4".toList = some (.bufReadPartial .input 4 true)
    ∧ parseLine "BUF_READ.PARTIAL IN, 4, NULL".toList = some (.bufReadPartial .input 4 false)
    ∧ parseLine "PKT_CONSTRUCT P3, 0, TYPE_DATA_STREAM, 0x1, NULL".toList = some (.pktConstruct 3 0 4 1 none)
    ∧ parseLine "INST_CLOSE ; comment".toList = some .instClose
    ∧ (assemble "READ_PACKET P3".toList).map Command.w0 = some 0x30D
    ∧ parseLine "READ_PACKET P16".toList = none

/-- Decode and encode agree: every command whose register index the block has, with every operand at every value. -/
def Obligations.DecodeOfEncodeIsIdentity : Prop :=
  ∀ (p : Params) (i : Instr), i.indexOk p = true → decode p (encode i) = .ok i

/-- A decoded command accounts for every bit of its word: its row selects the word, its index is below `N_PKT`, and encoding
it gives the word back (R81, R85, R95). -/
def Obligations.DecodedWordIsItsEncoding : Prop :=
  ∀ (p : Params) (c : Command) (i : Instr), decode p c = .ok i →
    i.row ∈ opcodeRows ∧ i.row.selects c.w0 = true ∧ i.indexOk p = true ∧ (encode i).w0 = c.w0

/-- R96, last sentence, for the decoder: it accepts exactly the words that match a row of R85 with their used register indices
below `N_PKT`; and no word matches two rows. -/
def Obligations.LegalWordsAreTheRows : Prop :=
  ∀ (p : Params) (c : Command),
    ((∃ i, decode p c = .ok i) ↔ legalWord p c.w0)
      ∧ ∀ r ∈ opcodeRows, ∀ r' ∈ opcodeRows, r.selects c.w0 = true → r'.selects c.w0 = true → r' = r

/-- R84: "A port a command does not read is ignored, whatever it carries." -/
def Obligations.UnreadPortsAreIgnored : Prop :=
  ∀ (p : Params) (c c' : Command) (i : Instr), decode p c = .ok i → Command.SameRead i.format c c' → decode p c' = .ok i

/-! ### Step and reset -/

/-- A step runs the decoded command: it is `exec` of the command in the state with that input taken and no response
pending. -/
def Obligations.StepRunsDecodedCommand : Prop :=
  ∀ (s : State) (c : Command) (rest : List Input) (i : Instr),
    s.inputs = .command c :: rest → decode s.params c = .ok i → step s = exec i { s with inputs := rest, rsp := none }

/-- R96: a word that matches no row of R85, or names a register at or above `N_PKT`, changes no state and is answered
`ok = 0`, `UNDEFINED`, whatever the operand ports carry. -/
def Obligations.IllegalWordIsAnswered : Prop :=
  ∀ (s : State) (c : Command) (rest : List Input),
    s.inputs = .command c :: rest → ¬legalWord s.params c.w0 →
      step s = .next { s with inputs := rest, rsp := some ⟨false, .undefined, 0, []⟩ }

/-- R97: the reserved opcodes 0xE and 0xF decode to nothing, whatever the other bits and the ports are. -/
def Obligations.ReservedOpcodesAreIllegal : Prop :=
  ∀ (p : Params) (c : Command) (i : Instr), (c.w0 &&& 0xF = 0xE ∨ c.w0 &&& 0xF = 0xF) → decode p c ≠ .ok i

/-- R42: the state after reset of a block, field by field. -/
def Obligations.ResetValues : Prop :=
  ∀ p : Params,
    ((State.resetWith p).instLive = false ∧ (State.resetWith p).cfg = ⟨0, 0, 0, 0, 0, 0⟩ ∧ (State.resetWith p).rsp = none)
      ∧ (∀ sel, (State.resetWith p).buf sel = ⟨false, 0, 0, 0, ⟨[]⟩⟩ ∧ (State.resetWith p).dir sel = sel.code)
      ∧ (State.resetWith p).pkts = List.replicate p.nPkt ⟨false, 0, 0, 0, 0, false, []⟩
      ∧ State.reset = State.resetWith .reference

/-- Reset, presented in any state, gives every piece of state its value of R42. That reset is an input, and that the constants
of the block and the later inputs stay, is the model's choice (assumptions 1 to 3). -/
def Obligations.ResetClearsEverything : Prop :=
  ∀ (s : State) (rest : List Input), s.inputs = .reset :: rest →
    ∃ t, step s = .next t
      ∧ (t.instLive = false ∧ t.cfg = ⟨0, 0, 0, 0, 0, 0⟩ ∧ t.rsp = none)
      ∧ (∀ sel, t.buf sel = ⟨false, 0, 0, 0, ⟨[]⟩⟩ ∧ t.dir sel = sel.code)
      ∧ t.pkts = List.replicate s.params.nPkt ⟨false, 0, 0, 0, 0, false, []⟩
      ∧ (t.params = s.params ∧ t.inputs = rest)

/-- With nothing presented the block waits: nothing changes but that the response of the step before is gone (the model's
choice, assumptions 6 and 10). -/
def Obligations.NothingPresentedOnlyDropsTheResponse : Prop :=
  ∀ s : State, s.inputs = [] → step s = .next { s with rsp := none }

/-- "Neither is retained" (R53): a step does not depend on the response of the step before, a response is pending after a step
exactly when the step took a command, and the command taken, its data with it, is gone. -/
def Obligations.PortStreamsAreNotRetained : Prop :=
  ∀ s : State, (∀ r : Option Response, step { s with rsp := r } = step s)
    ∧ ∀ t, step s = .next t → t.inputs = s.inputs.tail ∧ (t.rsp.isSome = true ↔ ∃ c rest, s.inputs = .command c :: rest)

/-- The invariant holds after reset, for every block whose parameters meet R8. -/
def Obligations.ResetMeetsInvariant : Prop :=
  State.reset.Inv ∧ ∀ p : Params, p.wf → (State.resetWith p).Inv

/-- Every step keeps the invariant: cursors, capacities, canonical regions, packet registers, endpoint, response. -/
def Obligations.StepKeepsInvariant : Prop :=
  ∀ s t : State, s.Inv → step s = .next t → t.Inv

/-- From every state of the invariant every well-formed command completes with a response: no fault, no refusal. -/
def Obligations.WellFormedCommandsComplete : Prop :=
  ∀ (s : State) (i : Instr), s.Inv → i.wellFormed s.params = true → ∃ t r, exec i s = .next t ∧ t.rsp = some r ∧ t.Inv

/-- A command is refused only for a payload that breaks the contract of R86, and exactly when it would read that payload: a
BUF_WRITE that is not rejected, a PKT_CONSTRUCT within `MAX_BODY`, a PKT_DESERIALIZE of at least 18 bytes (U11; assumption 7).
What the others answer, whatever the payload, is in BufWriteResult, PktConstructResult and PktDeserializeResult. -/
def Obligations.RefusedExactlyWhenMismatchIsRead : Prop :=
  (∀ (s : State) (i : Instr) (r : Refusal), exec i s = .refused r → r = .payloadMismatch ∧ i.payloadOk = false)
    ∧ (∀ (s : State) (sel : Sel) (len : Word) (bytes : List Byte),
        exec (.bufWrite sel len (some bytes)) s = .refused .payloadMismatch ↔
          bytes.length ≠ len.toNat ∧ (s.buf sel).live = true ∧ 1 ≤ len.toNat ∧ len.toNat < (s.buf sel).cap.toNat)
    ∧ (∀ (s : State) (pd : PktIdx) (len type rnd : Word) (bytes : List Byte),
        exec (.pktConstruct pd len type rnd (some bytes)) s = .refused .payloadMismatch ↔
          bytes.length ≠ len.toNat ∧ pd.val < s.pkts.length ∧ len.toNat ≤ s.params.maxBody)
    ∧ ∀ (s : State) (pd : PktIdx) (len : Word) (bytes : List Byte),
        exec (.pktDeserialize pd len (some bytes)) s = .refused .payloadMismatch ↔
          bytes.length ≠ len.toNat ∧ pd.val < s.pkts.length ∧ 18 ≤ len.toNat

/-! ### Byte Buffer -/

/-- R111. -/
def Obligations.BufCreateResult : Prop :=
  ∀ (s : State) (sel : Sel) (cap : Word), ∃ t, exec (.bufCreate sel cap) s = .next t
    ∧ (s.params.maxCap < cap.toNat → t = { s with rsp := some ⟨false, .ok, 0, []⟩ })
    ∧ (cap.toNat ≤ s.params.maxCap →
        ((t.buf sel).live = true ∧ (t.buf sel).cap = cap ∧ (t.buf sel).head = 0 ∧ (t.buf sel).tail = 0)
          ∧ (∀ a, (t.buf sel).region.read a = 0) ∧ t.dir sel = sel.code ∧ t.rsp = some ⟨true, .ok, 0, []⟩)

/-- R112. -/
def Obligations.BufUsedResult : Prop :=
  ∀ (s : State) (sel : Sel),
    ((s.buf sel).live = false → exec (.bufUsed sel) s = .next { s with rsp := some ⟨false, .ok, 0, []⟩ })
      ∧ ((s.buf sel).live = true → (s.buf sel).head.toNat ≤ (s.buf sel).tail.toNat →
          exec (.bufUsed sel) s = .next { s with rsp := some ⟨true, .ok, (s.buf sel).tail - (s.buf sel).head, []⟩ })

/-- R113: the reject, overwrite and append branches, every byte of the region, the cursors and the response. The reject
branch holds whatever the payload (R86); the others are those of a payload of the stated length. -/
def Obligations.BufWriteResult : Prop :=
  ∀ (s : State) (sel : Sel) (len : Word) (src : Option (List Byte)),
    ((s.buf sel).live = false ∨ len.toNat = 0 ∨ src = none ∨ (s.buf sel).cap.toNat ≤ len.toNat →
        exec (.bufWrite sel len src) s = .next { s with rsp := some ⟨false, .ok, 0, []⟩ })
      ∧ ∀ bytes, s.Inv → src = some bytes → bytes.length = len.toNat →
          (s.buf sel).live = true → 1 ≤ len.toNat → len.toNat < (s.buf sel).cap.toNat →
          ∃ t, exec (.bufWrite sel len src) s = .next t
            ∧ (t.rsp = some ⟨true, .ok, len, []⟩ ∧ (t.buf sel).live = true ∧ (t.buf sel).cap = (s.buf sel).cap)
            ∧ ((s.buf sel).cap.toNat - ((s.buf sel).tail.toNat - (s.buf sel).head.toNat) < len.toNat →
                (t.buf sel).head = 0 ∧ (t.buf sel).tail = len
                  ∧ (∀ k < len.toNat, (t.buf sel).region.read k = bytes.getD k 0)
                  ∧ (∀ a, len.toNat ≤ a → (s.buf sel).head.toNat ≤ a → a < (s.buf sel).tail.toNat →
                      (t.buf sel).region.read a = 0)
                  ∧ (∀ a, len.toNat ≤ a → ¬((s.buf sel).head.toNat ≤ a ∧ a < (s.buf sel).tail.toNat) →
                      (t.buf sel).region.read a = (s.buf sel).region.read a))
            ∧ (len.toNat ≤ (s.buf sel).cap.toNat - ((s.buf sel).tail.toNat - (s.buf sel).head.toNat) →
                (t.buf sel).head = (s.buf sel).head
                  ∧ (t.buf sel).tail.toNat = (s.buf sel).tail.toNat + len.toNat
                  ∧ (∀ k < len.toNat, (t.buf sel).region.read ((s.buf sel).tail.toNat + k) = bytes.getD k 0)
                  ∧ (∀ a, a < (s.buf sel).tail.toNat ∨ (s.buf sel).tail.toNat + len.toNat ≤ a →
                      (t.buf sel).region.read a = (s.buf sel).region.read a))

/-- R114, for the three modes: the reject test, the effective length, the bytes copied out before any effect. -/
def Obligations.BufReadAnswer : Prop :=
  ∀ (s : State) (sel : Sel) (len : Word) (dst : Bool), s.Inv →
    ∀ i ∈ [Instr.bufReadFull sel len dst, Instr.bufReadPartial sel len dst, Instr.bufReadPeek sel len dst],
      ∃ t, exec i s = .next t
        ∧ ((s.buf sel).live = false ∨ (s.buf sel).tail.toNat - (s.buf sel).head.toNat = 0 ∨ dst = false ∨ len.toNat = 0 →
            t = { s with rsp := some ⟨false, .ok, 0, []⟩ })
        ∧ ((s.buf sel).live = true → 0 < (s.buf sel).tail.toNat - (s.buf sel).head.toNat → dst = true → 0 < len.toNat →
            ∃ out : List Byte, out.length = min len.toNat ((s.buf sel).tail.toNat - (s.buf sel).head.toNat)
              ∧ (∀ k < out.length, out.getD k 0 = (s.buf sel).region.read ((s.buf sel).head.toNat + k))
              ∧ t.rsp = some ⟨true, .ok, BitVec.ofNat 32 out.length, out⟩)

/-- R115: a performed full read zeroes the whole region and resets `tail` to `head`. -/
def Obligations.BufReadFullEffect : Prop :=
  ∀ (s : State) (sel : Sel) (len : Word), s.Inv →
    (s.buf sel).live = true → (s.buf sel).head.toNat < (s.buf sel).tail.toNat → 0 < len.toNat →
      ∃ t, exec (.bufReadFull sel len true) s = .next t
        ∧ ((t.buf sel).live = true ∧ (t.buf sel).cap = (s.buf sel).cap
            ∧ (t.buf sel).head = (s.buf sel).head ∧ (t.buf sel).tail = (s.buf sel).head)
        ∧ ∀ a < (s.buf sel).cap.toNat, (t.buf sel).region.read a = 0

/-- R116: a performed partial read moves the unread bytes to offset 0, `tail` back by the effective length, `head` not at
all, and leaves every byte from `rem` on as it was. -/
def Obligations.BufReadPartialEffect : Prop :=
  ∀ (s : State) (sel : Sel) (len : Word), s.Inv →
    (s.buf sel).live = true → (s.buf sel).head.toNat < (s.buf sel).tail.toNat → 0 < len.toNat →
      ∃ t, exec (.bufReadPartial sel len true) s = .next t ∧
        ∀ u eff, u = (s.buf sel).tail.toNat - (s.buf sel).head.toNat → eff = min len.toNat u →
          ((t.buf sel).live = true ∧ (t.buf sel).cap = (s.buf sel).cap ∧ (t.buf sel).head = (s.buf sel).head
              ∧ (t.buf sel).tail.toNat = (s.buf sel).tail.toNat - eff)
            ∧ (∀ k < u - eff, (t.buf sel).region.read k = (s.buf sel).region.read (eff + k))
            ∧ ∀ a, u - eff ≤ a → (t.buf sel).region.read a = (s.buf sel).region.read a

/-- R117: "The unit's state after the command equals its state before, whether the read was performed or rejected." -/
def Obligations.BufReadPeekChangesNothing : Prop :=
  ∀ (s : State) (sel : Sel) (len : Word) (dst : Bool), s.Inv →
    ∃ t r, exec (.bufReadPeek sel len dst) s = .next t ∧ t = { s with rsp := some r }

/-- R118. -/
def Obligations.BufClearResult : Prop :=
  ∀ (s : State) (sel : Sel), s.Inv →
    ∃ t, exec (.bufClear sel) s = .next t
      ∧ ((s.buf sel).live = false → t = { s with rsp := some ⟨false, .ok, 0, []⟩ })
      ∧ ((s.buf sel).live = true → t.rsp = some ⟨true, .ok, 0, []⟩
          ∧ ((t.buf sel).live = true ∧ (t.buf sel).cap = (s.buf sel).cap
              ∧ (t.buf sel).head = (s.buf sel).head ∧ (t.buf sel).tail = (s.buf sel).head)
          ∧ (∀ a, (s.buf sel).head.toNat ≤ a → a < (s.buf sel).tail.toNat → (t.buf sel).region.read a = 0)
          ∧ (∀ a, ¬((s.buf sel).head.toNat ≤ a ∧ a < (s.buf sel).tail.toNat) →
              (t.buf sel).region.read a = (s.buf sel).region.read a)
          ∧ ((s.buf sel).tail = (s.buf sel).head → t.buf sel = s.buf sel))

/-- R119. -/
def Obligations.BufDestroyResult : Prop :=
  ∀ (s : State) (sel : Sel), ∃ t, exec (.bufDestroy sel) s = .next t ∧ t.rsp = some ⟨true, .ok, 0, []⟩
    ∧ ((s.buf sel).live = true → t.buf sel = ⟨false, 0, 0, 0, ⟨[]⟩⟩)
    ∧ ((s.buf sel).live = false → t = { s with rsp := some ⟨true, .ok, 0, []⟩ })

/-- R121 (b), the content law, step by step: the valid bytes of a unit are a queue that an accepted write extends or, when it
does not fit, replaces, that a partial read shortens by a prefix, and that create, full read and clear empty. -/
def Obligations.ContentsAreAQueue : Prop :=
  ∀ (s : State) (sel : Sel), s.Inv → (s.buf sel).live = true →
    (∀ (len : Word) (bytes : List Byte), bytes.length = len.toNat → 1 ≤ len.toNat → len.toNat < (s.buf sel).cap.toNat →
        ∃ t, exec (.bufWrite sel len (some bytes)) s = .next t ∧
          (t.buf sel).contents =
            if len.toNat ≤ (s.buf sel).cap.toNat - (s.buf sel).contents.length then (s.buf sel).contents ++ bytes else bytes)
      ∧ (∀ len : Word, 0 < len.toNat → (s.buf sel).contents ≠ [] →
          ∃ t r, exec (.bufReadPartial sel len true) s = .next t ∧ t.rsp = some r
            ∧ r.data = (s.buf sel).contents.take len.toNat ∧ (t.buf sel).contents = (s.buf sel).contents.drop len.toNat)
      ∧ (∀ len : Word, 0 < len.toNat → (s.buf sel).contents ≠ [] →
          ∃ t r, exec (.bufReadFull sel len true) s = .next t ∧ t.rsp = some r
            ∧ r.data = (s.buf sel).contents.take len.toNat ∧ (t.buf sel).contents = [])
      ∧ (∀ len : Word, 0 < len.toNat → (s.buf sel).contents ≠ [] →
          ∃ t r, exec (.bufReadPeek sel len true) s = .next t ∧ t.rsp = some r
            ∧ r.data = (s.buf sel).contents.take len.toNat ∧ (t.buf sel).contents = (s.buf sel).contents)
      ∧ (∃ t, exec (.bufClear sel) s = .next t ∧ (t.buf sel).contents = [])
      ∧ ∀ cap : Word, cap.toNat ≤ s.params.maxCap →
          ∃ t, exec (.bufCreate sel cap) s = .next t ∧ (t.buf sel).contents = []

/-- R121 (c): a peek followed by a partial read of the same length returns the same bytes twice. -/
def Obligations.PeekThenPartialReturnsSameBytes : Prop :=
  ∀ (s : State) (sel : Sel) (len : Word), s.Inv →
    ∃ t u, exec (.bufReadPeek sel len true) s = .next t ∧ exec (.bufReadPartial sel len true) t = .next u ∧ t.rsp = u.rsp

/-! ### Packet Codec -/

/-- R54: the two byte orders, with the example of the rule, and `dec32(enc32(v)) = v` (R10). -/
def Obligations.Dec32InvertsEnc32 : Prop :=
  (∀ v : Word, enc32 .le v = [v.extractLsb' 0 8, v.extractLsb' 8 8, v.extractLsb' 16 8, v.extractLsb' 24 8]
      ∧ enc32 .be v = [v.extractLsb' 24 8, v.extractLsb' 16 8, v.extractLsb' 8 8, v.extractLsb' 0 8])
    ∧ (enc32 .le 0x11223344 = [0x44, 0x33, 0x22, 0x11] ∧ enc32 .be 0x11223344 = [0x11, 0x22, 0x33, 0x44])
    ∧ (∀ b0 b1 b2 b3 : Byte,
        (dec32 .le b0 b1 b2 b3).toNat = b0.toNat + 2 ^ 8 * b1.toNat + 2 ^ 16 * b2.toNat + 2 ^ 24 * b3.toNat
          ∧ (dec32 .be b0 b1 b2 b3).toNat = 2 ^ 24 * b0.toNat + 2 ^ 16 * b1.toNat + 2 ^ 8 * b2.toNat + b3.toNat)
    ∧ ∀ (e : Endian) (v : Word) (b0 b1 b2 b3 : Byte), enc32 e v = [b0, b1, b2, b3] → dec32 e b0 b1 b2 b3 = v

/-- R70, R72, R73: the frame byte by byte, the header fields bit by bit in either byte order. -/
def Obligations.FrameLayout : Prop :=
  ∀ (p : Params) (k : Packet) (f : List Byte), serialize p k = .ok (some f) →
    (f.length = 18 + k.dataSize.toNat ∧ f.length ≤ 18 + p.maxBody ∧ byteAt f 0 = 0x02
        ∧ byteAt f (17 + k.dataSize.toNat) = 0x04)
      ∧ (∀ (i : Fin 4) (j : Fin 32), p.endian = .le →
          (byteAt f (1 + 4 * i.val + j.val / 8)).getLsbD (j.val % 8) = (k.headerField i).getLsbD j.val)
      ∧ (∀ (i : Fin 4) (j : Fin 32), p.endian = .be →
          (byteAt f (4 + 4 * i.val - j.val / 8)).getLsbD (j.val % 8) = (k.headerField i).getLsbD j.val)
      ∧ ∀ m < k.dataSize.toNat, byteAt f (17 + m) = k.body.getD m 0

/-- R141, for a payload of the stated length. That a length above `MAX_BODY` fails whatever the payload, also one of another
length, is the model's reading of the order of tests (assumption 7). -/
def Obligations.PktConstructResult : Prop :=
  ∀ (s : State) (pd : PktIdx) (len type rnd : Word) (data : Option (List Byte)), pd.val < s.pkts.length →
    ((data = none ∧ 0 < len.toNat) ∨ s.params.maxBody < len.toNat →
        exec (.pktConstruct pd len type rnd data) s
          = .next { s with pkts := s.pkts.set pd.val ⟨false, 0, 0, 0, 0, false, []⟩, rsp := some ⟨false, .ok, 0, []⟩ })
      ∧ (¬(data = none ∧ 0 < len.toNat) → len.toNat ≤ s.params.maxBody → payloadOk len data = true →
          exec (.pktConstruct pd len type rnd data) s
            = .next { s with
              pkts := s.pkts.set pd.val ⟨true, rnd, len, type, 0, decide (0 < len.toNat), data.getD []⟩
              rsp := some ⟨true, .ok, 0, []⟩ })

/-- R145: the four FAIL lines (three of them in states no command reaches) and the frame; no state change. The body is
assumed to hold `data_size` bytes, as R30 says a body does. -/
def Obligations.PktSerializeResult : Prop :=
  ∀ (s : State) (ps : PktIdx) (k : Packet), s.pkt ps = some k → k.dataSize.toNat ≤ k.body.length →
    ∃ t, exec (.pktSerialize ps) s = .next t
      ∧ (k.valid = false ∨ (0 < k.dataSize.toNat ∧ k.bodyValid = false) ∨ 2 ^ 32 - 1 < 18 + k.dataSize.toNat
            ∨ 18 + s.params.maxBody < 18 + k.dataSize.toNat →
          t = { s with rsp := some ⟨false, .ok, 0, []⟩ })
      ∧ (k.valid = true → (0 < k.dataSize.toNat → k.bodyValid = true) → 18 + k.dataSize.toNat ≤ 2 ^ 32 - 1 →
            k.dataSize.toNat ≤ s.params.maxBody →
          ∃ f : List Byte,
            f = [0x02] ++ enc32 s.params.endian k.id ++ enc32 s.params.endian k.dataSize ++ enc32 s.params.endian k.type
                ++ enc32 s.params.endian k.checksum ++ k.body.take k.dataSize.toNat ++ [0x04]
              ∧ t = { s with rsp := some ⟨true, .ok, BitVec.ofNat 32 (18 + k.dataSize.toNat), f⟩ })

/-- R151, for a payload of the stated length: the six failures and the packet of an accepted sequence. That a length below 18
fails whatever the payload, also one of another length, is the model's reading of the order of tests (assumption 7). -/
def Obligations.PktDeserializeResult : Prop :=
  ∀ (s : State) (pd : PktIdx) (len : Word) (bytes : Option (List Byte)), pd.val < s.pkts.length →
    (bytes = none ∨ len.toNat < 18 →
        exec (.pktDeserialize pd len bytes) s
          = .next { s with pkts := s.pkts.set pd.val .absent, rsp := some ⟨false, .ok, 0, []⟩ })
      ∧ ∀ f e ds, bytes = some f → f.length = len.toNat → e = s.params.endian → ds = (fieldAt e f 5).toNat →
          (byteAt f 0 ≠ 0x02 ∨ len.toNat < 18 + ds ∨ s.params.maxBody < ds ∨ byteAt f (17 + ds) ≠ 0x04 →
              exec (.pktDeserialize pd len bytes) s
                = .next { s with pkts := s.pkts.set pd.val .absent, rsp := some ⟨false, .ok, 0, []⟩ })
            ∧ (18 ≤ len.toNat → byteAt f 0 = 0x02 → 18 + ds ≤ len.toNat → ds ≤ s.params.maxBody → byteAt f (17 + ds) = 0x04 →
                exec (.pktDeserialize pd len bytes) s
                  = .next { s with
                    pkts := s.pkts.set pd.val ⟨true, fieldAt e f 1, fieldAt e f 5, fieldAt e f 9, fieldAt e f 13,
                      decide (0 < ds), (f.drop 17).take ds⟩
                    rsp := some ⟨true, .ok, 0, []⟩ })

/-- R155. -/
def Obligations.PktDestroyResult : Prop :=
  ∀ (s : State) (ps : PktIdx), ps.val < s.pkts.length →
    ∃ t, exec (.pktDestroy ps) s = .next t ∧ t.pkt ps = some ⟨false, 0, 0, 0, 0, false, []⟩
      ∧ t.rsp = some ⟨true, .ok, 0, []⟩ ∧ (s.pkt ps = some .absent → t = { s with rsp := some ⟨true, .ok, 0, []⟩ })

/-- R156: the round trip of the codec, every `data_size` and either byte order. -/
def Obligations.CodecRoundTrip : Prop :=
  ∀ (p : Params) (k : Packet), p.wf → k.Inv p → k.valid = true →
    ∃ f, serialize p k = .ok (some f) ∧ f.length = 18 + k.dataSize.toNat ∧ deserialize p f = some k

/-- R157: acceptance, the bytes that do not matter, and the changes that turn an accepted sequence into a rejected one. -/
def Obligations.AcceptanceAndCorruption : Prop :=
  (∀ (p : Params) (s : List Byte), (deserialize p s).isSome = true ↔
      18 ≤ s.length ∧ byteAt s 0 = 0x02 ∧ (fieldAt p.endian s 5).toNat ≤ s.length - 18
        ∧ (fieldAt p.endian s 5).toNat ≤ p.maxBody ∧ byteAt s (17 + (fieldAt p.endian s 5).toNat) = 0x04)
    ∧ ∀ (p : Params) (s : List Byte) (ds : Nat), ds = (fieldAt p.endian s 5).toNat → (deserialize p s).isSome = true →
      (∀ b, b ≠ 0x02 → deserialize p (s.set 0 b) = none)
        ∧ (∀ b, b ≠ 0x04 → deserialize p (s.set (17 + ds) b) = none)
        ∧ (∀ m, m < 18 + ds → deserialize p (s.take m) = none)
        ∧ (∀ j b, ((1 ≤ j ∧ j < 5) ∨ (9 ≤ j ∧ j < 17 + ds) ∨ 18 + ds ≤ j) → (deserialize p (s.set j b)).isSome = true)
        ∧ (∀ v : Word, s.length - 18 < v.toNat → deserialize p (s.take 5 ++ enc32 p.endian v ++ s.drop 9) = none)
        ∧ (∀ v : Word, v.toNat ≤ s.length - 18 → byteAt s (17 + v.toNat) ≠ 0x04 →
            deserialize p (s.take 5 ++ enc32 p.endian v ++ s.drop 9) = none)

/-- R56: a frame of a block with one byte order, read by a block with the other: accepted only if the byte-reversed size fits
and a terminator stands where it points, and then with every header field byte-reversed. -/
def Obligations.CrossEndianFieldsAreReversed : Prop :=
  ∀ (p : Params) (k : Packet) (f : List Byte) (ds : Nat), serialize p k = .ok (some f) → ds = (byteReversed k.dataSize).toNat →
    ((deserialize { p with endian := otherEndian p.endian } f).isSome = true ↔
        18 + ds ≤ f.length ∧ ds ≤ p.maxBody ∧ byteAt f (17 + ds) = 0x04)
      ∧ ∀ k', deserialize { p with endian := otherEndian p.endian } f = some k' →
          ∀ i, k'.headerField i = byteReversed (k.headerField i)

/-! ### Instance -/

/-- R170. -/
def Obligations.InstCreateResult : Prop :=
  ∀ (s : State) (config : Option EndpointCfg), ∃ t, exec (.instCreate config) s = .next t
    ∧ (config = none → t = { s with rsp := some ⟨false, .ok, 0, []⟩ })
    ∧ ∀ c, config = some c →
        (c.bufferSize.toNat = 0 ∨ s.params.maxCap < c.bufferSize.toNat → t = { s with rsp := some ⟨false, .ok, 0, []⟩ })
          ∧ (1 ≤ c.bufferSize.toNat → c.bufferSize.toNat ≤ s.params.maxCap →
              (t.cfg = c ∧ t.instLive = true ∧ t.rsp = some ⟨true, .ok, 0, []⟩ ∧ t.pkts = s.pkts)
                ∧ ∀ sel, ((t.buf sel).live = true ∧ (t.buf sel).cap = c.bufferSize
                    ∧ (t.buf sel).head = 0 ∧ (t.buf sel).tail = 0) ∧ ∀ a, (t.buf sel).region.read a = 0)

/-- R171. -/
def Obligations.InstCloseResult : Prop :=
  ∀ s : State, ∃ t, exec .instClose s = .next t ∧ t.rsp = some ⟨true, .ok, 0, []⟩ ∧ t.pkts = s.pkts
    ∧ (s.instLive = true →
        t.instLive = false ∧ t.cfg = ⟨0, 0, 0, 0, 0, 0⟩ ∧ ∀ sel, t.buf sel = ⟨false, 0, 0, 0, ⟨[]⟩⟩)
    ∧ (s.instLive = false → t = { s with rsp := some ⟨true, .ok, 0, []⟩ })

/-- R24: while the instance is live and no BUF_CREATE or BUF_DESTROY is issued, both units are live at the configured
capacity. -/
def Obligations.UnitsStayPairedWithInstance : Prop :=
  ∀ (s t : State) (i : Instr), s.Paired → (∀ sel cap, i ≠ .bufCreate sel cap) → (∀ sel, i ≠ .bufDestroy sel) →
    exec i s = .next t → t.Paired

/-! ### I/O Facade -/

/-- R180, in the order of its tests: absent arguments, serialization, capacity, the Byte Buffer write and its
re-verification. -/
def Obligations.WritePacketResult : Prop :=
  ∀ (s : State) (ps : PktIdx) (k : Packet) (r : Option (List Byte)),
    s.bufOut.Inv s.params → s.pkt ps = some k → serialize s.params k = .ok r →
      ∃ t, exec (.writePacket ps) s = .next t
        ∧ (s.instLive = false ∨ k.valid = false ∨ s.bufOut.live = false →
            t = { s with rsp := some ⟨false, .undefined, 0, []⟩ })
        ∧ (s.instLive = true → k.valid = true → s.bufOut.live = true →
            (r = none → t = { s with rsp := some ⟨false, .invalidPacket, 0, []⟩ })
              ∧ ∀ f, r = some f →
                  (s.bufOut.cap.toNat ≤ f.length → t = { s with rsp := some ⟨false, .bufferFailure, 0, []⟩ })
                    ∧ (f.length < s.bufOut.cap.toNat →
                        ∃ u, exec (.bufWrite .output (BitVec.ofNat 32 f.length) (some f)) s = .next u
                          ∧ t = { u with rsp := some ⟨true, .ok, 0, []⟩ }))

/-- R181: absent or empty, or the whole of `IN` consumed and parsed; the bytes of the region stay. -/
def Obligations.ReadPacketResult : Prop :=
  ∀ (s : State) (pd : PktIdx), s.Inv → pd.val < s.pkts.length →
    ∃ t, exec (.readPacket pd) s = .next t
      ∧ (s.instLive = false ∨ s.bufIn.live = false ∨ s.bufIn.tail = s.bufIn.head →
          t = { s with pkts := s.pkts.set pd.val .absent, rsp := some ⟨false, .ok, 0, []⟩ })
      ∧ (s.instLive = true → s.bufIn.live = true → s.bufIn.tail ≠ s.bufIn.head →
          t = { s with
            bufIn := { s.bufIn with tail := s.bufIn.head }
            pkts := s.pkts.set pd.val ((deserialize s.params s.bufIn.contents).getD .absent)
            rsp := some ⟨(deserialize s.params s.bufIn.contents).isSome, .ok, 0, []⟩ })

/-- R224 with R180: in an endpoint just created with `buffer_size` B, a valid packet is written exactly when its body is at
most B - 19 bytes. -/
def Obligations.EndpointSizeBoundsTheBody : Prop :=
  ∀ (s : State) (c : EndpointCfg) (ps : PktIdx) (k : Packet), s.Inv → s.pkt ps = some k → k.valid = true →
    1 ≤ c.bufferSize.toNat → c.bufferSize.toNat ≤ s.params.maxCap →
      ∃ t u r, exec (.instCreate (some c)) s = .next t ∧ exec (.writePacket ps) t = .next u ∧ u.rsp = some r
        ∧ (r.status = .ok ↔ k.dataSize.toNat + 19 ≤ c.bufferSize.toNat)

/-- The source's endpoint scenario (S7), in general: the frame of a valid packet, fed to an empty live `IN` it fits, is
returned by READ_PACKET as the same packet, and `IN` is empty again. -/
def Obligations.FedFrameIsReadBack : Prop :=
  ∀ (s : State) (pd : PktIdx) (k : Packet) (f : List Byte), s.Inv → pd.val < s.pkts.length → s.instLive = true →
    s.bufIn.live = true → s.bufIn.tail = s.bufIn.head → k.Inv s.params → serialize s.params k = .ok (some f) →
      f.length < s.bufIn.cap.toNat →
        ∃ t u, exec (.bufWrite .input (BitVec.ofNat 32 f.length) (some f)) s = .next t
          ∧ exec (.readPacket pd) t = .next u
          ∧ u.pkt pd = some k ∧ u.bufIn.tail = u.bufIn.head ∧ u.rsp = some ⟨true, .ok, 0, []⟩

/-! ### Failures and responses -/

/-- R92. -/
def Obligations.StatusCodes : Prop :=
  (Status.ok.value = 0 ∧ Status.invalidConnection.value = -1 ∧ Status.invalidPacket.value = -2
      ∧ Status.bufferFailure.value = -3 ∧ Status.undefined.value = -4)
    ∧ (Status.ok.code = 0x00 ∧ Status.invalidConnection.code = 0xFF ∧ Status.invalidPacket.code = 0xFE
      ∧ Status.bufferFailure.code = 0xFD ∧ Status.undefined.code = 0xFC)

/-- R201, R202: a failing command writes ABSENT to its destination register, if it has one, and changes nothing else but the
response; READ_PACKET has also emptied `IN`, unless it failed before it read: on a register the block does not have, without
an instance or a live `IN`, or on an empty one. -/
def Obligations.FailureChangesOnlyDestination : Prop :=
  ∀ (s t : State) (i : Instr) (r : Response), exec i s = .next t → t.rsp = some r → r.ok = false →
    match i with
    | .pktConstruct pd _ _ _ _ => t = { s with pkts := s.pkts.set pd.val .absent, rsp := some r }
    | .pktDeserialize pd _ _ => t = { s with pkts := s.pkts.set pd.val .absent, rsp := some r }
    | .readPacket pd =>
      (s.pkts.length ≤ pd.val ∨ s.instLive = false ∨ s.bufIn.live = false ∨ s.bufIn.tail = s.bufIn.head →
          t = { s with pkts := s.pkts.set pd.val .absent, rsp := some r })
        ∧ (pd.val < s.pkts.length → s.instLive = true → s.bufIn.live = true → s.bufIn.tail ≠ s.bufIn.head →
          t = { s with
            bufIn := { s.bufIn with tail := s.bufIn.head }, pkts := s.pkts.set pd.val .absent, rsp := some r })
    | _ => t = { s with rsp := some r }

/-- R194, R195: no command returns INVALID_CONNECTION, and every legal command but WRITE_PACKET returns OK whatever its
outcome. -/
def Obligations.StatusOnlyFromWritePacket : Prop :=
  ∀ (s t : State) (i : Instr) (r : Response), s.pkts.length = s.params.nPkt → exec i s = .next t → t.rsp = some r →
    r.status ≠ .invalidConnection
      ∧ (i.indexOk s.params = true → (∀ ps, i ≠ .writePacket ps) → r.status = .ok)
      ∧ (∀ ps, i = .writePacket ps → (r.ok = true ↔ r.status = .ok))

/-- R90: which commands return a count and which return bytes. -/
def Obligations.ResponseShape : Prop :=
  ∀ (s t : State) (i : Instr) (r : Response), s.Inv → exec i s = .next t → t.rsp = some r →
    match i with
    | .bufUsed _ => r.data = []
    | .bufWrite _ _ _ => r.data = [] ∧ (r.ok = true ↔ 0 < r.count.toNat)
    | .bufReadFull _ _ _ => r.data.length = r.count.toNat ∧ (r.ok = true ↔ 0 < r.count.toNat)
    | .bufReadPartial _ _ _ => r.data.length = r.count.toNat ∧ (r.ok = true ↔ 0 < r.count.toNat)
    | .bufReadPeek _ _ _ => r.data.length = r.count.toNat ∧ (r.ok = true ↔ 0 < r.count.toNat)
    | .pktSerialize _ => r.data.length = r.count.toNat ∧ (r.ok = true ↔ 0 < r.count.toNat)
    | _ => r.count = 0 ∧ r.data = []

/-- The answers right after reset, as 70_reset_and_hazards.md section 1 infers them: what fails, the destroy and close
commands as no-ops, and that BUF_CREATE, INST_CREATE, PKT_CONSTRUCT and PKT_DESERIALIZE succeed on operands in range. -/
def Obligations.AnswersAfterReset : Prop :=
  ∀ (p : Params) (s : State), s = State.resetWith p →
    (∀ i, (∃ sel, i = .bufUsed sel ∨ i = .bufClear sel) ∨ (∃ sel len src, i = .bufWrite sel len src)
          ∨ (∃ sel len dst, i = .bufReadFull sel len dst ∨ i = .bufReadPartial sel len dst ∨ i = .bufReadPeek sel len dst)
          ∨ (∃ x : PktIdx, x.val < p.nPkt ∧ (i = .pktSerialize x ∨ i = .readPacket x)) →
        exec i s = .next { s with rsp := some ⟨false, .ok, 0, []⟩ })
      ∧ (∀ ps : PktIdx, ps.val < p.nPkt → exec (.writePacket ps) s = .next { s with rsp := some ⟨false, .undefined, 0, []⟩ })
      ∧ (∀ i, i = .instClose ∨ (∃ sel, i = .bufDestroy sel) ∨ (∃ x : PktIdx, x.val < p.nPkt ∧ i = .pktDestroy x) →
          exec i s = .next { s with rsp := some ⟨true, .ok, 0, []⟩ })
      ∧ ∀ i, (∃ sel cap, cap.toNat ≤ p.maxCap ∧ i = .bufCreate sel cap)
            ∨ (∃ c, 1 ≤ c.bufferSize.toNat ∧ c.bufferSize.toNat ≤ p.maxCap ∧ i = .instCreate (some c))
            ∨ (∃ (x : PktIdx) (len type rnd : Word) (data : List Byte), x.val < p.nPkt ∧ len.toNat ≤ p.maxBody
                ∧ data.length = len.toNat ∧ i = .pktConstruct x len type rnd (some data))
            ∨ (∃ (x : PktIdx) (len : Word) (f : List Byte), x.val < p.nPkt ∧ f.length = len.toNat
                ∧ (deserialize p f).isSome = true ∧ i = .pktDeserialize x len (some f)) →
          ∃ t, exec i s = .next t ∧ t.rsp = some ⟨true, .ok, 0, []⟩

/-! ### Frames -/

/-- Frame of BUF_USED, BUF_READ.PEEK and PKT_SERIALIZE: nothing but the response changes. -/
def Obligations.ReadOnlyCommandsFrame : Prop :=
  ∀ (s t : State) (i : Instr), exec i s = .next t →
    ((∃ sel, i = .bufUsed sel) ∨ (∃ sel len dst, i = .bufReadPeek sel len dst) ∨ (∃ ps, i = .pktSerialize ps)) →
      t = { s with rsp := t.rsp }

/-- Frame of the six commands that write a unit: the other unit, `CFG`, `INST`, every packet register, the constants and the
inputs are unchanged; BUF_WRITE, BUF_READ and BUF_CLEAR leave the unit's `live` and `cap`, and all but an overwriting
BUF_WRITE its `head`. -/
def Obligations.BufferCommandsFrame : Prop :=
  ∀ (s t : State) (sel : Sel) (i : Instr), exec i s = .next t →
    ((∃ cap, i = .bufCreate sel cap) ∨ i = .bufDestroy sel ∨ (∃ len src, i = .bufWrite sel len src)
        ∨ (∃ len dst, i = .bufReadFull sel len dst) ∨ (∃ len dst, i = .bufReadPartial sel len dst) ∨ i = .bufClear sel) →
      (t.buf (otherUnit sel) = s.buf (otherUnit sel) ∧ t.cfg = s.cfg ∧ t.instLive = s.instLive ∧ t.pkts = s.pkts
          ∧ t.params = s.params ∧ t.inputs = s.inputs)
        ∧ ((∀ cap, i ≠ .bufCreate sel cap) → i ≠ .bufDestroy sel →
            (t.buf sel).live = (s.buf sel).live ∧ (t.buf sel).cap = (s.buf sel).cap
              ∧ ((∀ len src, i = .bufWrite sel len src → (s.buf sel).overwrites len.toNat = false) →
                  (t.buf sel).head = (s.buf sel).head))

/-- Frame of the region bytes: BUF_WRITE stores `len` bytes from the offset its meaning computes, `BufUnit.writeOffset`, and
zeroes the used range when it overwrites; BUF_READ.PARTIAL stores `used - eff` bytes from offset 0; BUF_CLEAR zeroes the used
range; BUF_READ.PEEK and BUF_USED store nothing. Every other byte of the region reads as before. -/
def Obligations.RegionBytesFrame : Prop :=
  ∀ (s t : State) (sel : Sel) (i : Instr) (a : Nat), s.Inv → exec i s = .next t →
    (∀ len src, i = .bufWrite sel len src →
        ¬((s.buf sel).writeOffset len.toNat ≤ a ∧ a < (s.buf sel).writeOffset len.toNat + len.toNat) →
        ¬((s.buf sel).overwrites len.toNat = true ∧ (s.buf sel).head.toNat ≤ a ∧ a < (s.buf sel).tail.toNat) →
          (t.buf sel).region.read a = (s.buf sel).region.read a)
      ∧ (∀ len dst, i = .bufReadPartial sel len dst →
          (s.buf sel).tail.toNat - (s.buf sel).head.toNat - len.toNat ≤ a →
            (t.buf sel).region.read a = (s.buf sel).region.read a)
      ∧ (i = .bufClear sel → ¬((s.buf sel).head.toNat ≤ a ∧ a < (s.buf sel).tail.toNat) →
          (t.buf sel).region.read a = (s.buf sel).region.read a)
      ∧ ((∃ len dst, i = .bufReadPeek sel len dst) ∨ i = .bufUsed sel →
          (t.buf sel).region.read a = (s.buf sel).region.read a)

/-- Frame of PKT_CONSTRUCT, PKT_DESERIALIZE and PKT_DESTROY: every other register and everything else is unchanged. -/
def Obligations.PacketCommandsFrame : Prop :=
  ∀ (s t : State) (x : PktIdx) (i : Instr), exec i s = .next t →
    ((∃ len type rnd data, i = .pktConstruct x len type rnd data) ∨ (∃ len bytes, i = .pktDeserialize x len bytes)
        ∨ i = .pktDestroy x) →
      t = { s with pkts := t.pkts, rsp := t.rsp } ∧ t.pkts.length = s.pkts.length ∧ ∀ j, j ≠ x → t.pkt j = s.pkt j

/-- Frame of INST_CREATE and INST_CLOSE: no packet register is touched (R170, R171, R226). -/
def Obligations.InstanceCommandsFrame : Prop :=
  ∀ (s t : State) (i : Instr), exec i s = .next t → (∃ config, i = .instCreate config) ∨ i = .instClose →
    t.pkts = s.pkts ∧ t.params = s.params ∧ t.inputs = s.inputs

/-- Frame of WRITE_PACKET (R180, R239): the packet stays, `IN` and everything else too; of `OUT` only `head`, `tail` and the
region bytes that the Byte Buffer write of the frame stores may change. -/
def Obligations.WritePacketFrame : Prop :=
  ∀ (s t : State) (ps : PktIdx) (k : Packet), s.Inv → s.pkt ps = some k → exec (.writePacket ps) s = .next t →
    t = { s with bufOut := t.bufOut, rsp := t.rsp } ∧ t.bufOut.live = s.bufOut.live ∧ t.bufOut.cap = s.bufOut.cap
      ∧ ∀ n, n = 18 + k.dataSize.toNat → ∀ a,
          ¬(s.bufOut.writeOffset n ≤ a ∧ a < s.bufOut.writeOffset n + n) →
          ¬(s.bufOut.overwrites n = true ∧ s.bufOut.head.toNat ≤ a ∧ a < s.bufOut.tail.toNat) →
            t.bufOut.region.read a = s.bufOut.region.read a

/-- Frame of READ_PACKET (R181): of `IN` only `tail` may change, of the packet registers only the destination. -/
def Obligations.ReadPacketFrame : Prop :=
  ∀ (s t : State) (pd : PktIdx), exec (.readPacket pd) s = .next t →
    t = { s with bufIn := { s.bufIn with tail := t.bufIn.tail }, pkts := t.pkts, rsp := t.rsp }
      ∧ t.pkts.length = s.pkts.length ∧ ∀ j, j ≠ pd → t.pkt j = s.pkt j

/-! ### Whole-machine rules -/

/-- R23: INST_CREATE copies its six words into `CFG`, INST_CLOSE clears it, no other command writes it, and no command's
result depends on it. -/
def Obligations.ConfigurationIsNeverRead : Prop :=
  ∀ (s t : State) (i : Instr), exec i s = .next t →
    ((∀ config, i ≠ .instCreate config) → i ≠ .instClose → t.cfg = s.cfg)
      ∧ (∀ config, i = .instCreate config → t.cfg = s.cfg ∨ config = some t.cfg)
      ∧ (i = .instClose → s.instLive = true → t.cfg = .zero)
      ∧ ∀ c : EndpointCfg, ∃ t', exec i { s with cfg := c } = .next t' ∧ { t' with cfg := t.cfg } = t

/-- R64, R55: no command changes what the block will execute or the constants of the block; in particular writing bytes into
a region has no effect on it. -/
def Obligations.CommandsNeverTouchInputs : Prop :=
  ∀ (s t : State) (i : Instr), exec i s = .next t → t.inputs = s.inputs ∧ t.params = s.params

/-- R39: two states that agree on everything but region bytes at and above `tail` stay so under the same step, so every
response and every packet register is the same for ever after. -/
def Obligations.BytesAboveTailAreUnobservable : Prop :=
  ∀ s₁ s₂ t₁ : State, s₁.Inv → s₂.Inv → s₁.SameVisible s₂ → step s₁ = .next t₁ →
    ∃ t₂, step s₂ = .next t₂ ∧ t₁.SameVisible t₂ ∧ t₁.observed = t₂.observed
end

