-- ==== Sys2Proof/Laws/Memory.lean ====
section
/-! SUPPORT. The byte store: a read after a write, what a write leaves alone, and that every operation keeps the canonical
form. -/

namespace Sys2Proof.Machine

theorem readCells_of_lt_all {l : List Host.Cell} {a : Nat} (h : ∀ c ∈ l, a < c.1) : readCells l a = Memory.unlisted := by
  induction l with
  | nil => rfl
  | cons c rest ih =>
    obtain ⟨k, x⟩ := c
    have hk : a < k := h _ (List.mem_cons_self ..)
    simp only [readCells, if_neg (show k ≠ a by omega)]
    exact ih fun c hc => h c (List.mem_cons_of_mem _ hc)

theorem readCells_consCell (a : Nat) (v : Byte) (rest : List Host.Cell) (h : ∀ c ∈ rest, a < c.1) (b : Nat) :
    readCells (consCell a v rest) b = if b = a then v else readCells rest b := by
  unfold consCell
  split
  · next hv =>
    split
    · next hb => rw [hb, readCells_of_lt_all h, hv]
    · rfl
  · simp only [readCells, eq_comm]

theorem readCells_writeCells {l : List Host.Cell} (hl : l.Pairwise fun x y => x.1 < y.1) (a : Nat) (v : Byte) (b : Nat) :
    readCells (writeCells l a v) b = if b = a then v else readCells l b := by
  induction l with
  | nil => exact readCells_consCell a v [] (by simp) b
  | cons c rest ih =>
    obtain ⟨k, x⟩ := c
    obtain ⟨hk, hrest⟩ := List.pairwise_cons.mp hl
    simp only [writeCells]
    split
    · next hak =>
      exact readCells_consCell a v _ (by
        intro c hc
        rcases List.mem_cons.mp hc with rfl | hc
        · exact hak
        · exact lt_trans hak (hk c hc)) b
    · split
      · next hak =>
        subst hak
        rw [readCells_consCell a v rest hk b]
        simp only [readCells]
        split
        · rfl
        · next hb => rw [if_neg fun e => hb e.symm]
      · next hlt hne =>
        simp only [readCells, ih hrest]
        split
        · next hb => rw [if_neg (by omega)]
        · rfl

/-- A read after a write. -/
theorem Memory.read_write {m : Memory} (hm : m.wf) (a : Nat) (v : Byte) (b : Nat) :
    (m.write a v).read b = if b = a then v else m.read b :=
  readCells_writeCells hm.1 a v b

@[simp] theorem Memory.read_blank (a : Nat) : Memory.blank.read a = 0 := rfl

theorem Memory.blank_wf : Memory.blank.wf := by decide

theorem mem_consCell {a : Nat} {v : Byte} {rest : List Host.Cell} {c : Host.Cell} (h : c ∈ consCell a v rest) :
    (c = (a, v) ∧ v ≠ Memory.unlisted) ∨ c ∈ rest := by
  unfold consCell at h
  split at h
  · exact .inr h
  · next hv =>
    rcases List.mem_cons.mp h with rfl | h
    · exact .inl ⟨rfl, hv⟩
    · exact .inr h

/-- A cell of a written store is the new one or an old one. -/
theorem mem_writeCells {l : List Host.Cell} {a : Nat} {v : Byte} {c : Host.Cell} (h : c ∈ writeCells l a v) :
    (c = (a, v) ∧ v ≠ Memory.unlisted) ∨ c ∈ l := by
  induction l with
  | nil => exact mem_consCell h
  | cons d rest ih =>
    obtain ⟨k, x⟩ := d
    simp only [writeCells] at h
    split at h
    · exact mem_consCell h
    · split at h
      · exact (mem_consCell h).imp_right (List.mem_cons_of_mem _)
      · rcases List.mem_cons.mp h with rfl | h
        · exact .inr (List.mem_cons_self ..)
        · exact (ih h).imp_right (List.mem_cons_of_mem _)

theorem pairwise_consCell {a : Nat} {v : Byte} {rest : List Host.Cell} (h : ∀ c ∈ rest, a < c.1)
    (hr : rest.Pairwise fun x y => x.1 < y.1) : (consCell a v rest).Pairwise fun x y => x.1 < y.1 := by
  unfold consCell
  split
  · exact hr
  · exact List.pairwise_cons.mpr ⟨h, hr⟩

theorem pairwise_writeCells {l : List Host.Cell} (hl : l.Pairwise fun x y => x.1 < y.1) (a : Nat) (v : Byte) :
    (writeCells l a v).Pairwise fun x y => x.1 < y.1 := by
  induction l with
  | nil => exact pairwise_consCell (by simp) .nil
  | cons c rest ih =>
    obtain ⟨k, x⟩ := c
    obtain ⟨hk, hrest⟩ := List.pairwise_cons.mp hl
    simp only [writeCells]
    split
    · next hak =>
      refine pairwise_consCell (fun c hc => ?_) hl
      rcases List.mem_cons.mp hc with rfl | hc
      · exact hak
      · exact lt_trans hak (hk c hc)
    · split
      · next hak => exact pairwise_consCell (hak ▸ hk) hrest
      · refine List.pairwise_cons.mpr ⟨fun c hc => ?_, ih hrest⟩
        rcases mem_writeCells hc with ⟨rfl, -⟩ | hc
        · show k < a
          omega
        · exact hk c hc

/-- Storing a byte keeps the canonical form. -/
theorem Memory.write_wf {m : Memory} (hm : m.wf) (a : Nat) (v : Byte) : (m.write a v).wf :=
  ⟨pairwise_writeCells hm.1 a v, fun c hc => by
    rcases mem_writeCells hc with ⟨rfl, hv⟩ | hc
    · exact hv
    · exact hm.2 c hc⟩

/-- Storing a byte sequence keeps the canonical form. -/
theorem Memory.writeBytes_wf {m : Memory} (hm : m.wf) (off : Nat) (v : List Byte) : (m.writeBytes off v).wf := by
  induction v generalizing m off with
  | nil => exact hm
  | cons x rest ih => exact ih (Memory.write_wf hm off x) _

/-- Zeroing keeps the canonical form. -/
theorem Memory.zero_wf {m : Memory} (hm : m.wf) (lo hi : Nat) : (m.zero lo hi).wf :=
  ⟨hm.1.filter _, fun c hc => hm.2 c (List.mem_filter.mp hc).1⟩

/-- A stored byte sequence lists no offset at or beyond a bound that its last byte is below. -/
theorem Memory.writeBytes_lt {m : Memory} {n : Nat} (hm : ∀ c ∈ m.cells, c.1 < n) {off : Nat} {v : List Byte}
    (h : off + v.length ≤ n) : ∀ c ∈ (m.writeBytes off v).cells, c.1 < n := by
  induction v generalizing m off with
  | nil => exact hm
  | cons x rest ih =>
    simp only [List.length_cons] at h
    refine ih (m := m.write off x) (fun c hc => ?_) (by omega)
    rcases mem_writeCells hc with ⟨rfl, -⟩ | hc
    · show off < n
      omega
    · exact hm c hc

theorem Memory.zero_lt {m : Memory} {n : Nat} (hm : ∀ c ∈ m.cells, c.1 < n) (lo hi : Nat) :
    ∀ c ∈ (m.zero lo hi).cells, c.1 < n :=
  fun c hc => hm c (List.mem_filter.mp hc).1

/-- What a store reads as after a byte sequence was stored. -/
theorem Memory.read_writeBytes {m : Memory} (hm : m.wf) (off : Nat) (v : List Byte) (a : Nat) :
    (m.writeBytes off v).read a = if off ≤ a ∧ a < off + v.length then v.getD (a - off) 0 else m.read a := by
  induction v generalizing m off with
  | nil =>
    simp only [writeBytes, List.length_nil, Nat.add_zero]
    rw [if_neg (by omega)]
  | cons x rest ih =>
    simp only [writeBytes, ih (Memory.write_wf hm off x), Memory.read_write hm, List.length_cons]
    by_cases h1 : a = off
    · subst h1
      simp
    · by_cases h2 : off + 1 ≤ a ∧ a < off + 1 + rest.length
      · rw [if_pos h2, if_pos (by omega)]
        have : a - off = (a - (off + 1)) + 1 := by omega
        rw [this, List.getD_cons_succ]
      · rw [if_neg h2, if_neg h1, if_neg (by omega)]

theorem readCells_filter (l : List Host.Cell) (lo hi a : Nat) :
    readCells (l.filter fun c => decide (c.1 < lo) || decide (hi ≤ c.1)) a
      = if lo ≤ a ∧ a < hi then Memory.unlisted else readCells l a := by
  induction l with
  | nil => simp [readCells]
  | cons c rest ih =>
    obtain ⟨k, x⟩ := c
    by_cases hk : (decide (k < lo) || decide (hi ≤ k)) = true
    · rw [List.filter_cons_of_pos (by simpa using hk)]
      simp only [readCells, ih]
      simp only [Bool.or_eq_true, decide_eq_true_eq] at hk
      by_cases hka : k = a
      · rw [if_pos hka, if_neg (by omega), if_pos hka]
      · rw [if_neg hka, if_neg hka]
    · rw [List.filter_cons_of_neg (by simpa using hk), ih]
      simp only [Bool.or_eq_true, decide_eq_true_eq] at hk
      simp only [readCells]
      by_cases hka : k = a
      · rw [if_pos (by omega), if_pos (by omega)]
      · rw [if_neg hka]

/-- What a store reads as after zeroing. -/
theorem Memory.read_zero (m : Memory) (lo hi a : Nat) :
    (m.zero lo hi).read a = if lo ≤ a ∧ a < hi then 0 else m.read a :=
  readCells_filter m.cells lo hi a

@[simp] theorem Memory.length_readBytes (m : Memory) (off n : Nat) : (m.readBytes off n).length = n := by
  simp [Memory.readBytes]

/-- Byte `i` of a read. -/
theorem Memory.getElem?_readBytes (m : Memory) (off n i : Nat) :
    (m.readBytes off n)[i]? = if i < n then some (m.read (off + i)) else none := by
  by_cases h : i < n
  · simp [Memory.readBytes, h]
  · simp [Memory.readBytes, h]

theorem Memory.getD_readBytes (m : Memory) (off n i : Nat) (h : i < n) : (m.readBytes off n).getD i 0 = m.read (off + i) := by
  rw [List.getD_eq_getElem?_getD, Memory.getElem?_readBytes, if_pos h, Option.getD_some]

/-- A read depends on the bytes it reads only. -/
theorem Memory.readBytes_congr {m m' : Memory} {off n : Nat} (h : ∀ i < n, m.read (off + i) = m'.read (off + i)) :
    m.readBytes off n = m'.readBytes off n := by
  apply List.ext_getElem?
  intro i
  rw [Memory.getElem?_readBytes, Memory.getElem?_readBytes]
  split
  · next hi => rw [h i hi]
  · rfl

/-- Reading back the bytes just stored. -/
theorem Memory.readBytes_writeBytes {m : Memory} (hm : m.wf) (off : Nat) (v : List Byte) :
    (m.writeBytes off v).readBytes off v.length = v := by
  apply List.ext_getElem?
  intro i
  rw [Memory.getElem?_readBytes]
  split
  · next hi =>
    rw [Memory.read_writeBytes hm, if_pos (by omega)]
    simp [List.getD_eq_getElem?_getD, hi]
  · next hi => rw [List.getElem?_eq_none (by omega)]

/-- A read in two parts. -/
theorem Memory.readBytes_append (m : Memory) (off a b : Nat) :
    m.readBytes off (a + b) = m.readBytes off a ++ m.readBytes (off + a) b := by
  simp only [Memory.readBytes, ← List.map_append]
  rw [List.range'_append_1]

theorem readCells_of_mem {l : List Host.Cell} (hl : l.Pairwise fun x y => x.1 < y.1) {k : Nat} {x : Byte} (h : (k, x) ∈ l) :
    readCells l k = x := by
  induction l with
  | nil => cases h
  | cons c rest ih =>
    obtain ⟨hk, hrest⟩ := List.pairwise_cons.mp hl
    rcases List.mem_cons.mp h with rfl | h
    · simp [readCells]
    · have := hk _ h
      simp only [readCells, if_neg (show c.1 ≠ k from fun e => by simp only [e] at this; omega), ih hrest h]

theorem mem_of_readCells_ne {l : List Host.Cell} {k : Nat} (h : readCells l k ≠ Memory.unlisted) : (k, readCells l k) ∈ l := by
  induction l with
  | nil => exact absurd rfl h
  | cons c rest ih =>
    obtain ⟨j, x⟩ := c
    simp only [readCells] at h ⊢
    split
    · next e => subst e; exact List.mem_cons_self ..
    · next e =>
      rw [if_neg e] at h
      exact List.mem_cons_of_mem _ (ih h)

/-- Equal memories are equal data. -/
theorem Memory.ext_read {m m' : Memory} (hm : m.wf) (hm' : m'.wf) (h : ∀ a, m.read a = m'.read a) : m = m' := by
  obtain ⟨l⟩ := m
  obtain ⟨l'⟩ := m'
  have key : ∀ {a b : List Host.Cell}, (Memory.mk a).wf → (Memory.mk b).wf → (∀ i, readCells a i = readCells b i) → a ⊆ b := by
    intro a b ha hb e c hc
    obtain ⟨k, x⟩ := c
    have h1 := readCells_of_mem ha.1 hc
    have h2 : readCells b k ≠ Memory.unlisted := by rw [← e, h1]; exact ha.2 _ hc
    have h3 := mem_of_readCells_ne h2
    rwa [← e, h1] at h3
  have nodup : ∀ {a : List Host.Cell}, a.Pairwise (fun x y => x.1 < y.1) → a.Nodup :=
    fun ha => ha.imp fun {x y} hxy e => by simp only [e] at hxy; omega
  have hp : l.Perm l' := (List.perm_ext_iff_of_nodup (nodup hm.1) (nodup hm'.1)).mpr
    fun c => ⟨fun hc => key hm hm' h hc, fun hc => key hm' hm (fun i => (h i).symm) hc⟩
  exact congrArg _ (hp.eq_of_pairwise (fun x y _ _ h1 h2 => by omega) hm.1 hm'.1)

end Sys2Proof.Machine
end

