-- ==== Sys2Proof/Laws/State.lean ====
section
/-! SUPPORT. One lemma per field per state update, so that later proofs unfold no record update. -/

namespace Sys2Proof.Machine

variable (s : State)

/-! ### `respond` -/

@[simp] theorem State.respond_params (r : Response) : (s.respond r).params = s.params := rfl
@[simp] theorem State.respond_cfg (r : Response) : (s.respond r).cfg = s.cfg := rfl
@[simp] theorem State.respond_instLive (r : Response) : (s.respond r).instLive = s.instLive := rfl
@[simp] theorem State.respond_bufIn (r : Response) : (s.respond r).bufIn = s.bufIn := rfl
@[simp] theorem State.respond_bufOut (r : Response) : (s.respond r).bufOut = s.bufOut := rfl
@[simp] theorem State.respond_pkts (r : Response) : (s.respond r).pkts = s.pkts := rfl
@[simp] theorem State.respond_rsp (r : Response) : (s.respond r).rsp = some r := rfl
@[simp] theorem State.respond_inputs (r : Response) : (s.respond r).inputs = s.inputs := rfl

/-! ### `setPkt` -/

@[simp] theorem State.setPkt_params (i : PktIdx) (k : Packet) : (s.setPkt i k).params = s.params := rfl
@[simp] theorem State.setPkt_cfg (i : PktIdx) (k : Packet) : (s.setPkt i k).cfg = s.cfg := rfl
@[simp] theorem State.setPkt_instLive (i : PktIdx) (k : Packet) : (s.setPkt i k).instLive = s.instLive := rfl
@[simp] theorem State.setPkt_bufIn (i : PktIdx) (k : Packet) : (s.setPkt i k).bufIn = s.bufIn := rfl
@[simp] theorem State.setPkt_bufOut (i : PktIdx) (k : Packet) : (s.setPkt i k).bufOut = s.bufOut := rfl
@[simp] theorem State.setPkt_pkts (i : PktIdx) (k : Packet) : (s.setPkt i k).pkts = s.pkts.set i.val k := rfl
@[simp] theorem State.setPkt_rsp (i : PktIdx) (k : Packet) : (s.setPkt i k).rsp = s.rsp := rfl
@[simp] theorem State.setPkt_inputs (i : PktIdx) (k : Packet) : (s.setPkt i k).inputs = s.inputs := rfl

/-! ### `setBuf` -/

@[simp] theorem State.setBuf_params (sel : Sel) (b : BufUnit) : (s.setBuf sel b).params = s.params := by cases sel <;> rfl
@[simp] theorem State.setBuf_cfg (sel : Sel) (b : BufUnit) : (s.setBuf sel b).cfg = s.cfg := by cases sel <;> rfl
@[simp] theorem State.setBuf_instLive (sel : Sel) (b : BufUnit) : (s.setBuf sel b).instLive = s.instLive := by cases sel <;> rfl
@[simp] theorem State.setBuf_pkts (sel : Sel) (b : BufUnit) : (s.setBuf sel b).pkts = s.pkts := by cases sel <;> rfl
@[simp] theorem State.setBuf_rsp (sel : Sel) (b : BufUnit) : (s.setBuf sel b).rsp = s.rsp := by cases sel <;> rfl
@[simp] theorem State.setBuf_inputs (sel : Sel) (b : BufUnit) : (s.setBuf sel b).inputs = s.inputs := by cases sel <;> rfl
@[simp] theorem State.setBuf_input_bufIn (b : BufUnit) : (s.setBuf .input b).bufIn = b := rfl
@[simp] theorem State.setBuf_input_bufOut (b : BufUnit) : (s.setBuf .input b).bufOut = s.bufOut := rfl
@[simp] theorem State.setBuf_output_bufOut (b : BufUnit) : (s.setBuf .output b).bufOut = b := rfl
@[simp] theorem State.setBuf_output_bufIn (b : BufUnit) : (s.setBuf .output b).bufIn = s.bufIn := rfl

@[simp] theorem State.buf_input : s.buf .input = s.bufIn := rfl
@[simp] theorem State.buf_output : s.buf .output = s.bufOut := rfl
@[simp] theorem State.setBuf_buf (sel : Sel) (b : BufUnit) : (s.setBuf sel b).buf sel = b := by cases sel <;> rfl
@[simp] theorem State.respond_buf (r : Response) (sel : Sel) : (s.respond r).buf sel = s.buf sel := by cases sel <;> rfl
@[simp] theorem State.setPkt_buf (i : PktIdx) (k : Packet) (sel : Sel) : (s.setPkt i k).buf sel = s.buf sel := by
  cases sel <;> rfl

/-- Writing one unit leaves the other alone. -/
theorem State.setBuf_buf_of_ne {sel other : Sel} (h : other ≠ sel) (b : BufUnit) :
    (s.setBuf sel b).buf other = s.buf other := by
  cases sel <;> cases other <;> first | rfl | exact absurd rfl h

/-- Writing a unit back changes nothing. -/
@[simp] theorem State.setBuf_same (sel : Sel) : s.setBuf sel (s.buf sel) = s := by cases sel <;> rfl

@[simp] theorem State.respond_pkt (r : Response) (i : PktIdx) : (s.respond r).pkt i = s.pkt i := rfl
@[simp] theorem State.setBuf_pkt (sel : Sel) (b : BufUnit) (i : PktIdx) : (s.setBuf sel b).pkt i = s.pkt i := by
  cases sel <;> rfl

/-- A register reads back what was written to it. -/
theorem State.setPkt_pkt {i : PktIdx} (h : i.val < s.pkts.length) (k : Packet) : (s.setPkt i k).pkt i = some k := by
  simp [State.pkt, h]

/-- Writing one register leaves the others alone. -/
theorem State.setPkt_pkt_of_ne {i j : PktIdx} (h : j ≠ i) (k : Packet) : (s.setPkt i k).pkt j = s.pkt j := by
  have : i.val ≠ j.val := fun e => h (Fin.ext e.symm)
  simp [State.pkt, this]

/-! ### `openEndpoint`, `closeEndpoint`, `taken`, `afterReset` -/

@[simp] theorem State.openEndpoint_params (c : EndpointCfg) : (s.openEndpoint c).params = s.params := rfl
@[simp] theorem State.openEndpoint_cfg (c : EndpointCfg) : (s.openEndpoint c).cfg = c := rfl
@[simp] theorem State.openEndpoint_instLive (c : EndpointCfg) : (s.openEndpoint c).instLive = true := rfl
@[simp] theorem State.openEndpoint_bufIn (c : EndpointCfg) : (s.openEndpoint c).bufIn = .fresh c.bufferSize := rfl
@[simp] theorem State.openEndpoint_bufOut (c : EndpointCfg) : (s.openEndpoint c).bufOut = .fresh c.bufferSize := rfl
@[simp] theorem State.openEndpoint_pkts (c : EndpointCfg) : (s.openEndpoint c).pkts = s.pkts := rfl
@[simp] theorem State.openEndpoint_rsp (c : EndpointCfg) : (s.openEndpoint c).rsp = s.rsp := rfl
@[simp] theorem State.openEndpoint_inputs (c : EndpointCfg) : (s.openEndpoint c).inputs = s.inputs := rfl
@[simp] theorem State.closeEndpoint_params : (s.closeEndpoint).params = s.params := rfl
@[simp] theorem State.closeEndpoint_cfg : (s.closeEndpoint).cfg = .zero := rfl
@[simp] theorem State.closeEndpoint_instLive : (s.closeEndpoint).instLive = false := rfl
@[simp] theorem State.closeEndpoint_bufIn : (s.closeEndpoint).bufIn = .absent := rfl
@[simp] theorem State.closeEndpoint_bufOut : (s.closeEndpoint).bufOut = .absent := rfl
@[simp] theorem State.closeEndpoint_pkts : (s.closeEndpoint).pkts = s.pkts := rfl
@[simp] theorem State.closeEndpoint_rsp : (s.closeEndpoint).rsp = s.rsp := rfl
@[simp] theorem State.closeEndpoint_inputs : (s.closeEndpoint).inputs = s.inputs := rfl
@[simp] theorem State.taken_params (rest : List Input) : (s.taken rest).params = s.params := rfl
@[simp] theorem State.taken_cfg (rest : List Input) : (s.taken rest).cfg = s.cfg := rfl
@[simp] theorem State.taken_instLive (rest : List Input) : (s.taken rest).instLive = s.instLive := rfl
@[simp] theorem State.taken_bufIn (rest : List Input) : (s.taken rest).bufIn = s.bufIn := rfl
@[simp] theorem State.taken_bufOut (rest : List Input) : (s.taken rest).bufOut = s.bufOut := rfl
@[simp] theorem State.taken_pkts (rest : List Input) : (s.taken rest).pkts = s.pkts := rfl
@[simp] theorem State.taken_rsp (rest : List Input) : (s.taken rest).rsp = none := rfl
@[simp] theorem State.taken_inputs (rest : List Input) : (s.taken rest).inputs = rest := rfl
@[simp] theorem State.taken_buf (rest : List Input) (sel : Sel) : (s.taken rest).buf sel = s.buf sel := by cases sel <;> rfl
@[simp] theorem State.taken_pkt (rest : List Input) (i : PktIdx) : (s.taken rest).pkt i = s.pkt i := rfl
@[simp] theorem State.afterReset_params (rest : List Input) : (s.afterReset rest).params = s.params := rfl
@[simp] theorem State.afterReset_cfg (rest : List Input) : (s.afterReset rest).cfg = .zero := rfl
@[simp] theorem State.afterReset_instLive (rest : List Input) : (s.afterReset rest).instLive = false := rfl
@[simp] theorem State.afterReset_bufIn (rest : List Input) : (s.afterReset rest).bufIn = .absent := rfl
@[simp] theorem State.afterReset_bufOut (rest : List Input) : (s.afterReset rest).bufOut = .absent := rfl
@[simp] theorem State.afterReset_pkts (rest : List Input) : (s.afterReset rest).pkts = List.replicate s.params.nPkt .absent := rfl
@[simp] theorem State.afterReset_rsp (rest : List Input) : (s.afterReset rest).rsp = none := rfl
@[simp] theorem State.afterReset_inputs (rest : List Input) : (s.afterReset rest).inputs = rest := rfl

end Sys2Proof.Machine
end

