-- ==== Sys2Proof/Laws/Ops.lean ====
section
/-! SUPPORT. For each shared operation, once, everything it can do: later proofs cite these and do not unfold it. -/

namespace Sys2Proof.Machine

/-! ### Outcomes -/

@[simp] theorem State.raise_eq_next {st : Status} {s t : State} : s.raise st = .next t ↔ s.respond (.failure st) = t := by
  simp [State.raise]

@[simp] theorem State.raise_ne_fault {st : Status} {s : State} {e : Fault} : s.raise st ≠ .fault e := by simp [State.raise]

@[simp] theorem State.raise_ne_refused {st : Status} {s : State} {r : Refusal} : s.raise st ≠ .refused r := by
  simp [State.raise]

@[simp] theorem State.illegal_eq_next {s t : State} : s.illegal = .next t ↔ s.respond (.failure .undefined) = t := by
  simp [State.illegal]

@[simp] theorem orFault_ok {α : Type} (a : α) (k : α → Host.Outcome State Fault Refusal) : orFault (.ok a) k = k a := rfl

@[simp] theorem orFault_error {α : Type} (e : Fault) (k : α → Host.Outcome State Fault Refusal) :
    orFault (.error e) k = .fault e := rfl

/-- What must have happened when a primitive was used and the command completed. -/
theorem orFault_eq_next {α : Type} {r : Except Fault α} {k : α → Host.Outcome State Fault Refusal} {t : State} :
    orFault r k = .next t ↔ ∃ a, r = .ok a ∧ k a = .next t := by
  cases r <;> simp

/-- What must have happened when a primitive was used and the command was refused. -/
theorem orFault_eq_refused {α : Type} {r : Except Fault α} {k : α → Host.Outcome State Fault Refusal} {q : Refusal} :
    orFault r k = .refused q ↔ ∃ a, r = .ok a ∧ k a = .refused q := by
  cases r <;> simp

/-- A register operand: the register is there, or the word is answered as illegal. -/
theorem withPkt_eq_next {s t : State} {i : PktIdx} {k : Packet → Host.Outcome State Fault Refusal} :
    withPkt s i k = .next t ↔
      (∃ p, s.pkt i = some p ∧ k p = .next t) ∨ (s.pkt i = none ∧ s.respond (.failure .undefined) = t) := by
  unfold withPkt
  cases s.pkt i <;> simp

theorem withPkt_of_some {s : State} {i : PktIdx} {p : Packet} (h : s.pkt i = some p)
    (k : Packet → Host.Outcome State Fault Refusal) : withPkt s i k = k p := by
  simp [withPkt, h]

/-- A payload is read only when it has the stated length. -/
theorem withPayload_eq_next {n : Nat} {bytes : List Byte} {k : List Byte → Host.Outcome State Fault Refusal} {t : State} :
    withPayload n bytes k = .next t ↔ bytes.length = n ∧ k bytes = .next t := by
  unfold withPayload
  split <;> simp [*]

theorem withPayload_of_length {n : Nat} {bytes : List Byte} (h : bytes.length = n)
    (k : List Byte → Host.Outcome State Fault Refusal) : withPayload n bytes k = k bytes := if_pos h

/-- A register operand leads to a refusal only through what is done with the register. -/
theorem withPkt_eq_refused {s : State} {i : PktIdx} {k : Packet → Host.Outcome State Fault Refusal} {q : Refusal} :
    withPkt s i k = .refused q ↔ ∃ p, s.pkt i = some p ∧ k p = .refused q := by
  unfold withPkt
  cases s.pkt i <;> simp [State.illegal]

/-- A payload is refused when it has another length than the stated one. -/
theorem withPayload_eq_refused {n : Nat} {bytes : List Byte} {k : List Byte → Host.Outcome State Fault Refusal} {q : Refusal} :
    withPayload n bytes k = .refused q ↔
      (bytes.length = n ∧ k bytes = .refused q) ∨ (bytes.length ≠ n ∧ q = .payloadMismatch) := by
  unfold withPayload
  by_cases h : bytes.length = n <;> simp [h, eq_comm]

/-! ### Primitives over a unit -/

theorem BufUnit.used_eq_ok {b : BufUnit} {u : Nat} :
    b.used = .ok u ↔ b.head.toNat ≤ b.tail.toNat ∧ b.tail.toNat - b.head.toNat = u := by
  unfold BufUnit.used
  split <;> simp [*]

theorem BufUnit.peek_eq_ok {b : BufUnit} {off n : Nat} {out : List Byte} :
    b.peek off n = .ok out ↔ off + n ≤ b.cap.toNat ∧ b.region.readBytes off n = out := by
  unfold BufUnit.peek
  split <;> simp [*]

theorem BufUnit.poke_eq_ok {b c : BufUnit} {off : Nat} {v : List Byte} :
    b.poke off v = .ok c ↔ off + v.length ≤ b.cap.toNat ∧ { b with region := b.region.writeBytes off v } = c := by
  unfold BufUnit.poke
  split <;> simp [*]

theorem BufUnit.wipe_eq_ok {b c : BufUnit} {lo hi : Nat} :
    b.wipe lo hi = .ok c ↔ (lo ≤ hi ∧ hi ≤ b.cap.toNat) ∧ { b with region := b.region.zero lo hi } = c := by
  unfold BufUnit.wipe
  split <;> simp [*]

/-! ### Operations over a unit -/

/-- Everything an accepted write can do (R113). -/
theorem BufUnit.store_eq_ok {b c : BufUnit} {bytes : List Byte} :
    b.store bytes = .ok c ↔
      b.head.toNat ≤ b.tail.toNat ∧
        ((b.overwrites bytes.length = true ∧ b.tail.toNat ≤ b.cap.toNat ∧ bytes.length ≤ b.cap.toNat ∧
            { b with
              head := 0
              tail := BitVec.ofNat 32 bytes.length
              region := (b.region.zero b.head.toNat b.tail.toNat).writeBytes 0 bytes } = c) ∨
          (b.overwrites bytes.length = false ∧ b.tail.toNat + bytes.length ≤ b.cap.toNat ∧
            { b with
              tail := BitVec.ofNat 32 (b.tail.toNat + bytes.length)
              region := b.region.writeBytes b.tail.toNat bytes } = c)) := by
  by_cases hle : b.head.toNat ≤ b.tail.toNat
  · cases ho : b.overwrites bytes.length
    · by_cases hf : b.tail.toNat + bytes.length ≤ b.cap.toNat <;>
        simp [BufUnit.store, BufUnit.used, BufUnit.append, BufUnit.poke, hle, ho, hf]
    · by_cases hc : b.tail.toNat ≤ b.cap.toNat <;> by_cases hn : bytes.length ≤ b.cap.toNat <;>
        simp [BufUnit.store, BufUnit.used, BufUnit.overwrite, BufUnit.wipe, BufUnit.poke, hle, ho, hc, hn]
  · simp [BufUnit.store, BufUnit.used, hle]

/-- Everything the whole write of R113 can do. -/
theorem BufUnit.writeAll_eq_ok {b : BufUnit} {bytes : List Byte} {r : Nat × BufUnit} :
    b.writeAll bytes = .ok r ↔
      (b.rejectsWrite bytes.length true = true ∧ (0, b) = r) ∨
        (b.rejectsWrite bytes.length true = false ∧ ∃ c, b.store bytes = .ok c ∧ (bytes.length, c) = r) := by
  unfold BufUnit.writeAll
  cases b.rejectsWrite bytes.length true <;> cases b.store bytes <;> simp

/-- Everything the common part of a read can do (R114). -/
theorem BufUnit.fetch_eq_ok {b : BufUnit} {q : Nat} {dst : Bool} {r : Option (List Byte)} :
    b.fetch q dst = .ok r ↔
      (b.live = false ∧ none = r) ∨
        (b.live = true ∧ b.head.toNat ≤ b.tail.toNat ∧
          (((b.tail.toNat = b.head.toNat ∨ dst = false ∨ q = 0) ∧ none = r) ∨
            (b.head.toNat < b.tail.toNat ∧ dst = true ∧ 0 < q ∧
              b.head.toNat + min q (b.tail.toNat - b.head.toNat) ≤ b.cap.toNat ∧
              some (b.region.readBytes b.head.toNat (min q (b.tail.toNat - b.head.toNat))) = r))) := by
  cases hl : b.live
  · simp [BufUnit.fetch, hl]
  · by_cases hle : b.head.toNat ≤ b.tail.toNat
    · by_cases hrej : b.tail.toNat - b.head.toNat = 0 ∨ dst = false ∨ q = 0
      · have h1 : b.fetch q dst = .ok none := by simp [BufUnit.fetch, BufUnit.used, hl, hle, hrej]
        have h2 : b.tail.toNat = b.head.toNat ∨ dst = false ∨ q = 0 := by
          rcases hrej with h | h
          · exact .inl (by omega)
          · exact .inr h
        have h3 : ¬(b.head.toNat < b.tail.toNat ∧ dst = true ∧ 0 < q) := by
          rintro ⟨h4, h5, h6⟩
          rcases hrej with h | h | h
          · omega
          · simp [h] at h5
          · omega
        rw [h1]
        constructor
        · intro h
          exact .inr ⟨rfl, hle, .inl ⟨h2, by simpa using h⟩⟩
        · rintro (⟨h, -⟩ | ⟨-, -, ⟨-, h⟩ | ⟨h4, h5, h6, -⟩⟩)
          · simp at h
          · simp [h]
          · exact absurd ⟨h4, h5, h6⟩ h3
      · obtain ⟨h2, h3, h4⟩ : 0 < b.tail.toNat - b.head.toNat ∧ dst = true ∧ 0 < q := by
          refine ⟨by omega, ?_, by omega⟩
          cases dst <;> simp_all
        have h5 : b.head.toNat < b.tail.toNat := by omega
        by_cases hc : b.head.toNat + min q (b.tail.toNat - b.head.toNat) ≤ b.cap.toNat <;>
          simp [BufUnit.fetch, BufUnit.used, BufUnit.peek, hl, hle, h2.ne', h3, h4, h4.ne', h5, h5.ne', hc]
    · simp [BufUnit.fetch, BufUnit.used, hl, hle]

/-- Everything a performed full read does to the unit (R115). -/
theorem BufUnit.afterFull_eq (b : BufUnit) :
    b.afterFull = .ok { b with tail := b.head, region := b.region.zero 0 b.cap.toNat } := by
  simp [BufUnit.afterFull, BufUnit.wipe]

/-- Everything a performed partial read can do to the unit (R116). -/
theorem BufUnit.afterPartial_eq_ok {b c : BufUnit} {eff : Nat} :
    b.afterPartial eff = .ok c ↔
      b.head.toNat ≤ b.tail.toNat ∧ eff + (b.tail.toNat - b.head.toNat - eff) ≤ b.cap.toNat ∧
        { b with
          tail := BitVec.ofNat 32 (b.tail.toNat - eff)
          region := b.region.writeBytes 0 (b.region.readBytes eff (b.tail.toNat - b.head.toNat - eff)) } = c := by
  by_cases hle : b.head.toNat ≤ b.tail.toNat
  · by_cases hc : eff + (b.tail.toNat - b.head.toNat - eff) ≤ b.cap.toNat
    · have h1 : b.tail.toNat - b.head.toNat - eff ≤ b.cap.toNat := by omega
      simp [BufUnit.afterPartial, BufUnit.used, BufUnit.peek, BufUnit.poke, hle, hc, h1]
    · simp [BufUnit.afterPartial, BufUnit.used, BufUnit.peek, hle, hc]
  · simp [BufUnit.afterPartial, BufUnit.used, hle]

/-- Everything a clear can do to the unit (R118). -/
theorem BufUnit.cleared_eq_ok {b c : BufUnit} :
    b.cleared = .ok c ↔
      (b.head.toNat < b.tail.toNat ∧ b.tail.toNat ≤ b.cap.toNat ∧
          { b with tail := b.head, region := b.region.zero b.head.toNat b.tail.toNat } = c) ∨
        (b.tail.toNat ≤ b.head.toNat ∧ b = c) := by
  unfold BufUnit.cleared
  by_cases h : b.head.toNat < b.tail.toNat
  · have h' : ¬b.tail.toNat ≤ b.head.toNat := by omega
    have h'' : b.head.toNat ≤ b.tail.toNat := by omega
    by_cases hc : b.tail.toNat ≤ b.cap.toNat <;> simp [BufUnit.wipe, h, h', h'', hc]
  · simp [h, Nat.le_of_not_lt h]

/-! ### Packets -/

/-- A command that returns a packet always completes (R140). -/
theorem returnPacket_some (s : State) (pd : PktIdx) (k : Packet) :
    returnPacket s pd (some k) = .next ((s.setPkt pd k).respond .done) := rfl

theorem returnPacket_none (s : State) (pd : PktIdx) :
    returnPacket s pd none = .next ((s.setPkt pd .absent).respond (.failure .ok)) := rfl

theorem returnPacket_eq_next {s t : State} {pd : PktIdx} {r : Option Packet} :
    returnPacket s pd r = .next t ↔
      (∃ k, r = some k ∧ (s.setPkt pd k).respond .done = t) ∨
        (r = none ∧ (s.setPkt pd .absent).respond (.failure .ok) = t) := by
  cases r <;> simp [returnPacket]

theorem returnPacket_ne_refused {s : State} {pd : PktIdx} {r : Option Packet} {q : Refusal} :
    returnPacket s pd r ≠ .refused q := by
  cases r <;> simp [returnPacket]

/-- A register the block has is in the list. -/
theorem State.pkt_eq_some_mem {s : State} {i : PktIdx} {k : Packet} (h : s.pkt i = some k) : k ∈ s.pkts :=
  List.mem_of_getElem? h

theorem State.pkt_isSome_of_lt {s : State} {i : PktIdx} (h : i.val < s.pkts.length) : ∃ k, s.pkt i = some k :=
  ⟨_, List.getElem?_eq_getElem h⟩

@[simp] theorem enc32_length (e : Endian) (v : Word) : (enc32 e v).length = 4 := by cases e <;> rfl

/-- `|f| = 18 + data_size` when the body is all there (R73). -/
theorem frameOf_length (e : Endian) (k : Packet) (h : k.dataSize.toNat ≤ k.body.length) :
    (frameOf e k).length = 18 + k.dataSize.toNat := by
  simp [frameOf, Nat.min_eq_left h]
  omega

end Sys2Proof.Machine
end

