-- ==== Sys2Proof/Laws/Codec.lean ====
section
/-! SUPPORT. Everything `serialize`, `deserialize`, a read and the sending of a frame can do, once: later proofs cite these
and do not unfold the functions. -/

namespace Sys2Proof.Machine

/-- When `Serialize` gives a frame, and which (R145). -/
theorem serialize_eq_some {p : Params} {k : Packet} {f : List Byte} :
    serialize p k = .ok (some f) ↔
      (k.valid = true ∧ (0 < k.dataSize.toNat → k.bodyValid = true) ∧ 18 + k.dataSize.toNat ≤ 2 ^ 32 - 1)
        ∧ k.dataSize.toNat ≤ p.maxBody ∧ k.dataSize.toNat ≤ k.body.length ∧ frameOf p.endian k = f := by
  unfold serialize frameOverhead
  cases hv : k.valid
  · simp
  · by_cases hb : 0 < k.dataSize.toNat ∧ k.bodyValid = false
    · rw [if_neg (by simp), if_pos hb]
      simp [hb.1, hb.2]
    · have hb' : 0 < k.dataSize.toNat → k.bodyValid = true := fun h => by
        cases hk : k.bodyValid
        · exact absurd ⟨h, hk⟩ hb
        · rfl
      rw [if_neg (by simp), if_neg hb]
      by_cases h1 : 2 ^ 32 - 1 < 18 + k.dataSize.toNat
      · rw [if_pos h1]
        exact ⟨fun h => by simp at h, fun h => absurd h.1.2.2 (by omega)⟩
      · rw [if_neg h1]
        by_cases h2 : 18 + p.maxBody < 18 + k.dataSize.toNat
        · rw [if_pos h2]
          exact ⟨fun h => by simp at h, fun h => absurd h.2.1 (by omega)⟩
        · rw [if_neg h2]
          by_cases h3 : k.body.length < k.dataSize.toNat
          · rw [if_pos h3]
            exact ⟨fun h => by simp at h, fun h => absurd h.2.2.1 (by omega)⟩
          · rw [if_neg h3]
            exact ⟨fun h => ⟨⟨rfl, hb', by omega⟩, by omega, by omega, by simpa using h⟩, fun h => by simp [h.2.2.2]⟩

/-- When `Deserialize` gives a packet, and which (R151). -/
theorem deserialize_eq_some {p : Params} {s : List Byte} {k : Packet} :
    deserialize p s = some k ↔
      (18 ≤ s.length ∧ byteAt s 0 = soh ∧ 18 + (fieldAt p.endian s 5).toNat ≤ s.length)
        ∧ (fieldAt p.endian s 5).toNat ≤ p.maxBody ∧ byteAt s (17 + (fieldAt p.endian s 5).toNat) = eot
        ∧ packetAt p.endian s = k := by
  unfold deserialize frameOverhead
  by_cases h1 : s.length < 18
  · rw [if_pos h1]
    exact ⟨fun h => by simp at h, fun h => absurd h.1.1 (by omega)⟩
  rw [if_neg h1]
  by_cases h2 : byteAt s 0 ≠ soh
  · rw [if_pos h2]
    exact ⟨fun h => by simp at h, fun h => absurd h.1.2.1 h2⟩
  rw [if_neg h2]
  by_cases h3 : s.length < 18 + (fieldAt p.endian s 5).toNat
  · rw [if_pos h3]
    exact ⟨fun h => by simp at h, fun h => absurd h.1.2.2 (by omega)⟩
  rw [if_neg h3]
  by_cases h4 : p.maxBody < (fieldAt p.endian s 5).toNat
  · rw [if_pos h4]
    exact ⟨fun h => by simp at h, fun h => absurd h.2.1 (by omega)⟩
  rw [if_neg h4]
  by_cases h5 : byteAt s (17 + (fieldAt p.endian s 5).toNat) ≠ eot
  · rw [if_pos h5]
    exact ⟨fun h => by simp at h, fun h => absurd h.2.2.1 h5⟩
  rw [if_neg h5]
  exact ⟨fun h => ⟨⟨by omega, by simpa using h2, by omega⟩, by omega, by simpa using h5, by simpa using h⟩,
    fun h => by simp [h.2.2.2]⟩

/-- Everything a completed read can do (R114): it was rejected, or it answers the bytes copied out and applies the mode's
effect. -/
theorem readWith_eq_next {effect : BufUnit → Nat → Except Fault BufUnit} {sel : Sel} {len : Word} {dst : Bool} {s t : State} :
    readWith effect sel len dst s = .next t ↔
      ((s.buf sel).fetch len.toNat dst = .ok none ∧ s.respond (.failure .ok) = t) ∨
        ∃ out c, (s.buf sel).fetch len.toNat dst = .ok (some out) ∧ effect (s.buf sel) out.length = .ok c
          ∧ (s.setBuf sel c).respond (.bytes out) = t := by
  unfold readWith
  rw [orFault_eq_next]
  constructor
  · rintro ⟨r, h1, h2⟩
    cases r with
    | none => exact .inl ⟨h1, by simpa using h2⟩
    | some out =>
      obtain ⟨c, h3, h4⟩ := orFault_eq_next.mp h2
      exact .inr ⟨out, c, h1, h3, by simpa using h4⟩
  · rintro (⟨h1, h2⟩ | ⟨out, c, h1, h3, h4⟩)
    · exact ⟨none, h1, by simpa using h2⟩
    · exact ⟨some out, h1, orFault_eq_next.mpr ⟨c, h3, by simpa using h4⟩⟩

/-- Everything a completed sending of a frame can do (R180): too large or not taken by the buffer write, and nothing but the
response changed, or written. -/
theorem sendFrame_eq_next {s t : State} {f : List Byte} (hf : f ≠ []) :
    sendFrame s f = .next t ↔
      ((s.bufOut.cap.toNat < f.length ∨ s.bufOut.rejectsWrite f.length true = true)
          ∧ s.respond (.failure .bufferFailure) = t) ∨
        (s.bufOut.cap.toNat ≥ f.length ∧ s.bufOut.rejectsWrite f.length true = false
          ∧ ∃ c, s.bufOut.store f = .ok c ∧ (s.setBuf .output c).respond (.ofStatus .ok) = t) := by
  have hpos : 0 < f.length := List.length_pos_iff.mpr hf
  have hsame : s.setBuf .output s.bufOut = s := s.setBuf_same .output
  unfold sendFrame
  by_cases h1 : s.bufOut.cap.toNat < f.length
  · rw [if_pos h1]
    simp [h1, Nat.not_le.mpr h1]
  · rw [if_neg h1, orFault_eq_next]
    cases h2 : s.bufOut.rejectsWrite f.length true <;> cases h3 : s.bufOut.store f <;>
      simp [BufUnit.writeAll, h1, h2, h3, hsame, hpos, Nat.le_of_not_lt h1]

end Sys2Proof.Machine
end

