-- ==== Sys2Proof/Laws/Decode.lean ====
section
/-! SUPPORT. The fields of a command's word, once per command: later proofs about `decode` and `encode` cite these. -/

namespace Sys2Proof

/-- The `dv` bit of a presence. -/
def dvCode (b : Bool) : BitVec 1 := BitVec.ofBool b

/-- The 4-bit field of a register index. -/
def idxCode (i : PktIdx) : BitVec 4 := BitVec.ofFin i

@[simp] theorem selOf_code (s : Sel) : selOf s.code = s := by cases s <;> rfl
@[simp] theorem dvOf_dvCode (b : Bool) : dvOf (dvCode b) = b := by cases b <;> rfl
@[simp] theorem idxOf_idxCode (i : PktIdx) : idxOf (idxCode i) = i := rfl
@[simp] theorem idxCode_toNat (i : PktIdx) : (idxCode i).toNat = i.val := rfl
@[simp] theorem operand_dvCode {α : Type} (o : Option α) (d : α) : operand (dvCode o.isSome) (o.getD d) = o := by
  cases o <;> rfl

/-- The fields R85 gives a command, `op` and `mode` among them, every unused field 0. -/
def Instr.fields : Instr → Fields
  | .bufCreate sel _ => ⟨0x0, sel.code, 0, 0, 0, 0, 0⟩
  | .bufUsed sel => ⟨0x1, sel.code, 0, 0, 0, 0, 0⟩
  | .bufWrite sel _ src => ⟨0x2, sel.code, 0, dvCode src.isSome, 0, 0, 0⟩
  | .bufReadFull sel _ dst => ⟨0x3, sel.code, 0, dvCode dst, 0, 0, 0⟩
  | .bufReadPartial sel _ dst => ⟨0x3, sel.code, 1, dvCode dst, 0, 0, 0⟩
  | .bufReadPeek sel _ dst => ⟨0x3, sel.code, 2, dvCode dst, 0, 0, 0⟩
  | .bufClear sel => ⟨0x4, sel.code, 0, 0, 0, 0, 0⟩
  | .bufDestroy sel => ⟨0x5, sel.code, 0, 0, 0, 0, 0⟩
  | .pktConstruct pd _ _ _ data => ⟨0x6, 0, 0, dvCode data.isSome, idxCode pd, 0, 0⟩
  | .pktSerialize ps => ⟨0x7, 0, 0, 0, 0, idxCode ps, 0⟩
  | .pktDeserialize pd _ bytes => ⟨0x8, 0, 0, dvCode bytes.isSome, idxCode pd, 0, 0⟩
  | .pktDestroy ps => ⟨0x9, 0, 0, 0, 0, idxCode ps, 0⟩
  | .instCreate config => ⟨0xA, 0, 0, dvCode config.isSome, 0, 0, 0⟩
  | .instClose => ⟨0xB, 0, 0, 0, 0, 0, 0⟩
  | .writePacket ps => ⟨0xC, 0, 0, 0, 0, idxCode ps, 0⟩
  | .readPacket pd => ⟨0xD, 0, 0, 0, idxCode pd, 0, 0⟩

/-- The fields of a command's word are the fields of the command. -/
theorem Fields.ofWord_word (i : Instr) : Fields.ofWord i.word = i.fields := by
  cases i with
  | bufCreate sel _ =>
    simp only [Instr.word, Instr.row, Instr.fieldBits, Instr.fields]
    cases sel <;> decide
  | bufUsed sel => cases sel <;> decide
  | bufWrite sel _ src =>
    simp only [Instr.word, Instr.row, Instr.fieldBits, Instr.fields]
    cases sel <;> cases src.isSome <;> decide
  | bufReadFull sel _ dst =>
    simp only [Instr.word, Instr.row, Instr.fieldBits, Instr.fields]
    cases sel <;> cases dst <;> decide
  | bufReadPartial sel _ dst =>
    simp only [Instr.word, Instr.row, Instr.fieldBits, Instr.fields]
    cases sel <;> cases dst <;> decide
  | bufReadPeek sel _ dst =>
    simp only [Instr.word, Instr.row, Instr.fieldBits, Instr.fields]
    cases sel <;> cases dst <;> decide
  | bufClear sel => cases sel <;> decide
  | bufDestroy sel => cases sel <;> decide
  | pktConstruct pd _ _ _ data =>
    simp only [Instr.word, Instr.row, Instr.fieldBits, Instr.fields]
    generalize data.isSome = b
    cases b <;> revert pd <;> decide
  | pktSerialize ps => revert ps; decide
  | pktDeserialize pd _ bytes =>
    simp only [Instr.word, Instr.row, Instr.fieldBits, Instr.fields]
    generalize bytes.isSome = b
    cases b <;> revert pd <;> decide
  | pktDestroy ps => revert ps; decide
  | instCreate config =>
    simp only [Instr.word, Instr.row, Instr.fieldBits, Instr.fields]
    cases config.isSome <;> decide
  | instClose => decide
  | writePacket ps => revert ps; decide
  | readPacket pd => revert pd; decide

/-- A word is its fields: two words with the same fields are the same word. -/
theorem Fields.ofWord_injective {v w : Word} (h : Fields.ofWord v = Fields.ofWord w) : v = w := by
  simp only [Fields.ofWord, Fields.mk.injEq] at h
  obtain ⟨h0, h1, h2, h3, h4, h5, h6⟩ := h
  apply BitVec.eq_of_getLsbD_eq
  intro i hi
  have key : ∀ {n : Nat} (st : Nat), v.extractLsb' st n = w.extractLsb' st n → st ≤ i → i < st + n →
      v.getLsbD i = w.getLsbD i := by
    intro n st h hlo hhi
    have := congrArg (BitVec.getLsbD · (i - st)) h
    simpa [BitVec.getLsbD_extractLsb', show i - st < n by omega, show st + (i - st) = i by omega] using this
  rcases Nat.lt_or_ge i 4 with h | h
  · exact key 0 h0 (by omega) (by omega)
  rcases Nat.lt_or_ge i 5 with h | h
  · exact key 4 h1 (by omega) (by omega)
  rcases Nat.lt_or_ge i 7 with h | h
  · exact key 5 h2 (by omega) (by omega)
  rcases Nat.lt_or_ge i 8 with h | h
  · exact key 7 h3 (by omega) (by omega)
  rcases Nat.lt_or_ge i 12 with h | h
  · exact key 8 h4 (by omega) (by omega)
  rcases Nat.lt_or_ge i 16 with h | h
  · exact key 12 h5 (by omega) (by omega)
  · exact key 16 h6 (by omega) (by omega)

@[simp] theorem encode_w0 (i : Instr) : (encode i).w0 = i.word := by cases i <;> rfl

end Sys2Proof
end

