-- ==== Sys2Proof/Laws/Units.lean ====
section
/-! SUPPORT. Every operation over a unit keeps the unit's invariant, and completes where the invariant holds. -/

namespace Sys2Proof.Machine

variable {p : Params} {b c : BufUnit}

@[simp] theorem BufUnit.fresh_live (n : Word) : (BufUnit.fresh n).live = true := rfl
@[simp] theorem BufUnit.fresh_cap (n : Word) : (BufUnit.fresh n).cap = n := rfl
@[simp] theorem BufUnit.fresh_head (n : Word) : (BufUnit.fresh n).head = 0 := rfl
@[simp] theorem BufUnit.fresh_tail (n : Word) : (BufUnit.fresh n).tail = 0 := rfl
@[simp] theorem BufUnit.fresh_region (n : Word) : (BufUnit.fresh n).region = .blank := rfl

theorem BufUnit.absent_inv (p : Params) : BufUnit.absent.Inv p :=
  ⟨⟨rfl, by decide, by simp [BufUnit.absent]⟩, ⟨by decide, by simp [BufUnit.absent]⟩, fun _ => rfl⟩

theorem BufUnit.fresh_inv {n : Word} (h : n.toNat ≤ p.maxCap) : (BufUnit.fresh n).Inv p :=
  ⟨⟨rfl, by simp, by simpa using h⟩, ⟨Memory.blank_wf, by simp [Memory.blank]⟩, fun h => by simp at h⟩

theorem BufUnit.Inv.head_toNat (h : b.Inv p) : b.head.toNat = 0 := by simp [h.1.1]

/-- Under the invariant the used space is `tail` (R27). -/
theorem BufUnit.Inv.used_eq (h : b.Inv p) : b.used = .ok b.tail.toNat :=
  BufUnit.used_eq_ok.mpr ⟨by simp [h.head_toNat], by simp [h.head_toNat]⟩

/-- A read of any mode completes under the invariant. -/
theorem BufUnit.Inv.fetch_total (h : b.Inv p) (q : Nat) (dst : Bool) : ∃ r, b.fetch q dst = .ok r := by
  have h0 := h.head_toNat
  have h1 := h.1.2.1
  cases hl : b.live
  · exact ⟨none, BufUnit.fetch_eq_ok.mpr (.inl ⟨hl, rfl⟩)⟩
  · by_cases hr : b.tail.toNat = b.head.toNat ∨ dst = false ∨ q = 0
    · exact ⟨none, BufUnit.fetch_eq_ok.mpr (.inr ⟨hl, by omega, .inl ⟨hr, rfl⟩⟩)⟩
    · have h2 : dst = true := by cases dst <;> simp_all
      exact ⟨_, BufUnit.fetch_eq_ok.mpr (.inr ⟨hl, by omega, .inr ⟨by omega, h2, by omega, by omega, rfl⟩⟩)⟩

/-- An accepted write completes under the invariant. -/
theorem BufUnit.Inv.store_total (h : b.Inv p) {bytes : List Byte} (hn : bytes.length < b.cap.toNat) :
    ∃ c, b.store bytes = .ok c := by
  have h0 := h.head_toNat
  have h1 := h.1.2.1
  cases ho : b.overwrites bytes.length
  · have : b.tail.toNat + bytes.length ≤ b.cap.toNat := by
      simp only [BufUnit.overwrites, decide_eq_false_iff_not] at ho
      omega
    exact ⟨_, BufUnit.store_eq_ok.mpr ⟨by omega, .inr ⟨ho, this, rfl⟩⟩⟩
  · exact ⟨_, BufUnit.store_eq_ok.mpr ⟨by omega, .inl ⟨ho, h1, hn.le, rfl⟩⟩⟩

theorem BufUnit.Inv.afterPartial_total (h : b.Inv p) {eff : Nat} (he : eff ≤ b.tail.toNat) :
    ∃ c, b.afterPartial eff = .ok c :=
  ⟨_, BufUnit.afterPartial_eq_ok.mpr ⟨by have := h.head_toNat; omega, by have := h.head_toNat; have := h.1.2.1; omega, rfl⟩⟩

theorem BufUnit.Inv.cleared_total (h : b.Inv p) : ∃ c, b.cleared = .ok c := by
  have h0 := h.head_toNat
  have h1 := h.1.2.1
  by_cases ht : b.head.toNat < b.tail.toNat
  · exact ⟨_, BufUnit.cleared_eq_ok.mpr (.inl ⟨ht, h1, rfl⟩)⟩
  · exact ⟨_, BufUnit.cleared_eq_ok.mpr (.inr ⟨by omega, rfl⟩)⟩

theorem BufUnit.Inv.store_inv (h : b.Inv p) (hl : b.live = true) {bytes : List Byte} (hs : b.store bytes = .ok c) :
    c.Inv p := by
  obtain ⟨⟨h0, h1, h2⟩, ⟨hwf, hlt⟩, h3⟩ := h
  have hc := b.cap.isLt
  obtain ⟨-, ⟨-, ht, hn, rfl⟩ | ⟨-, hn, rfl⟩⟩ := BufUnit.store_eq_ok.mp hs
  · refine ⟨⟨rfl, ?_, h2⟩, ⟨Memory.writeBytes_wf (Memory.zero_wf hwf _ _) _ _,
      Memory.writeBytes_lt (Memory.zero_lt hlt _ _) (by omega)⟩, fun h => absurd h (by simp [hl])⟩
    simp only [BitVec.toNat_ofNat]
    rw [Nat.mod_eq_of_lt (by omega)]
    exact hn
  · refine ⟨⟨h0, ?_, h2⟩, ⟨Memory.writeBytes_wf hwf _ _, Memory.writeBytes_lt hlt (by omega)⟩,
      fun h => absurd h (by simp [hl])⟩
    simp only [BitVec.toNat_ofNat]
    rw [Nat.mod_eq_of_lt (by omega)]
    exact hn

theorem BufUnit.Inv.afterFull_inv (h : b.Inv p) (hl : b.live = true) (hs : b.afterFull = .ok c) : c.Inv p := by
  obtain ⟨⟨h0, h1, h2⟩, ⟨hwf, hlt⟩, h3⟩ := h
  rw [BufUnit.afterFull_eq] at hs
  cases hs
  exact ⟨⟨h0, by simp [h0], h2⟩, ⟨Memory.zero_wf hwf _ _, Memory.zero_lt hlt _ _⟩, fun h => absurd h (by simp [hl])⟩

theorem BufUnit.Inv.afterPartial_inv (h : b.Inv p) (hl : b.live = true) {eff : Nat} (hs : b.afterPartial eff = .ok c) :
    c.Inv p := by
  obtain ⟨⟨h0, h1, h2⟩, ⟨hwf, hlt⟩, h3⟩ := h
  have hc := b.cap.isLt
  obtain ⟨-, hn, rfl⟩ := BufUnit.afterPartial_eq_ok.mp hs
  refine ⟨⟨h0, ?_, h2⟩, ⟨Memory.writeBytes_wf hwf _ _, Memory.writeBytes_lt hlt ?_⟩, fun h => absurd h (by simp [hl])⟩
  · simp only [BitVec.toNat_ofNat]
    rw [Nat.mod_eq_of_lt (by omega)]
    omega
  · simp only [Memory.length_readBytes]
    omega

theorem BufUnit.Inv.cleared_inv (h : b.Inv p) (hl : b.live = true) (hs : b.cleared = .ok c) : c.Inv p := by
  obtain ⟨⟨h0, h1, h2⟩, ⟨hwf, hlt⟩, h3⟩ := h
  obtain ⟨-, -, rfl⟩ | ⟨-, rfl⟩ := BufUnit.cleared_eq_ok.mp hs
  · exact ⟨⟨h0, by simp [h0], h2⟩, ⟨Memory.zero_wf hwf _ _, Memory.zero_lt hlt _ _⟩, fun h => absurd h (by simp [hl])⟩
  · exact ⟨⟨h0, h1, h2⟩, ⟨hwf, hlt⟩, h3⟩

/-- The unit READ_PACKET leaves (R181). -/
theorem BufUnit.Inv.emptied_inv (h : b.Inv p) (hl : b.live = true) : ({ b with tail := b.head } : BufUnit).Inv p := by
  obtain ⟨⟨h0, h1, h2⟩, hreg, h3⟩ := h
  exact ⟨⟨h0, by simp [h0], h2⟩, hreg, fun h => absurd h (by simp [hl])⟩

theorem Packet.absent_inv (p : Params) : Packet.absent.Inv p := ⟨fun _ => rfl, fun h => by simp [Packet.absent] at h⟩

end Sys2Proof.Machine
end

