-- ==== Sys2Proof/Tests/Slice0.lean ====
section
/-! SUPPORT. Tests: expected results are the worked examples and vectors of spec/95_test_vectors.md (named in each comment)
or hand calculation from the rules. -/

namespace Sys2Proof.Tests

open Sys2Proof Sys2Proof.Machine

/-! ### Helpers -/

/-- A live unit of capacity `cap` holding `bytes` from offset 0, as accepted writes leave it. -/
def holding (cap : Word) (bytes : List Byte) : BufUnit :=
  { BufUnit.fresh cap with tail := BitVec.ofNat 32 bytes.length, region := Memory.blank.writeBytes 0 bytes }

/-- The reset state with `OUT` holding bytes. -/
def outState (cap : Word) (bytes : List Byte) : State := { State.reset with bufOut := holding cap bytes }

/-- The endpoint configuration of the examples, with a buffer size. -/
def cfgOf (size : Word) : EndpointCfg :=
  { inChannel := 1, outChannel := 2, bufferSize := size, bitRate := 9600, deviceId := 7, deviceType := 0 }

/-- A live endpoint, `IN` holding bytes and `P0` a packet. -/
def endpoint (size : Word) (bytes : List Byte) (k : Packet) : State :=
  (({ State.reset.openEndpoint (cfgOf size) with bufIn := holding size bytes } : State).setPkt 0 k)

/-- The packet of R141's example. -/
def beef : Packet := constructed 3 3 0xDEADBEEF [0xAA, 0xBB, 0xCC]

/-- Its frame under LE (R145's example). -/
def beefLE : List Byte :=
  [0x02, 0xEF, 0xBE, 0xAD, 0xDE, 0x03, 0, 0, 0, 0x03, 0, 0, 0, 0, 0, 0, 0, 0xAA, 0xBB, 0xCC, 0x04]

/-- Its frame under BE (R145's example). -/
def beefBE : List Byte :=
  [0x02, 0xDE, 0xAD, 0xBE, 0xEF, 0, 0, 0, 0x03, 0, 0, 0, 0x03, 0, 0, 0, 0, 0xAA, 0xBB, 0xCC, 0x04]

/-- "0123456789" -/
def digits : List Byte := [0x30, 0x31, 0x32, 0x33, 0x34, 0x35, 0x36, 0x37, 0x38, 0x39]

/-- What the reference decoder reads from a word with empty ports. -/
def word (w : Nat) : Option Instr := decodeTableWord 32 w

/-- The response of one command. -/
def answer (i : Instr) (s : State) : Option Response := (nextOf (exec i s)).bind State.rsp

/-- `OUT` after one command. -/
def outAfter (i : Instr) (s : State) : Option BufUnit := (nextOf (exec i s)).map State.bufOut

/-- A packet register after one command. -/
def pktAfter (j : PktIdx) (i : Instr) (s : State) : Option Packet := (nextOf (exec i s)).bind (·.pkt j)

/-! ### WellFormed: one ill-formed term for each check -/

theorem test_wf_refuses_pd_at_nPkt : (Instr.readPacket 4).wellFormed .reference = false := by decide

theorem test_wf_refuses_ps_at_nPkt : (Instr.pktSerialize 4).wellFormed .reference = false := by decide

theorem test_wf_refuses_construct_pd : (Instr.pktConstruct 15 0 0 0 none).wellFormed .reference = false := by decide

theorem test_wf_refuses_deserialize_pd : (Instr.pktDeserialize 4 0 none).wellFormed .reference = false := by decide

theorem test_wf_refuses_destroy_ps : (Instr.pktDestroy 4).wellFormed .reference = false := by decide

theorem test_wf_refuses_write_ps : (Instr.writePacket 15).wellFormed .reference = false := by decide

theorem test_wf_refuses_short_write : (Instr.bufWrite .output 3 (some [1, 2])).wellFormed .reference = false := by decide

theorem test_wf_refuses_long_construct : (Instr.pktConstruct 0 1 0 0 (some [1, 2])).wellFormed .reference = false := by
  decide

theorem test_wf_refuses_short_deserialize : (Instr.pktDeserialize 0 18 (some [])).wellFormed .reference = false := by
  decide

theorem test_wf_accepts_absent_payload : (Instr.bufWrite .output 4096 none).wellFormed .reference = true := by decide

/-! ### Decode: every constructor, from the words of E1 -/

theorem test_decode_bufCreate : word 0x00000010 = some (.bufCreate .output 0) := by decide

theorem test_decode_bufUsed : word 0x00000001 = some (.bufUsed .input) := by decide

theorem test_decode_bufWrite : word 0x00000092 = some (.bufWrite .output 0 (some [])) := by decide

theorem test_decode_bufReadFull : word 0x00000093 = some (.bufReadFull .output 0 true) := by decide

theorem test_decode_bufReadPartial : word 0x00000023 = some (.bufReadPartial .input 0 false) := by decide

theorem test_decode_bufReadPeek : word 0x000000D3 = some (.bufReadPeek .output 0 true) := by decide

theorem test_decode_bufClear : word 0x00000014 = some (.bufClear .output) := by decide

theorem test_decode_bufDestroy : word 0x00000015 = some (.bufDestroy .output) := by decide

theorem test_decode_pktConstruct :
    decode .reference { Command.ofWord 0x00000186 with len := 3, type := 3, rnd := 9, data := [1, 2, 3] }
      = .ok (.pktConstruct 1 3 3 9 (some [1, 2, 3])) := by decide

theorem test_decode_pktSerialize : word 0x00002007 = some (.pktSerialize 2) := by decide

theorem test_decode_pktDeserialize : word 0x00000108 = some (.pktDeserialize 1 0 none) := by decide

theorem test_decode_pktDestroy : word 0x00003009 = some (.pktDestroy 3) := by decide

theorem test_decode_instCreate :
    decode .reference { Command.ofWord 0x0000008A with cfg := cfgOf 64 } = .ok (.instCreate (some (cfgOf 64))) := by decide

theorem test_decode_instClose : word 0x0000000B = some .instClose := by decide

theorem test_decode_writePacket : word 0x0000100C = some (.writePacket 1) := by decide

theorem test_decode_readPacket : word 0x0000030D = some (.readPacket 3) := by decide

/-- The illegal words of E2. -/
theorem test_decode_refuses_illegal_words :
    [0xE, 0xF, 0x63, 0xE3, 0x1B, 0x8B, 0x21, 0x81, 0x22, 0x1A, 0x16, 0x107, 0x100D, 0x4007, 0x40D, 0xF00C, 0x10000,
      0x80000002, 0xFFFFFFFF].all (fun w => (word w).isNone) = true := by decide

theorem test_decode_names_reasons :
    (decode .reference (.ofWord 0xE), decode .reference (.ofWord 0x63), decode .reference (.ofWord 0x1B),
      decode .reference (.ofWord 0x4007), decode .reference (.ofWord 0x10000))
      = (.error .reservedOpcode, .error .reservedMode, .error .unusedField, .error .packetIndex, .error .reservedBits) := by
  decide

/-- Encoding words of E1. -/
theorem test_encode_words :
    [(Instr.bufWrite .output 3 (some [1, 2, 3])).word, (Instr.bufReadPartial .output 4 true).word,
      (Instr.bufReadPeek .input 4 false).word, (Instr.pktConstruct 3 0 0 1 none).word, (Instr.pktDeserialize 1 18 (some [])).word,
      (Instr.pktDestroy 3).word, (Instr.instCreate none).word, (Instr.readPacket 3).word]
      = [0x92, 0xB3, 0x43, 0x306, 0x188, 0x3009, 0xA, 0x30D] := by decide

/-! ### Step -/

theorem test_step_illegal_word :
    nextOf (step (State.reset.withFetchWord 32 0xE))
      = some { State.reset with rsp := some ⟨false, .undefined, 0, []⟩ } := by decide

/-- R53: a response is not retained by a step that takes no command. -/
theorem test_step_waits :
    nextOf (step State.reset) = some State.reset ∧ nextOf (step (State.reset.respond .done)) = some State.reset := by decide

theorem test_step_reset :
    nextOf (step { endpoint 64 digits beef with inputs := [.reset] }) = some State.reset := by decide

theorem test_step_runs_command :
    (nextOf (step (State.reset.withFetchWord 32 0x10))).map (fun t => (t.bufOut.live, t.inputs)) = some (true, []) := by
  decide

/-! ### Byte Buffer commands -/

/-- R111's example and B15.1: beyond `MAX_CAP` nothing changes. -/
theorem test_bufCreate :
    outAfter (.bufCreate .output 64) State.reset = some ⟨true, 64, 0, 0, ⟨[]⟩⟩
      ∧ outAfter (.bufCreate .output 4097) (outState 16 digits) = some (holding 16 digits) := by decide

/-- R112's example; B1.3. -/
theorem test_bufUsed :
    answer (.bufUsed .output) (outState 64 digits) = some ⟨true, .ok, 10, []⟩
      ∧ answer (.bufUsed .input) (outState 64 digits) = some ⟨false, .ok, 0, []⟩ := by decide

/-- S3.1: ten bytes held in 16, eight written: overwrite. -/
theorem test_bufWrite_overwrites :
    (outAfter (.bufWrite .output 8 (some [0xA0, 0xA1, 0xA2, 0xA3, 0xA4, 0xA5, 0xA6, 0xA7])) (outState 16 digits)).map
        (fun b => (b.tail, b.region.readBytes 0 16))
      = some (8, [0xA0, 0xA1, 0xA2, 0xA3, 0xA4, 0xA5, 0xA6, 0xA7, 0, 0, 0, 0, 0, 0, 0, 0]) := by decide

/-- B3.2: `len = free` appends and fills; S2.1: `len = cap` is rejected. -/
theorem test_bufWrite_exact_fit :
    (outAfter (.bufWrite .output 6 (some [1, 2, 3, 4, 5, 6])) (outState 16 digits)).map (fun b => (b.tail, b.contents))
        = some (16, digits ++ [1, 2, 3, 4, 5, 6])
      ∧ answer (.bufWrite .output 10 (some digits)) (outState 10 []) = some ⟨false, .ok, 0, []⟩ := by decide

/-- S5.1: four bytes returned, all sixteen zeroed. -/
theorem test_bufReadFull :
    answer (.bufReadFull .output 4 true) (outState 16 digits) = some ⟨true, .ok, 4, [0x30, 0x31, 0x32, 0x33]⟩
      ∧ outAfter (.bufReadFull .output 4 true) (outState 16 digits) = some (.fresh 16) := by decide

/-- S4.2: the shift, with the stale bytes at 6 to 9. -/
theorem test_bufReadPartial :
    answer (.bufReadPartial .output 4 true) (outState 16 digits) = some ⟨true, .ok, 4, [0x30, 0x31, 0x32, 0x33]⟩
      ∧ (outAfter (.bufReadPartial .output 4 true) (outState 16 digits)).map
          (fun b => (b.head, b.tail, b.region.readBytes 0 16))
        = some (0, 6, [0x34, 0x35, 0x36, 0x37, 0x38, 0x39, 0x36, 0x37, 0x38, 0x39, 0, 0, 0, 0, 0, 0]) := by decide

/-- B9.2: a request longer than the used space. -/
theorem test_bufReadPeek :
    answer (.bufReadPeek .output 0xFFFFFFFF true) (outState 16 digits) = some ⟨true, .ok, 10, digits⟩
      ∧ outAfter (.bufReadPeek .output 0xFFFFFFFF true) (outState 16 digits) = some (holding 16 digits) := by decide

/-- B8.2: a rejected full read clears nothing. -/
theorem test_bufReadFull_rejected :
    outAfter (.bufReadFull .output 4 false) (outState 16 digits) = some (holding 16 digits) := by decide

/-- B13.1: clear zeroes only the used range; the stale bytes above it survive. -/
theorem test_bufClear :
    (outAfter (.bufClear .output) { State.reset with bufOut := { holding 16 digits with tail := 6 } }).map
        (fun b => (b.tail, b.region.readBytes 0 10)) = some (0, [0, 0, 0, 0, 0, 0, 0x36, 0x37, 0x38, 0x39]) := by decide

/-- B14.1 and B14.2. -/
theorem test_bufDestroy :
    outAfter (.bufDestroy .output) (outState 16 digits) = some .absent
      ∧ answer (.bufDestroy .output) State.reset = some ⟨true, .ok, 0, []⟩ := by decide

/-! ### Packet Codec commands -/

/-- K2.1; K2.2: absent data with a length replaces the packet by ABSENT. -/
theorem test_pktConstruct :
    pktAfter 0 (.pktConstruct 0 3 3 0xDEADBEEF (some [0xAA, 0xBB, 0xCC])) State.reset
        = some ⟨true, 0xDEADBEEF, 3, 3, 0, true, [0xAA, 0xBB, 0xCC]⟩
      ∧ pktAfter 0 (.pktConstruct 0 5 3 8 none) (State.reset.setPkt 0 beef) = some .absent := by decide

/-- K2.3: length 0 succeeds without data, and no body is valid. -/
theorem test_pktConstruct_empty :
    pktAfter 0 (.pktConstruct 0 0 2 9 none) State.reset = some ⟨true, 9, 0, 2, 0, false, []⟩ := by decide

/-- K1-LE.2 and K1-BE.2. -/
theorem test_pktSerialize :
    answer (.pktSerialize 0) (State.reset.setPkt 0 beef) = some ⟨true, .ok, 21, beefLE⟩
      ∧ answer (.pktSerialize 0) ((State.resetWith { Params.reference with endian := .be }).setPkt 0 beef)
        = some ⟨true, .ok, 21, beefBE⟩ := by decide

/-- K11.1: an absent packet. -/
theorem test_pktSerialize_absent : answer (.pktSerialize 0) State.reset = some ⟨false, .ok, 0, []⟩ := by decide

/-- K7-LE.1, with three trailing bytes (K9.1); K8.6: a size near 2^32 does not wrap. -/
theorem test_pktDeserialize :
    pktAfter 1 (.pktDeserialize 1 24 (some (beefLE ++ [0x99, 0x98, 0x97]))) State.reset = some beef
      ∧ pktAfter 1 (.pktDeserialize 1 21 (some
          [0x02, 0xEF, 0xBE, 0xAD, 0xDE, 0xFF, 0xFF, 0xFF, 0xFF, 0x03, 0, 0, 0, 0, 0, 0, 0, 0xAA, 0xBB, 0xCC, 0x04])) State.reset
        = some .absent := by decide

/-- K10.2: an empty packet of an LE block read by a BE block. -/
theorem test_pktDeserialize_cross_endian :
    pktAfter 1 (.pktDeserialize 1 18 (some [0x02, 0x44, 0x33, 0x22, 0x11, 0, 0, 0, 0, 0x03, 0, 0, 0, 0, 0, 0, 0, 0x04]))
        (.resetWith { Params.reference with endian := .be })
      = some ⟨true, 0x44332211, 0, 0x3000000, 0, false, []⟩ := by decide

/-- K11.4. -/
theorem test_pktDestroy : pktAfter 0 (.pktDestroy 0) (State.reset.setPkt 0 beef) = some .absent := by decide

/-! ### Instance commands -/

/-- R170's example; I1.6: a failing create changes nothing. -/
theorem test_instCreate :
    (nextOf (exec (.instCreate (some (cfgOf 64))) State.reset)).map (fun t => (t.cfg, t.instLive, t.bufIn, t.bufOut))
        = some (cfgOf 64, true, .fresh 64, .fresh 64)
      ∧ nextOf (exec (.instCreate (some (cfgOf 0))) (endpoint 64 digits beef))
        = some { endpoint 64 digits beef with rsp := some ⟨false, .ok, 0, []⟩ } := by decide

/-- I1.11 and I3: the packet registers survive; I2.2: no instance, no change. -/
theorem test_instClose :
    nextOf (exec .instClose (endpoint 64 digits beef))
        = some { State.reset.setPkt 0 beef with rsp := some ⟨true, .ok, 0, []⟩ }
      ∧ outAfter .instClose (outState 16 digits) = some (holding 16 digits) := by decide

/-! ### I/O Facade commands -/

/-- F1.6: the frame is appended to `OUT`; F1.3: no instance. -/
theorem test_writePacket :
    (nextOf (exec (.writePacket 0) (endpoint 64 [] beef))).map (fun t => (t.bufOut.contents, t.rsp, t.pkt 0))
        = some (beefLE, some ⟨true, .ok, 0, []⟩, some beef)
      ∧ answer (.writePacket 0) (State.reset.setPkt 0 beef) = some ⟨false, .undefined, 0, []⟩ := by decide

/-- F4.4: a frame of exactly the capacity; F2.3: a larger one. -/
theorem test_writePacket_too_large :
    answer (.writePacket 0) (endpoint 21 [] beef) = some ⟨false, .bufferFailure, 0, []⟩
      ∧ answer (.writePacket 0) (endpoint 20 [] beef) = some ⟨false, .bufferFailure, 0, []⟩ := by decide

/-- F8.5: the first of two frames is returned and all bytes are consumed. -/
theorem test_readPacket :
    (nextOf (exec (.readPacket 1) (endpoint 64 (beefLE ++ beefLE) .absent))).map
        (fun t => (t.pkt 1, t.bufIn.tail, t.rsp)) = some (some beef, 0, some ⟨true, .ok, 0, []⟩) := by decide

/-- F7.6: noise is consumed and the register is ABSENT. -/
theorem test_readPacket_noise :
    (nextOf (exec (.readPacket 0) (endpoint 64 digits beef))).map (fun t => (t.pkt 0, t.bufIn.tail, t.rsp))
      = some (some .absent, 0, some ⟨false, .ok, 0, []⟩) := by decide

/-! ### Stops -/

/-- U11: a payload that would be read and has the wrong length is refused. -/
theorem test_payload_mismatch_refused :
    nextOf (exec (.bufWrite .output 3 (some [1, 2])) (outState 16 [])) = none := by decide

/-- R86: a rejected write does not look at its payload. -/
theorem test_payload_not_read_when_rejected :
    answer (.bufWrite .output 16 (some [1, 2])) (outState 16 []) = some ⟨false, .ok, 0, []⟩ := by decide

/-! ### Lines (R100 to R102), against E1 -/

/-- A line with a brace list in it. -/
def braced (before inside : String) : List Char := before.toList ++ [Char.ofNat 0x7B] ++ inside.toList ++ [Char.ofNat 0x7D]

/-- The control word a line assembles to. -/
def lineWord (l : List Char) : Option Word := (assemble l).map Command.w0

theorem test_lines_of_units :
    (["BUF_CREATE OUT, 64", "BUF_USED OUT", "BUF_WRITE IN, 3, NULL", "BUF_READ.FULL OUT, 4", "BUF_READ.PARTIAL IN, 4, NULL",
        "BUF_READ.PEEK OUT, 4", "BUF_CLEAR IN", "BUF_DESTROY OUT"].map fun l => lineWord l.toList)
      = [some 0x10, some 0x11, some 0x2, some 0x93, some 0x23, some 0xD3, some 0x4, some 0x15] := by decide

theorem test_lines_of_packets :
    (["PKT_CONSTRUCT P3, 0, 0, 0x1, NULL", "PKT_SERIALIZE P2", "PKT_DESERIALIZE P0, 18, NULL", "PKT_DESTROY P3", "INST_CREATE NULL",
        "INST_CLOSE ; done", "WRITE_PACKET P1", "READ_PACKET P3", ".WORD 0x00000063"].map fun l => lineWord l.toList)
      = [some 0x306, some 0x2007, some 0x8, some 0x3009, some 0xA, some 0xB, some 0x100C, some 0x30D, some 0x63] := by decide

theorem test_line_operands :
    parseLine (braced "PKT_CONSTRUCT P1, 3, TYPE_DATA_PACKET, 0xDEADBEEF, " "AA BB CC")
        = some (.pktConstruct 1 3 3 0xDEADBEEF (some [0xAA, 0xBB, 0xCC]))
      ∧ parseLine "BUF_WRITE OUT, 4, \"0;,9\" ; text".toList = some (.bufWrite .output 4 (some [0x30, 0x3B, 0x2C, 0x39]))
      ∧ parseLine (braced "INST_CREATE " "1, 2, 64, 9600, 7, 0") = some (.instCreate (some (cfgOf 64))) := by decide

theorem test_lines_refused :
    ["", "; only a comment", "BUF_USED", "READ_PACKET P16", "BUF_CREATE OUT, 4294967296", "BUF_WRITE OUT, 1, \"a", "NOP"].all
      (fun l => (assemble l.toList).isNone) = true := by decide

/-! ### Witnesses

One theorem per statement of Certificates/Slice0/Obligations.lean that has hypotheses: values that meet them all, for each
clause at a boundary of its range. -/

/-- A live endpoint with something in both units and in `P0`. -/
def busy : State := { endpoint 32 digits beef with bufOut := holding 32 beefLE }

/-- A packet of an endpoint at the largest body an endpoint of size 32 can carry, and one byte more. -/
def body13 : Packet := constructed 13 3 1 (digits ++ [1, 2, 3])
def body14 : Packet := constructed 14 3 1 (digits ++ [1, 2, 3, 4])

/-- The state with one input. -/
def presenting (s : State) (c : Command) : State := { s with inputs := [.command c] }

theorem busy_inv : busy.Inv := by decide
theorem reset_inv : State.reset.Inv := by decide
theorem emptyEndpoint_inv : (endpoint 32 [] beef).Inv := by decide
theorem smallEndpoint_inv : (endpoint 22 [] .absent).Inv := by decide

theorem witness_DecodeOfEncodeIsIdentity :
    (Instr.pktSerialize 3).indexOk .reference = true ∧ (Instr.readPacket 0).indexOk .reference = true := by decide

theorem witness_DecodedWordIsItsEncoding : decode .reference (.ofWord 0x3009) = .ok (.pktDestroy 3) := by decide

theorem witness_UnreadPortsAreIgnored :
    decode .reference (.ofWord 0x13) = .ok (.bufReadFull .output 0 false)
      ∧ Command.SameRead (Instr.bufReadFull .output 0 false).format (.ofWord 0x13)
          { Command.ofWord 0x13 with type := 5, rnd := 6, cfg := cfgOf 64, data := [1] } := by decide

theorem witness_StepRunsDecodedCommand :
    (presenting busy (.ofWord 0x3009)).inputs = .command (.ofWord 0x3009) :: []
      ∧ decode busy.params (.ofWord 0x3009) = .ok (.pktDestroy 3) := by decide

/-- P4 on a block of four registers; a reserved opcode. -/
theorem witness_IllegalWordIsAnswered :
    (presenting busy (.ofWord 0x4007)).inputs = .command (.ofWord 0x4007) :: []
      ∧ ¬legalWord busy.params 0x4007 ∧ ¬legalWord busy.params 0xE ∧ legalWord busy.params 0x3007 := by
  unfold legalWord
  decide

theorem witness_ReservedOpcodesAreIllegal :
    (Command.ofWord 0xFFFFFFFE).w0 &&& 0xF = 0xE ∧ (Command.ofWord 0xF).w0 &&& 0xF = 0xF := by decide

theorem witness_ResetClearsEverything :
    ({ busy with inputs := [.reset, .reset] } : State).inputs = .reset :: [.reset] ∧ busy ≠ State.reset := by decide

theorem witness_NothingPresentedOnlyDropsTheResponse : (busy.respond .done).inputs = [] := by decide

theorem witness_PortStreamsAreNotRetained :
    (∃ t, step (busy.respond .done) = .next t) ∧ (∃ t, step { busy with inputs := [.reset] } = .next t)
      ∧ ∃ t, step (presenting busy (.ofWord 0x11)) = .next t :=
  ⟨⟨_, rfl⟩, ⟨_, rfl⟩, ⟨_, rfl⟩⟩

theorem witness_ResetMeetsInvariant :
    Params.reference.wf ∧ ({ endian := .be, maxCap := 1, maxBody := 0, nPkt := 1 } : Params).wf
      ∧ ({ endian := .le, maxCap := 2 ^ 32 - 1, maxBody := 2 ^ 32 - 19, nPkt := 16 } : Params).wf := by decide

theorem witness_StepKeepsInvariant :
    (presenting busy (.ofWord 0x0D)).Inv ∧ ∃ t, step (presenting busy (.ofWord 0x0D)) = .next t := ⟨by decide, _, rfl⟩

theorem witness_WellFormedCommandsComplete :
    busy.Inv ∧ (Instr.writePacket 0).wellFormed busy.params = true
      ∧ (Instr.bufWrite .output 3 (some [1, 2, 3])).wellFormed busy.params = true :=
  ⟨busy_inv, by decide⟩

/-- Each command just inside and just outside the cases that read the payload. -/
theorem witness_RefusedExactlyWhenMismatchIsRead :
    exec (.bufWrite .input 31 (some [1])) busy = .refused .payloadMismatch
      ∧ exec (.bufWrite .input 32 (some [1])) busy = .next (busy.respond (.failure .ok))
      ∧ exec (.pktConstruct 3 4096 0 0 (some [1])) busy = .refused .payloadMismatch
      ∧ exec (.pktConstruct 3 4097 0 0 (some [1])) busy = .next ((busy.setPkt 3 .absent).respond (.failure .ok))
      ∧ exec (.pktDeserialize 3 18 (some [1])) busy = .refused .payloadMismatch
      ∧ exec (.pktDeserialize 3 17 (some [1])) busy = .next ((busy.setPkt 3 .absent).respond (.failure .ok)) :=
  ⟨rfl, rfl, rfl, rfl, rfl, rfl⟩

theorem witness_BufCreateResult :
    State.reset.params.maxCap < (4097 : Word).toNat ∧ (4096 : Word).toNat ≤ State.reset.params.maxCap := by decide

theorem witness_BufUsedResult :
    (State.reset.buf .input).live = false
      ∧ (busy.buf .output).live = true ∧ (busy.buf .output).head.toNat ≤ (busy.buf .output).tail.toNat := by decide

/-- Rejected: not live, length 0, no source, length at the capacity. Accepted: overwrite by one byte too many, exact fit. -/
theorem witness_BufWriteResult :
    busy.Inv ∧ ((digits ++ [1, 2]).length = (12 : Word).toNat ∧ (digits ++ [1]).length = (11 : Word).toNat)
      ∧ ((State.reset.buf .input).live = false ∧ (busy.buf .output).cap.toNat ≤ (32 : Word).toNat)
      ∧ ((busy.buf .output).live = true ∧ 1 ≤ (12 : Word).toNat ∧ (31 : Word).toNat < (busy.buf .output).cap.toNat)
      ∧ (busy.buf .output).cap.toNat - ((busy.buf .output).tail.toNat - (busy.buf .output).head.toNat) < (12 : Word).toNat
      ∧ (11 : Word).toNat ≤ (busy.buf .output).cap.toNat - ((busy.buf .output).tail.toNat - (busy.buf .output).head.toNat) :=
  ⟨busy_inv, by decide⟩

/-- For BufReadFullEffect, BufReadPartialEffect, BufReadPeekChangesNothing and PeekThenPartialReturnsSameBytes. Rejected: not
live, empty. Accepted: one byte asked. -/
theorem witness_BufRead :
    busy.Inv ∧ State.reset.Inv ∧ (State.reset.buf .output).live = false
      ∧ (endpoint 32 [] beef).Inv ∧ ((endpoint 32 [] beef).buf .input).tail.toNat = 0
      ∧ ((busy.buf .input).live = true ∧ (busy.buf .input).head.toNat < (busy.buf .input).tail.toNat ∧ 0 < (1 : Word).toNat) :=
  ⟨busy_inv, reset_inv, by decide, emptyEndpoint_inv, by decide⟩

theorem witness_BufReadAnswer :
    busy.Inv ∧ Instr.bufReadFull .input 1 true ∈
        [Instr.bufReadFull .input 1 true, Instr.bufReadPartial .input 1 true, Instr.bufReadPeek .input 1 true]
      ∧ 0 < (busy.buf .input).tail.toNat - (busy.buf .input).head.toNat := ⟨busy_inv, by decide⟩

theorem witness_BufClearResult :
    busy.Inv ∧ (busy.buf .input).live = true ∧ State.reset.Inv ∧ (State.reset.buf .input).live = false
      ∧ ((endpoint 32 [] beef).buf .input).tail = ((endpoint 32 [] beef).buf .input).head :=
  ⟨busy_inv, by decide, reset_inv, by decide⟩

theorem witness_BufDestroyResult : (busy.buf .input).live = true ∧ (State.reset.buf .output).live = false := by decide

theorem witness_ContentsAreAQueue :
    busy.Inv ∧ (busy.buf .output).live = true
      ∧ (digits.length = (10 : Word).toNat ∧ (31 : Word).toNat < (busy.buf .output).cap.toNat)
      ∧ (0 < (1 : Word).toNat ∧ (busy.buf .output).contents ≠ [] ∧ (4096 : Word).toNat ≤ busy.params.maxCap) := ⟨busy_inv, by decide⟩

theorem witness_Dec32InvertsEnc32 : enc32 .be 0x80000001 = [0x80, 0x00, 0x00, 0x01] := by decide

theorem witness_FrameLayout :
    serialize .reference beef = .ok (some beefLE)
      ∧ serialize { Params.reference with endian := .be } beef = .ok (some beefBE)
      ∧ serialize .reference (constructed 0 0 0 []) = .ok (some [2, 0, 0, 0, 0, 0, 0, 0, 0, 0, 0, 0, 0, 0, 0, 0, 0, 4]) := by decide

theorem witness_PktConstructResult :
    (3 : PktIdx).val < State.reset.pkts.length ∧ payloadOk 4097 none = true ∧ State.reset.params.maxBody < (4097 : Word).toNat
      ∧ payloadOk 1 none = true ∧ payloadOk 0 none = true ∧ payloadOk 0 (some []) = true ∧ payloadOk 1 (some [7]) = true
      ∧ (4096 : Word).toNat ≤ State.reset.params.maxBody := by decide

/-- The four failures (three of them on registers no command builds) and a frame. -/
theorem witness_PktSerializeResult :
    (State.reset.pkt 0 = some .absent ∧ Packet.absent.dataSize.toNat ≤ Packet.absent.body.length)
      ∧ ((State.reset.setPkt 0 { beef with bodyValid := false }).pkt 0 = some { beef with bodyValid := false })
      ∧ (({ Params.reference with maxBody := 2 } : Params).maxBody < beef.dataSize.toNat)
      ∧ (busy.pkt 0 = some beef ∧ beef.dataSize.toNat ≤ beef.body.length ∧ beef.valid = true ∧ beef.bodyValid = true) := by decide

/-- Each failure of R151, and acceptance of an empty and of a full frame. -/
theorem witness_PktDeserializeResult :
    (1 : PktIdx).val < busy.pkts.length ∧ (17 : Word).toNat < 18 ∧ 18 ≤ (21 : Word).toNat ∧ beefLE.length = (21 : Word).toNat
      ∧ (byteAt beefLE 0 = 0x02 ∧ 18 + (fieldAt .le beefLE 5).toNat ≤ 21 ∧ byteAt beefLE (17 + (fieldAt .le beefLE 5).toNat) = 0x04)
      ∧ (byteAt (beefLE.set 0 3) 0 ≠ 0x02 ∧ 20 < 18 + (fieldAt .le beefLE 5).toNat ∧ byteAt (beefLE.set 20 3) 20 ≠ 0x04)
      ∧ busy.params.maxBody < (fieldAt .le (beefLE.set 6 0x10) 5).toNat := by decide

theorem witness_PktDestroyResult : (3 : PktIdx).val < busy.pkts.length ∧ busy.pkt 3 = some .absent := by decide

theorem witness_CodecRoundTrip :
    Params.reference.wf ∧ beef.Inv .reference ∧ beef.valid = true
      ∧ (constructed 0 0 0 []).Inv .reference ∧ (constructed 0 0 0 []).valid = true := by decide

theorem witness_AcceptanceAndCorruption :
    (deserialize .reference beefLE).isSome = true ∧ 3 = (fieldAt Params.reference.endian beefLE 5).toNat
      ∧ (0x05 : Byte) ≠ 0x02 ∧ (20 < 18 + 3 ∧ beefLE.length - 18 < (4 : Word).toNat)
      ∧ ((2 : Word).toNat ≤ beefLE.length - 18 ∧ byteAt beefLE (17 + 2) ≠ 0x04) := by decide

theorem witness_CrossEndianFieldsAreReversed :
    serialize .reference (constructed 0 3 0x11223344 [])
        = .ok (some [0x02, 0x44, 0x33, 0x22, 0x11, 0, 0, 0, 0, 0x03, 0, 0, 0, 0, 0, 0, 0, 0x04])
      ∧ 0 = (byteReversed (constructed 0 3 0x11223344 []).dataSize).toNat
      ∧ (deserialize { Params.reference with endian := otherEndian Params.reference.endian }
          [0x02, 0x44, 0x33, 0x22, 0x11, 0, 0, 0, 0, 0x03, 0, 0, 0, 0, 0, 0, 0, 0x04]).isSome = true := by decide

theorem witness_InstCreateResult :
    (cfgOf 0).bufferSize.toNat = 0 ∧ State.reset.params.maxCap < (cfgOf 4097).bufferSize.toNat
      ∧ (1 ≤ (cfgOf 1).bufferSize.toNat ∧ (cfgOf 4096).bufferSize.toNat ≤ State.reset.params.maxCap) := by decide

theorem witness_InstCloseResult : busy.instLive = true ∧ State.reset.instLive = false := by decide

theorem witness_UnitsStayPairedWithInstance :
    busy.Paired ∧ busy.instLive = true ∧ ∃ t, exec (.bufClear .input) busy = .next t := ⟨by decide, by decide, _, rfl⟩

/-- Absent arguments; a failing serialization; a frame at the capacity; one byte below it. -/
theorem witness_WritePacketResult :
    (State.reset.bufOut.Inv State.reset.params ∧ State.reset.pkt 3 = some .absent ∧ State.reset.instLive = false
        ∧ serialize State.reset.params .absent = .ok none)
      ∧ (busy.bufOut.Inv busy.params ∧ busy.instLive = true ∧ busy.bufOut.live = true)
      ∧ (serialize busy.params { beef with bodyValid := false } = .ok none ∧ ({ beef with bodyValid := false } : Packet).valid = true)
      ∧ (serialize busy.params body14 = .ok (some (frameOf .le body14)) ∧ busy.bufOut.cap.toNat ≤ (frameOf .le body14).length)
      ∧ ((busy.setPkt 1 body13).pkt 1 = some body13 ∧ serialize busy.params body13 = .ok (some (frameOf .le body13))
        ∧ (frameOf .le body13).length < busy.bufOut.cap.toNat) := by decide

theorem witness_ReadPacketResult :
    (busy.Inv ∧ (3 : PktIdx).val < busy.pkts.length ∧ busy.instLive = true ∧ busy.bufIn.live = true ∧ busy.bufIn.tail ≠ busy.bufIn.head)
      ∧ ((endpoint 32 [] beef).Inv ∧ (endpoint 32 [] beef).bufIn.tail = (endpoint 32 [] beef).bufIn.head)
      ∧ (State.reset.Inv ∧ State.reset.instLive = false) :=
  ⟨⟨busy_inv, by decide⟩, ⟨emptyEndpoint_inv, by decide⟩, reset_inv, by decide⟩

theorem witness_EndpointSizeBoundsTheBody :
    (busy.Inv ∧ busy.pkt 0 = some beef ∧ beef.valid = true)
      ∧ (beef.dataSize.toNat + 19 ≤ (cfgOf 22).bufferSize.toNat ∧ ¬beef.dataSize.toNat + 19 ≤ (cfgOf 21).bufferSize.toNat)
      ∧ (1 ≤ (cfgOf 1).bufferSize.toNat ∧ (cfgOf 4096).bufferSize.toNat ≤ busy.params.maxCap) :=
  ⟨⟨busy_inv, by decide⟩, by decide⟩

theorem witness_FedFrameIsReadBack :
    (endpoint 22 [] .absent).Inv ∧ (3 : PktIdx).val < (endpoint 22 [] .absent).pkts.length
      ∧ ((endpoint 22 [] .absent).instLive = true ∧ (endpoint 22 [] .absent).bufIn.live = true
        ∧ (endpoint 22 [] .absent).bufIn.tail = (endpoint 22 [] .absent).bufIn.head)
      ∧ (beef.Inv (endpoint 22 [] .absent).params ∧ serialize (endpoint 22 [] .absent).params beef = .ok (some beefLE)
        ∧ beefLE.length < (endpoint 22 [] .absent).bufIn.cap.toNat) :=
  ⟨smallEndpoint_inv, by decide⟩

/-- READ_PACKET fails before reading (an empty `IN`, a register the block lacks) and after it (noise in `IN`). -/
theorem witness_FailureChangesOnlyDestination :
    (∃ t r, exec (.readPacket 1) busy = .next t ∧ t.rsp = some r ∧ r.ok = false)
      ∧ ((1 : PktIdx).val < busy.pkts.length ∧ busy.instLive = true ∧ busy.bufIn.live = true ∧ busy.bufIn.tail ≠ busy.bufIn.head)
      ∧ (∃ t r, exec (.readPacket 0) (endpoint 32 [] beef) = .next t ∧ t.rsp = some r ∧ r.ok = false)
      ∧ (endpoint 32 [] beef).bufIn.tail = (endpoint 32 [] beef).bufIn.head
      ∧ (∃ t r, exec (.readPacket 4) busy = .next t ∧ t.rsp = some r ∧ r.ok = false)
      ∧ (∃ t r, exec (.pktConstruct 0 5 3 8 none) busy = .next t ∧ t.rsp = some r ∧ r.ok = false)
      ∧ (∃ t r, exec (.pktDeserialize 0 17 (some beefLE)) busy = .next t ∧ t.rsp = some r ∧ r.ok = false)
      ∧ ∃ t r, exec (.bufWrite .output 32 none) busy = .next t ∧ t.rsp = some r ∧ r.ok = false :=
  ⟨⟨_, _, rfl, rfl, rfl⟩, by decide, ⟨_, _, rfl, rfl, rfl⟩, by decide, ⟨_, _, rfl, rfl, rfl⟩, ⟨_, _, rfl, rfl, rfl⟩,
    ⟨_, _, rfl, rfl, rfl⟩, ⟨_, _, rfl, rfl, rfl⟩⟩

theorem witness_StatusOnlyFromWritePacket :
    busy.pkts.length = busy.params.nPkt ∧ (Instr.bufUsed .input).indexOk busy.params = true
      ∧ (∃ t r, exec (.bufUsed .input) busy = .next t ∧ t.rsp = some r)
      ∧ ∃ t r, exec (.writePacket 0) busy = .next t ∧ t.rsp = some r :=
  ⟨by decide, by decide, ⟨_, _, rfl, rfl⟩, ⟨_, _, rfl, rfl⟩⟩

theorem witness_ResponseShape :
    busy.Inv ∧ (∃ t r, exec (.pktSerialize 0) busy = .next t ∧ t.rsp = some r)
      ∧ ∃ t r, exec (.bufReadPeek .input 4 true) busy = .next t ∧ t.rsp = some r :=
  ⟨busy_inv, ⟨_, _, rfl, rfl⟩, ⟨_, _, rfl, rfl⟩⟩

theorem witness_AnswersAfterReset :
    State.reset = State.resetWith .reference ∧ (3 : PktIdx).val < Params.reference.nPkt
      ∧ ((4096 : Word).toNat ≤ Params.reference.maxCap ∧ 1 ≤ (cfgOf 1).bufferSize.toNat)
      ∧ (([7] : List Byte).length = (1 : Word).toNat ∧ (4096 : Word).toNat ≤ Params.reference.maxBody)
      ∧ (beefLE.length = (21 : Word).toNat ∧ (deserialize .reference beefLE).isSome = true) := by decide

theorem witness_ReadOnlyCommandsFrame :
    (∃ t, exec (.bufUsed .input) busy = .next t) ∧ (∃ t, exec (.bufReadPeek .output 4 true) busy = .next t)
      ∧ ∃ t, exec (.pktSerialize 0) busy = .next t :=
  ⟨⟨_, rfl⟩, ⟨_, rfl⟩, ⟨_, rfl⟩⟩

/-- An append leaves `head`: 11 bytes fit the free space, 12 do not. -/
theorem witness_BufferCommandsFrame :
    (∃ t, exec (.bufCreate .output 8) busy = .next t) ∧ (∃ t, exec (.bufDestroy .output) busy = .next t)
      ∧ (∃ t, exec (.bufWrite .output 3 (some [1, 2, 3])) busy = .next t) ∧ (∃ t, exec (.bufClear .output) busy = .next t)
      ∧ ((busy.buf .output).overwrites 11 = false ∧ (busy.buf .output).overwrites 12 = true) :=
  ⟨⟨_, rfl⟩, ⟨_, rfl⟩, ⟨_, rfl⟩, ⟨_, rfl⟩, by decide⟩

/-- Offsets just outside the stored bytes of an append and of an overwrite. -/
theorem witness_RegionBytesFrame :
    busy.Inv ∧ (∃ t, exec (.bufWrite .output 3 (some [1, 2, 3])) busy = .next t)
      ∧ ((busy.buf .output).writeOffset 3 = 21
        ∧ ¬((busy.buf .output).writeOffset 3 ≤ 24 ∧ 24 < (busy.buf .output).writeOffset 3 + 3)
        ∧ ¬((busy.buf .output).overwrites 3 = true ∧ (busy.buf .output).head.toNat ≤ 24 ∧ 24 < (busy.buf .output).tail.toNat))
      ∧ ((busy.buf .output).writeOffset 12 = 0 ∧ ¬(0 ≤ 21 ∧ 21 < 0 + 12)
        ∧ ¬((busy.buf .output).overwrites 12 = true ∧ (busy.buf .output).head.toNat ≤ 21 ∧ 21 < (busy.buf .output).tail.toNat)) :=
  ⟨busy_inv, ⟨_, rfl⟩, by decide, by decide⟩

theorem witness_PacketCommandsFrame :
    (∃ t, exec (.pktConstruct 3 0 2 9 none) busy = .next t) ∧ (∃ t, exec (.pktDeserialize 1 21 (some beefLE)) busy = .next t)
      ∧ (∃ t, exec (.pktDestroy 0) busy = .next t) ∧ (1 : PktIdx) ≠ 3 :=
  ⟨⟨_, rfl⟩, ⟨_, rfl⟩, ⟨_, rfl⟩, by decide⟩

theorem witness_InstanceCommandsFrame :
    (∃ t, exec (.instCreate (some (cfgOf 16))) busy = .next t) ∧ ∃ t, exec .instClose busy = .next t :=
  ⟨⟨_, rfl⟩, ⟨_, rfl⟩⟩

/-- The 21-byte frame overwrites the 21 held bytes of a region of 32: offset 21 is the first unchanged one. -/
theorem witness_WritePacketFrame :
    busy.Inv ∧ busy.pkt 0 = some beef ∧ (∃ t, exec (.writePacket 0) busy = .next t) ∧ 21 = 18 + beef.dataSize.toNat
      ∧ (¬(busy.bufOut.writeOffset 21 ≤ 21 ∧ 21 < busy.bufOut.writeOffset 21 + 21)
        ∧ ¬(busy.bufOut.overwrites 21 = true ∧ busy.bufOut.head.toNat ≤ 21 ∧ 21 < busy.bufOut.tail.toNat)) :=
  ⟨busy_inv, by decide, ⟨_, rfl⟩, by decide, by decide⟩

theorem witness_ReadPacketFrame : (∃ t, exec (.readPacket 1) busy = .next t) ∧ (0 : PktIdx) ≠ 1 := ⟨⟨_, rfl⟩, by decide⟩

theorem witness_ConfigurationIsNeverRead : ∃ t, exec (.writePacket 0) busy = .next t := ⟨_, rfl⟩

theorem witness_CommandsNeverTouchInputs : ∃ t, exec (.bufWrite .input 3 (some [1, 2, 3])) busy = .next t := ⟨_, rfl⟩

/-- Two states that differ in a stale byte at `tail`. -/
theorem witness_BytesAboveTailAreUnobservable :
    (presenting busy (.ofWord 0x11)).Inv
      ∧ (presenting { busy with bufIn := { holding 32 (digits ++ [0x77]) with tail := 10 } } (.ofWord 0x11)).Inv
      ∧ (presenting busy (.ofWord 0x11)).SameVisible
          (presenting { busy with bufIn := { holding 32 (digits ++ [0x77]) with tail := 10 } } (.ofWord 0x11))
      ∧ busy.bufIn ≠ { holding 32 (digits ++ [0x77]) with tail := 10 }
      ∧ ∃ t, step (presenting busy (.ofWord 0x11)) = .next t :=
  ⟨by decide, by decide, by decide, by decide, _, rfl⟩

end Sys2Proof.Tests
end

section
/-! SUPPORT. `CFG` as a field no meaning reads (R23): a command that neither creates nor closes the endpoint commutes with
any change of `CFG`. And the state after reset (R42). -/

namespace Sys2Proof.Machine

/-! ### The state with other words in `CFG` -/

/-- The state with the six words of `c` in `CFG`. -/
def State.withCfg (s : State) (c : EndpointCfg) : State := { s with cfg := c }

section
variable (s : State) (c : EndpointCfg)

@[simp] theorem State.withCfg_params : (s.withCfg c).params = s.params := rfl
@[simp] theorem State.withCfg_cfg : (s.withCfg c).cfg = c := rfl
@[simp] theorem State.withCfg_instLive : (s.withCfg c).instLive = s.instLive := rfl
@[simp] theorem State.withCfg_bufIn : (s.withCfg c).bufIn = s.bufIn := rfl
@[simp] theorem State.withCfg_bufOut : (s.withCfg c).bufOut = s.bufOut := rfl
@[simp] theorem State.withCfg_pkt (i : PktIdx) : (s.withCfg c).pkt i = s.pkt i := rfl
@[simp] theorem State.withCfg_buf (sel : Sel) : (s.withCfg c).buf sel = s.buf sel := by cases sel <;> rfl

@[simp] theorem State.withCfg_self : s.withCfg s.cfg = s := rfl

@[simp] theorem State.withCfg_respond (r : Response) : (s.withCfg c).respond r = (s.respond r).withCfg c := rfl
@[simp] theorem State.withCfg_setBuf (sel : Sel) (b : BufUnit) :
    (s.withCfg c).setBuf sel b = (s.setBuf sel b).withCfg c := by cases sel <;> rfl

end

/-! ### A change of the next state, passed through an outcome -/

/-- The outcome with its next state, if it has one, changed by `f`. -/
def mapNext (f : State → State) : Host.Outcome State Fault Refusal → Host.Outcome State Fault Refusal
  | .next s => .next (f s)
  | .fault e => .fault e
  | .refused q => .refused q

section
variable (f : State → State)

@[simp] theorem mapNext_next (s : State) : mapNext f (.next s) = .next (f s) := rfl

@[simp] theorem mapNext_ite (p : Prop) [Decidable p] (a b : Host.Outcome State Fault Refusal) :
    mapNext f (if p then a else b) = if p then mapNext f a else mapNext f b := apply_ite (mapNext f) p a b

@[simp] theorem mapNext_orFault {α : Type} (r : Except Fault α) (k : α → Host.Outcome State Fault Refusal) :
    mapNext f (orFault r k) = orFault r fun a => mapNext f (k a) := by cases r <;> rfl

@[simp] theorem mapNext_withPayload (n : Nat) (bytes : List Byte) (k : List Byte → Host.Outcome State Fault Refusal) :
    mapNext f (withPayload n bytes k) = withPayload n bytes fun b => mapNext f (k b) := mapNext_ite f _ _ _

end

/-! ### The shared operations commute with a change of `CFG` -/

section
variable (s : State) (c : EndpointCfg)

@[simp] theorem raise_withCfg (st : Status) : (s.withCfg c).raise st = mapNext (·.withCfg c) (s.raise st) := rfl

@[simp] theorem returnPacket_withCfg (pd : PktIdx) (r : Option Packet) :
    returnPacket (s.withCfg c) pd r = mapNext (·.withCfg c) (returnPacket s pd r) := by cases r <;> rfl

/-- A register operand commutes when what is done with the register does. -/
theorem withPkt_withCfg (i : PktIdx) {k k' : Packet → Host.Outcome State Fault Refusal}
    (h : ∀ p, k' p = mapNext (·.withCfg c) (k p)) :
    withPkt (s.withCfg c) i k' = mapNext (·.withCfg c) (withPkt s i k) := by
  simp only [withPkt, State.withCfg_pkt]
  cases s.pkt i with
  | none => rfl
  | some p => exact h p

/-- Going on with a primitive's result commutes when what is done with the result does. -/
theorem orFault_withCfg {α : Type} (r : Except Fault α) {k k' : α → Host.Outcome State Fault Refusal}
    (h : ∀ a, k' a = mapNext (·.withCfg c) (k a)) : orFault r k' = mapNext (·.withCfg c) (orFault r k) := by
  cases r with
  | error e => rfl
  | ok a => exact h a

theorem readWith_withCfg (effect : BufUnit → Nat → Except Fault BufUnit) (sel : Sel) (len : Word) (dst : Bool) :
    readWith effect sel len dst (s.withCfg c) = mapNext (·.withCfg c) (readWith effect sel len dst s) := by
  simp only [readWith, State.withCfg_buf]
  refine orFault_withCfg c _ fun r => ?_
  cases r with
  | none => rfl
  | some out => simp

theorem sendFrame_withCfg (f : List Byte) : sendFrame (s.withCfg c) f = mapNext (·.withCfg c) (sendFrame s f) := by
  simp [sendFrame]

/-! ### The commands -/

theorem execPktConstruct_withCfg (pd : PktIdx) (len type rnd : Word) (data : Option (List Byte)) :
    execPktConstruct pd len type rnd data (s.withCfg c)
      = mapNext (·.withCfg c) (execPktConstruct pd len type rnd data s) :=
  withPkt_withCfg s c pd fun _ => by cases data <;> simp

theorem execPktSerialize_withCfg (ps : PktIdx) :
    execPktSerialize ps (s.withCfg c) = mapNext (·.withCfg c) (execPktSerialize ps s) :=
  withPkt_withCfg s c ps fun _ => orFault_withCfg c _ fun r => by cases r <;> rfl

theorem execPktDeserialize_withCfg (pd : PktIdx) (len : Word) (bytes : Option (List Byte)) :
    execPktDeserialize pd len bytes (s.withCfg c) = mapNext (·.withCfg c) (execPktDeserialize pd len bytes s) :=
  withPkt_withCfg s c pd fun _ => by cases bytes <;> simp

theorem execWritePacket_withCfg (ps : PktIdx) :
    execWritePacket ps (s.withCfg c) = mapNext (·.withCfg c) (execWritePacket ps s) := by
  refine withPkt_withCfg s c ps fun k => ?_
  simp only [State.withCfg_instLive, State.withCfg_bufOut, State.withCfg_params, raise_withCfg, mapNext_ite]
  congr 1
  refine orFault_withCfg c _ fun r => ?_
  cases r with
  | none => rfl
  | some f => exact sendFrame_withCfg s c f

theorem execReadPacket_withCfg (pd : PktIdx) :
    execReadPacket pd (s.withCfg c) = mapNext (·.withCfg c) (execReadPacket pd s) :=
  withPkt_withCfg s c pd fun _ => by simp

/-- Every command but INST_CREATE and INST_CLOSE takes a change of `CFG` along and does the same otherwise (R23). -/
theorem exec_withCfg {i : Instr} (hcreate : ∀ config, i ≠ .instCreate config) (hclose : i ≠ .instClose) :
    exec i (s.withCfg c) = mapNext (·.withCfg c) (exec i s) := by
  cases i with
  | bufCreate sel cap => simp [exec, execBufCreate]
  | bufUsed sel => simp [exec, execBufUsed]
  | bufWrite sel len src => simp [exec, execBufWrite]
  | bufReadFull sel len dst => simp only [exec, execBufReadFull, readWith_withCfg]
  | bufReadPartial sel len dst => simp only [exec, execBufReadPartial, readWith_withCfg]
  | bufReadPeek sel len dst => simp only [exec, execBufReadPeek, readWith_withCfg]
  | bufClear sel => simp [exec, execBufClear]
  | bufDestroy sel => simp [exec, execBufDestroy]
  | pktConstruct pd len type rnd data => exact execPktConstruct_withCfg s c pd len type rnd data
  | pktSerialize ps => exact execPktSerialize_withCfg s c ps
  | pktDeserialize pd len bytes => exact execPktDeserialize_withCfg s c pd len bytes
  | pktDestroy ps => exact withPkt_withCfg s c ps fun _ => rfl
  | instCreate config => exact absurd rfl (hcreate config)
  | instClose => exact absurd rfl hclose
  | writePacket ps => exact execWritePacket_withCfg s c ps
  | readPacket pd => exact execReadPacket_withCfg s c pd

end

/-- Such a command leaves `CFG`: it commutes with writing back the words that stand there. -/
theorem exec_cfg {s t : State} {i : Instr} (hcreate : ∀ config, i ≠ .instCreate config) (hclose : i ≠ .instClose)
    (h : exec i s = .next t) : t.cfg = s.cfg := by
  have hback := exec_withCfg s s.cfg hcreate hclose
  rw [State.withCfg_self, h, mapNext_next, Host.Outcome.next.injEq] at hback
  rw [hback, State.withCfg_cfg]

/-! ### INST_CREATE and INST_CLOSE -/

/-- Everything INST_CREATE can do (R170). -/
theorem execInstCreate_eq_next {config : Option EndpointCfg} {s t : State} :
    execInstCreate config s = .next t ↔
      (∃ k, config = some k ∧ (0 < k.bufferSize.toNat ∧ k.bufferSize.toNat ≤ s.params.maxCap)
          ∧ (s.openEndpoint k).respond .done = t) ∨
        ((∀ k, config = some k → k.bufferSize.toNat = 0 ∨ s.params.maxCap < k.bufferSize.toNat)
          ∧ s.respond (.failure .ok) = t) := by
  cases config with
  | none => simp [execInstCreate]
  | some k =>
    by_cases h0 : k.bufferSize.toNat = 0
    · simp [execInstCreate, h0]
    · by_cases hcap : s.params.maxCap < k.bufferSize.toNat
      · simp [execInstCreate, h0, hcap]
      · simp [execInstCreate, h0, hcap, Nat.pos_of_ne_zero h0, Nat.le_of_not_lt hcap]

/-- Everything INST_CLOSE can do (R171). -/
theorem execInstClose_eq_next {s t : State} :
    execInstClose s = .next t ↔
      (s.instLive = true ∧ s.closeEndpoint.respond .done = t) ∨ (s.instLive = false ∧ s.respond .done = t) := by
  unfold execInstClose
  cases s.instLive <;> simp

/-- With other words in `CFG` INST_CREATE gives the same next state but for `CFG`. -/
theorem execInstCreate_withCfg {config : Option EndpointCfg} {s t : State} (h : execInstCreate config s = .next t)
    (c : EndpointCfg) : ∃ t', execInstCreate config (s.withCfg c) = .next t' ∧ t'.withCfg t.cfg = t := by
  obtain ⟨k, hk, hsize, rfl⟩ | ⟨hbad, rfl⟩ := execInstCreate_eq_next.mp h
  · exact ⟨_, execInstCreate_eq_next.mpr (.inl ⟨k, hk, hsize, rfl⟩), rfl⟩
  · exact ⟨_, execInstCreate_eq_next.mpr (.inr ⟨hbad, rfl⟩), rfl⟩

/-- With other words in `CFG` INST_CLOSE gives the same next state but for `CFG`. -/
theorem execInstClose_withCfg {s t : State} (h : execInstClose s = .next t) (c : EndpointCfg) :
    ∃ t', execInstClose (s.withCfg c) = .next t' ∧ t'.withCfg t.cfg = t := by
  obtain ⟨hlive, rfl⟩ | ⟨hlive, rfl⟩ := execInstClose_eq_next.mp h
  · exact ⟨_, execInstClose_eq_next.mpr (.inl ⟨hlive, rfl⟩), rfl⟩
  · exact ⟨_, execInstClose_eq_next.mpr (.inr ⟨hlive, rfl⟩), rfl⟩

/-- INST_CREATE leaves `CFG` or makes it its operand. -/
theorem execInstCreate_cfg {config : Option EndpointCfg} {s t : State} (h : execInstCreate config s = .next t) :
    t.cfg = s.cfg ∨ config = some t.cfg := by
  obtain ⟨k, hk, -, rfl⟩ | ⟨-, rfl⟩ := execInstCreate_eq_next.mp h
  · exact .inr hk
  · exact .inl rfl

/-- INST_CLOSE of a live endpoint clears `CFG`. -/
theorem execInstClose_cfg_of_live {s t : State} (hlive : s.instLive = true) (h : execInstClose s = .next t) :
    t.cfg = .zero := by
  obtain ⟨-, rfl⟩ | ⟨hdead, -⟩ := execInstClose_eq_next.mp h
  · rfl
  · simp [hlive] at hdead

/-- No command's next state depends on `CFG`, but for `CFG` itself (R23). -/
theorem exec_next_withCfg {s t : State} {i : Instr} (h : exec i s = .next t) (c : EndpointCfg) :
    ∃ t', exec i (s.withCfg c) = .next t' ∧ t'.withCfg t.cfg = t := by
  by_cases hcreate : ∃ config, i = .instCreate config
  · obtain ⟨config, rfl⟩ := hcreate
    exact execInstCreate_withCfg h c
  by_cases hclose : i = .instClose
  · subst hclose
    exact execInstClose_withCfg h c
  · exact ⟨t.withCfg c, by rw [exec_withCfg s c (not_exists.mp hcreate) hclose, h, mapNext_next], rfl⟩

/-- Settles O57: a command other than the two writers of `CFG` commutes with a change of `CFG`, and each of the two writers
either overwrites it or leaves it. -/
theorem configurationIsNeverRead : Obligations.ConfigurationIsNeverRead := by
  intro s t i h
  refine ⟨fun hcreate hclose => exec_cfg hcreate hclose h, ?_, ?_, exec_next_withCfg h⟩
  · rintro config rfl
    exact execInstCreate_cfg h
  · rintro rfl hlive
    exact execInstClose_cfg_of_live hlive h

/-! ### Reset -/

/-- After reset both units are absent (R42). -/
@[simp] theorem State.resetWith_buf (p : Params) (sel : Sel) : (State.resetWith p).buf sel = .absent := by
  cases sel <;> rfl

/-- Settles O10: every field of `State.resetWith` is the literal of R42, the two units by their common value. -/
theorem resetValues : Obligations.ResetValues := by
  intro p
  have hunits : ∀ sel, (State.resetWith p).buf sel = ⟨false, 0, 0, 0, ⟨[]⟩⟩ := State.resetWith_buf p
  exact ⟨⟨rfl, rfl, rfl⟩, fun sel => ⟨hunits sel, rfl⟩, rfl, rfl⟩

end Sys2Proof.Machine
end

section
/-! SUPPORT. Bytes and 32-bit fields: what `dec32` reads out of the bytes of `enc32` in the same and in the other byte order
(R54), and the header fields of a frame read in either order (R56, R72). -/

namespace Sys2Proof.Machine

/-! ### `enc32` and `dec32` -/

theorem enc32_le (v : Word) :
    enc32 .le v = [v.extractLsb' 0 8, v.extractLsb' 8 8, v.extractLsb' 16 8, v.extractLsb' 24 8] := rfl

theorem enc32_be (v : Word) :
    enc32 .be v = [v.extractLsb' 24 8, v.extractLsb' 16 8, v.extractLsb' 8 8, v.extractLsb' 0 8] := rfl

/-- The sum of four weighed bytes does not wrap in LE. -/
theorem dec32_le_toNat (b0 b1 b2 b3 : Byte) :
    (dec32 .le b0 b1 b2 b3).toNat = b0.toNat + 2 ^ 8 * b1.toNat + 2 ^ 16 * b2.toNat + 2 ^ 24 * b3.toNat := by
  have hlt : b0.toNat + 2 ^ 8 * b1.toNat + 2 ^ 16 * b2.toNat + 2 ^ 24 * b3.toNat < 2 ^ 32 := by omega
  simp only [dec32, BitVec.toNat_ofNat, Nat.mod_eq_of_lt hlt]

/-- BE reads the bytes LE reads, from the other end. -/
theorem dec32_be (b0 b1 b2 b3 : Byte) : dec32 .be b0 b1 b2 b3 = dec32 .le b3 b2 b1 b0 := by
  simp only [dec32]
  congr 1
  omega

theorem dec32_be_toNat (b0 b1 b2 b3 : Byte) :
    (dec32 .be b0 b1 b2 b3).toNat = 2 ^ 24 * b0.toNat + 2 ^ 16 * b1.toNat + 2 ^ 8 * b2.toNat + b3.toNat := by
  rw [dec32_be, dec32_le_toNat]
  omega

/-- The four bytes of a word, weighed from the low end, are the word. -/
theorem dec32_le_bytes (v : Word) :
    dec32 .le (v.extractLsb' 0 8) (v.extractLsb' 8 8) (v.extractLsb' 16 8) (v.extractLsb' 24 8) = v := by
  apply BitVec.eq_of_toNat_eq
  simp only [dec32_le_toNat, BitVec.extractLsb'_toNat, Nat.shiftRight_eq_div_pow]
  omega

/-- A byte appended at the low end weighs 1, and what stood there 256. -/
theorem append_byte_toNat {n : Nat} (x : BitVec n) (b : Byte) : (x ++ b).toNat = 2 ^ 8 * x.toNat + b.toNat := by
  rw [BitVec.toNat_append, ← Nat.shiftLeft_add_eq_or_of_lt b.isLt, Nat.shiftLeft_eq, Nat.mul_comm]

/-- The same bytes weighed from the high end are the word `byteReversed` makes of it. -/
theorem dec32_be_bytes (v : Word) :
    dec32 .be (v.extractLsb' 0 8) (v.extractLsb' 8 8) (v.extractLsb' 16 8) (v.extractLsb' 24 8) = byteReversed v := by
  apply BitVec.eq_of_toNat_eq
  simp only [dec32_be_toNat, byteReversed, append_byte_toNat]
  omega

/-- The first field of `enc32`, read in the order it was written in (R10). -/
@[simp] theorem fieldAt_enc32 (e : Endian) (v : Word) : fieldAt e (enc32 e v) 0 = v := by
  cases e with
  | le => exact dec32_le_bytes v
  | be => exact (dec32_be _ _ _ _).trans (dec32_le_bytes v)

/-- The first field of `enc32`, read in the other order (R56). -/
@[simp] theorem fieldAt_otherEndian_enc32 (e : Endian) (v : Word) :
    fieldAt (otherEndian e) (enc32 e v) 0 = byteReversed v := by
  cases e with
  | le => exact dec32_be_bytes v
  | be => exact (dec32_be _ _ _ _).symm.trans (dec32_be_bytes v)

/-- Settles O29: the layouts are the definition's, the weights do not wrap, and the inversion is `fieldAt_enc32` on the four
bytes. -/
theorem dec32InvertsEnc32 : Obligations.Dec32InvertsEnc32 := by
  refine ⟨fun v => ⟨enc32_le v, enc32_be v⟩, by decide,
    fun b0 b1 b2 b3 => ⟨dec32_le_toNat b0 b1 b2 b3, dec32_be_toNat b0 b1 b2 b3⟩, fun e v b0 b1 b2 b3 henc => ?_⟩
  have hfield : fieldAt e [b0, b1, b2, b3] 0 = v := henc ▸ fieldAt_enc32 e v
  exact hfield

/-! ### The header fields of a frame, read in either byte order -/

/-- The marker in front of a frame (R70). -/
@[simp] theorem byteAt_frameOf_zero (e : Endian) (k : Packet) : byteAt (frameOf e k) 0 = soh := rfl

/-- Field `i` of the header is read from the four bytes it was laid out as (R72), whatever the order of the reader. -/
theorem fieldAt_frameOf (e e' : Endian) (k : Packet) (i : Fin 4) :
    fieldAt e (frameOf e' k) (1 + 4 * i.val) = fieldAt e (enc32 e' (k.headerField i)) 0 := by
  cases e' <;> match i with | 0 | 1 | 2 | 3 => rfl

/-- Field `i` of the header of a frame made in the other byte order is byte-reversed (R56). -/
theorem fieldAt_otherEndian_frameOf (e : Endian) (k : Packet) (i : Fin 4) :
    fieldAt (otherEndian e) (frameOf e k) (1 + 4 * i.val) = byteReversed (k.headerField i) := by
  rw [fieldAt_frameOf, fieldAt_otherEndian_enc32]

/-- The header of the packet a sequence declares (R75). -/
theorem headerField_packetAt (e : Endian) (s : List Byte) (i : Fin 4) :
    (packetAt e s).headerField i = fieldAt e s (1 + 4 * i.val) := by
  match i with | 0 | 1 | 2 | 3 => rfl

/-- When `Deserialize` accepts a sequence (R151). -/
theorem deserialize_isSome {p : Params} {s : List Byte} :
    (deserialize p s).isSome = true ↔
      (18 ≤ s.length ∧ byteAt s 0 = soh ∧ 18 + (fieldAt p.endian s 5).toNat ≤ s.length)
        ∧ (fieldAt p.endian s 5).toNat ≤ p.maxBody ∧ byteAt s (17 + (fieldAt p.endian s 5).toNat) = eot := by
  simp only [Option.isSome_iff_exists, deserialize_eq_some, exists_and_left, exists_eq', and_true]

/-- Settles O37: the reader in the other order finds the size byte-reversed, tests it as R151 says, and takes the four header
fields as it finds them. -/
theorem crossEndianFieldsAreReversed : Obligations.CrossEndianFieldsAreReversed := by
  rintro p k f ds hf rfl
  obtain ⟨-, -, -, rfl⟩ := serialize_eq_some.mp hf
  have hsize : fieldAt (otherEndian p.endian) (frameOf p.endian k) 5 = byteReversed k.dataSize :=
    fieldAt_otherEndian_frameOf p.endian k 1
  constructor
  · rw [deserialize_isSome, hsize, byteAt_frameOf_zero]
    constructor
    · rintro ⟨⟨-, -, hlen⟩, hmax, heot⟩
      exact ⟨hlen, hmax, heot⟩
    · rintro ⟨hlen, hmax, heot⟩
      exact ⟨⟨by omega, rfl, hlen⟩, hmax, heot⟩
  · intro k' hk' i
    obtain ⟨-, -, -, rfl⟩ := deserialize_eq_some.mp hk'
    rw [headerField_packetAt, fieldAt_otherEndian_frameOf]

end Sys2Proof.Machine
end

section
/-! SUPPORT. What the decoder accepts: the fields and the word of a decoded command, and that this word is legal (R81, R85,
R95 to R97). Then the answer to every other word (R96), the reserved opcodes and the status codes (R92). -/

namespace Sys2Proof

/-! ### The parts of a control word, as fields and as operands -/

@[simp] theorem code_selOf (b : BitVec 1) : (selOf b).code = b := by revert b; decide
@[simp] theorem dvCode_dvOf (b : BitVec 1) : dvCode (dvOf b) = b := by revert b; decide
@[simp] theorem idxCode_idxOf (b : BitVec 4) : idxCode (idxOf b) = b := rfl
@[simp] theorem idxOf_val (b : BitVec 4) : (idxOf b).val = b.toNat := rfl
@[simp] theorem operand_isSome {α : Type} (b : BitVec 1) (x : α) : (operand b x).isSome = dvOf b := by
  unfold operand
  cases dvOf b <;> rfl

/-- Four bits taken by shift and mask are the four bits taken as a field. -/
theorem shiftRight_and_nibble (w : Word) (n : Nat) : w >>> n &&& 0xF = (w.extractLsb' n 4).setWidth 32 := by
  apply BitVec.eq_of_toNat_eq
  have hmask : (w.toNat >>> n) &&& 15 = (w.toNat >>> n) % 2 ^ 4 := Nat.and_two_pow_sub_one_eq_mod _ 4
  rw [BitVec.toNat_setWidth_of_le (by decide), BitVec.extractLsb'_toNat, ← hmask, BitVec.toNat_and,
    BitVec.toNat_ushiftRight]
  rfl

theorem toNat_shiftRight_and_nibble (w : Word) (n : Nat) : (w >>> n &&& 0xF).toNat = (w.extractLsb' n 4).toNat := by
  rw [shiftRight_and_nibble, BitVec.toNat_setWidth_of_le (by decide)]

/-! ### What a decoded command says about its word -/

/-- The opcode number of an operation (R85). -/
def Op.code : Op → BitVec 4
  | .bufCreate => 0x0
  | .bufUsed => 0x1
  | .bufWrite => 0x2
  | .bufRead => 0x3
  | .bufClear => 0x4
  | .bufDestroy => 0x5
  | .pktConstruct => 0x6
  | .pktSerialize => 0x7
  | .pktDeserialize => 0x8
  | .pktDestroy => 0x9
  | .instCreate => 0xA
  | .instClose => 0xB
  | .writePacket => 0xC
  | .readPacket => 0xD

theorem Op.code_of_ofCode {c : BitVec 4} {op : Op} (h : Op.ofCode c = some op) : c = op.code := by
  revert c
  cases op <;> decide

/-- When the decoder accepts a word, and as what. -/
theorem decode_eq_ok {p : Params} {c : Command} {i : Instr} :
    decode p c = .ok i ↔
      (Fields.ofWord c.w0).high = 0
        ∧ ∃ op, Op.ofCode (Fields.ofWord c.w0).op = some op
          ∧ ((Fields.ofWord c.w0).unusedClear op.uses = true ∧ (Fields.ofWord c.w0).indexClear op.uses p = true)
          ∧ build op (Fields.ofWord c.w0) c = .ok i := by
  unfold decode
  generalize Fields.ofWord c.w0 = f
  by_cases hhigh : f.high = 0#16
  · cases hop : Op.ofCode f.op with
    | none => simp [hhigh, hop]
    | some op => cases hu : f.unusedClear op.uses <;> cases hx : f.indexClear op.uses p <;> simp [hhigh, hop, hu, hx]
  · simp [hhigh]

/-- What the read operation builds: one of the three modes of R93. -/
theorem build_bufRead_eq_ok {f : Fields} {c : Command} {i : Instr} (h : build .bufRead f c = .ok i) :
    (f.mode = 0 ∧ i = .bufReadFull (selOf f.sel) c.len (dvOf f.dv))
      ∨ (f.mode = 1 ∧ i = .bufReadPartial (selOf f.sel) c.len (dvOf f.dv))
      ∨ (f.mode = 2 ∧ i = .bufReadPeek (selOf f.sel) c.len (dvOf f.dv)) := by
  obtain ⟨op, sel, mode, dv, pd, ps, high⟩ := f
  have hmode : ∀ m : BitVec 2, m = 0 ∨ m = 1 ∨ m = 2 ∨ m = 3 := by decide
  obtain rfl | rfl | rfl | rfl := hmode mode <;> cases h <;> simp

/-- A command built from fields whose unused ones are clear has those fields (R81, R85, R95). -/
theorem fields_of_build {op : Op} {f : Fields} {c : Command} {i : Instr} (hop : f.op = op.code) (hhigh : f.high = 0)
    (hclear : f.unusedClear op.uses = true) (h : build op f c = .ok i) : i.fields = f := by
  obtain ⟨o, sel, mode, dv, pd, ps, high⟩ := f
  cases op with
  | bufRead =>
    obtain ⟨hm, rfl⟩ | ⟨hm, rfl⟩ | ⟨hm, rfl⟩ := build_bufRead_eq_ok h <;>
      simp_all [Instr.fields, Fields.unusedClear, Op.uses, Op.code]
  | _ =>
    cases h
    simp_all [Instr.fields, Fields.unusedClear, Op.uses, Op.code]

/-- A command built from fields whose used indices are below `N_PKT` names a register of the block (R96). -/
theorem indexOk_of_build {p : Params} {op : Op} {f : Fields} {c : Command} {i : Instr}
    (hidx : f.indexClear op.uses p = true) (h : build op f c = .ok i) : i.indexOk p = true := by
  cases op with
  | bufRead => obtain ⟨-, rfl⟩ | ⟨-, rfl⟩ | ⟨-, rfl⟩ := build_bufRead_eq_ok h <;> rfl
  | pktConstruct | pktDeserialize | readPacket | pktSerialize | pktDestroy | writePacket =>
    cases h
    exact decide_eq_true (by simpa [Fields.indexClear, Op.uses] using hidx)
  | _ =>
    cases h
    rfl

/-- A decoded command names a register of the block, and the word it was decoded from is its word. -/
theorem word_of_decode {p : Params} {c : Command} {i : Instr} (h : decode p c = .ok i) :
    i.indexOk p = true ∧ c.w0 = i.word := by
  obtain ⟨hhigh, op, hcode, ⟨hclear, hidx⟩, hbuild⟩ := decode_eq_ok.mp h
  have hfields : i.fields = Fields.ofWord c.w0 := fields_of_build (Op.code_of_ofCode hcode) hhigh hclear hbuild
  exact ⟨indexOk_of_build hidx hbuild, Fields.ofWord_injective (hfields.symm.trans (Fields.ofWord_word i).symm)⟩

/-! ### The word of a command is legal -/

theorem Instr.row_mem_opcodeRows (i : Instr) : i.row ∈ opcodeRows := by
  cases i <;> simp [Instr.row, opcodeRows]

/-- The operand fields of a command stand where the mask of its row is clear (R85). -/
theorem Instr.fieldBits_and_mask (i : Instr) : i.fieldBits &&& i.row.mask = 0 := by
  have hsel : ∀ s, selBits s &&& 0xFFFFFFEF = 0 := by intro s; cases s <;> decide
  have hps : ∀ r, psBits r &&& 0xFFFF0FFF = 0 := by decide
  have hselDv : ∀ s b, (selBits s ||| dvBits b) &&& 0xFFFFFF6F = 0 := by intro s b; cases s <;> revert b <;> decide
  have hdvPd : ∀ b r, (dvBits b ||| pdBits r) &&& 0xFFFFF07F = 0 := by decide
  have hdv : ∀ b, dvBits b &&& 0xFFFFFF7F = 0 := by decide
  have hpd : ∀ r, pdBits r &&& 0xFFFFF0FF = 0 := by decide
  cases i with
  | bufCreate s _ | bufUsed s | bufClear s | bufDestroy s => exact hsel s
  | bufWrite s _ src => exact hselDv s src.isSome
  | bufReadFull s _ dst | bufReadPartial s _ dst | bufReadPeek s _ dst => exact hselDv s dst
  | pktConstruct pd _ _ _ data => exact hdvPd data.isSome pd
  | pktDeserialize pd _ bytes => exact hdvPd bytes.isSome pd
  | pktSerialize ps | pktDestroy ps | writePacket ps => exact hps ps
  | instCreate config => exact hdv config.isSome
  | instClose => rfl
  | readPacket pd => exact hpd pd

/-- The row of a command selects its word (R85). -/
theorem Instr.row_selects_word (i : Instr) : i.row.selects i.word = true := by
  have hrows : ∀ r ∈ opcodeRows, r.mtch &&& r.mask = r.mtch := by decide
  have hmtch := hrows i.row i.row_mem_opcodeRows
  simp [Row.selects, Instr.word, BitVec.and_or_distrib_right, hmtch, i.fieldBits_and_mask]

/-- A row whose mask leaves `pd` free is the row of a command that uses `pd`. -/
theorem Instr.pd_lt_of_indexOk {p : Params} {i : Instr} (h : i.indexOk p = true) (hmask : i.row.mask &&& 0xF00 = 0) :
    i.fields.pd.toNat < p.nPkt := by
  cases i with
  | pktConstruct | pktDeserialize | readPacket => exact of_decide_eq_true h
  | _ => exact absurd hmask (by simp only [Instr.row]; decide)

/-- A row whose mask leaves `ps` free is the row of a command that uses `ps`. -/
theorem Instr.ps_lt_of_indexOk {p : Params} {i : Instr} (h : i.indexOk p = true) (hmask : i.row.mask &&& 0xF000 = 0) :
    i.fields.ps.toNat < p.nPkt := by
  cases i with
  | pktSerialize | pktDestroy | writePacket => exact of_decide_eq_true h
  | _ => exact absurd hmask (by simp only [Instr.row]; decide)

end Sys2Proof

namespace Sys2Proof.Machine

/-- The word of a command whose register the block has is legal (R96). -/
theorem legalWord_word {p : Params} {i : Instr} (h : i.indexOk p = true) : legalWord p i.word := by
  have hpd : (i.word >>> 8 &&& 0xF).toNat = i.fields.pd.toNat := by
    rw [toNat_shiftRight_and_nibble, ← Fields.ofWord_word]
    rfl
  have hps : (i.word >>> 12 &&& 0xF).toNat = i.fields.ps.toNat := by
    rw [toNat_shiftRight_and_nibble, ← Fields.ofWord_word]
    rfl
  exact ⟨i.row, i.row_mem_opcodeRows, i.row_selects_word,
    fun hmask => hpd ▸ i.pd_lt_of_indexOk h hmask, fun hmask => hps ▸ i.ps_lt_of_indexOk h hmask⟩

/-- The decoder accepts legal words only (R96). -/
theorem legalWord_of_decode {p : Params} {c : Command} {i : Instr} (h : decode p c = .ok i) : legalWord p c.w0 := by
  obtain ⟨hidx, hword⟩ := word_of_decode h
  exact hword ▸ legalWord_word hidx

/-- A command whose word the decoder rejects is taken and answered as illegal, whichever reason the decoder names. -/
theorem step_of_decode_error {s : State} {c : Command} {rest : List Input} {e : DecodeError}
    (hin : s.inputs = .command c :: rest) (h : decode s.params c = .error e) : step s = (s.taken rest).illegal := by
  simp [step, State.presented, hin, h]

/-- Settles O8: the decoder accepts legal words only, and every error of it leads to the one answer. -/
theorem illegalWordIsAnswered : Obligations.IllegalWordIsAnswered := by
  intro s c rest hin hillegal
  cases h : decode s.params c with
  | ok i => exact absurd (legalWord_of_decode h) hillegal
  | error e => exact step_of_decode_error hin h

/-- Settles O9: a decoded word has the opcode of an operation, and no operation has 0xE or 0xF. -/
theorem reservedOpcodesAreIllegal : Obligations.ReservedOpcodesAreIllegal := by
  intro p c i hop h
  obtain ⟨-, op, hcode, -⟩ := decode_eq_ok.mp h
  have hnibble : c.w0 &&& 0xF = op.code.setWidth 32 := by
    rw [← Op.code_of_ofCode hcode]
    exact shiftRight_and_nibble c.w0 0
  rw [hnibble] at hop
  revert hop
  cases op <;> decide

/-- Settles O45: the values are the definition's, the patterns their residues modulo 2^8. -/
theorem statusCodes : Obligations.StatusCodes :=
  ⟨⟨rfl, rfl, rfl, rfl, rfl⟩, by decide⟩

end Sys2Proof.Machine
end

section
/-! SUPPORT. The layout of a frame: its bytes by position, the header bit by bit (R70, R72, R73). -/

namespace Sys2Proof.Machine

/-! ### The header -/

/-- Byte `b` of a field in LE (R54). -/
theorem byteAt_enc32_le (v : Word) (b : Fin 4) : byteAt (enc32 .le v) b.val = v.extractLsb' (8 * b.val) 8 := by
  match b with | 0 | 1 | 2 | 3 => rfl

/-- Byte `b` of a field in BE, counted from the other end (R54). -/
theorem byteAt_enc32_be (v : Word) (b : Fin 4) : byteAt (enc32 .be v) b.rev.val = v.extractLsb' (8 * b.val) 8 := by
  match b with | 0 | 1 | 2 | 3 => rfl

/-- Byte `b` of field `i` of the header stands at offset `1 + 4 i + b` (R72). -/
theorem byteAt_frameOf_header (e : Endian) (k : Packet) (i b : Fin 4) :
    byteAt (frameOf e k) (1 + 4 * i.val + b.val) = byteAt (enc32 e (k.headerField i)) b.val := by
  cases e <;> match i with | 0 | 1 | 2 | 3 => match b with | 0 | 1 | 2 | 3 => rfl

/-- Bit `j` of a word is bit `j mod 8` of its byte `j div 8`. -/
theorem getLsbD_byte (v : Word) (j : Nat) : (v.extractLsb' (8 * (j / 8)) 8).getLsbD (j % 8) = v.getLsbD j := by
  have hlt : j % 8 < 8 := Nat.mod_lt _ (by decide)
  rw [BitVec.getLsbD_extractLsb', Nat.div_add_mod]
  simp [hlt]

/-- The byte of a field that holds its bit `j`, counted from the low end. -/
def byteOfBit (j : Fin 32) : Fin 4 := ⟨j.val / 8, by omega⟩

/-- Bit `j` of header field `i` under LE (R72). -/
theorem getLsbD_frameOf_le (k : Packet) (i : Fin 4) (j : Fin 32) :
    (byteAt (frameOf .le k) (1 + 4 * i.val + j.val / 8)).getLsbD (j.val % 8) = (k.headerField i).getLsbD j.val := by
  have hbyte := (byteAt_frameOf_header .le k i (byteOfBit j)).trans (byteAt_enc32_le _ _)
  exact (congrArg (BitVec.getLsbD · (j.val % 8)) hbyte).trans (getLsbD_byte _ j.val)

/-- Bit `j` of header field `i` under BE (R72). -/
theorem getLsbD_frameOf_be (k : Packet) (i : Fin 4) (j : Fin 32) :
    (byteAt (frameOf .be k) (4 + 4 * i.val - j.val / 8)).getLsbD (j.val % 8) = (k.headerField i).getLsbD j.val := by
  have hbyte := (byteAt_frameOf_header .be k i (byteOfBit j).rev).trans (byteAt_enc32_be _ _)
  have hoff : 1 + 4 * i.val + (byteOfBit j).rev.val = 4 + 4 * i.val - j.val / 8 := by
    simp only [byteOfBit, Fin.val_rev]
    omega
  rw [hoff] at hbyte
  exact (congrArg (BitVec.getLsbD · (j.val % 8)) hbyte).trans (getLsbD_byte _ j.val)

/-! ### The body and the end -/

/-- Behind the marker and the four fields stand the body and the terminator (R70). -/
theorem byteAt_frameOf_body (e : Endian) (k : Packet) (m : Nat) :
    byteAt (frameOf e k) (17 + m) = byteAt (k.body.take k.dataSize.toNat ++ [eot]) m := by
  rw [Nat.add_comm]
  cases e <;> rfl

/-- Byte `m` of the body (R70). -/
theorem byteAt_frameOf_of_lt (e : Endian) {k : Packet} {m : Nat} (hm : m < k.dataSize.toNat)
    (hbody : k.dataSize.toNat ≤ k.body.length) : byteAt (frameOf e k) (17 + m) = k.body.getD m 0 := by
  have hlen : m < (k.body.take k.dataSize.toNat).length := by
    rw [List.length_take]
    omega
  rw [byteAt_frameOf_body, byteAt, List.getD_append _ _ _ _ hlen]
  simp [List.getD_eq_getElem?_getD, hm]

/-- The terminator stands behind the body (R70). -/
theorem byteAt_frameOf_eot (e : Endian) {k : Packet} (hbody : k.dataSize.toNat ≤ k.body.length) :
    byteAt (frameOf e k) (17 + k.dataSize.toNat) = eot := by
  have hlen : (k.body.take k.dataSize.toNat).length = k.dataSize.toNat := List.length_take_of_le hbody
  rw [byteAt_frameOf_body, byteAt, List.getD_append_right _ _ _ _ hlen.le, hlen, Nat.sub_self]
  rfl

/-- Settles O30: a frame that `Serialize` makes is `frameOf` of a packet whose body is all there, so each part of it is one of
the lemmas above. -/
theorem frameLayout : Obligations.FrameLayout := by
  intro p k f hf
  obtain ⟨-, hmax, hbody, rfl⟩ := serialize_eq_some.mp hf
  have hlen := frameOf_length p.endian k hbody
  refine ⟨⟨hlen, by omega, byteAt_frameOf_zero _ _, byteAt_frameOf_eot _ hbody⟩, fun i j he => ?_, fun i j he => ?_,
    fun m hm => byteAt_frameOf_of_lt _ hm hbody⟩
  · rw [he, getLsbD_frameOf_le]
  · rw [he, getLsbD_frameOf_be]

end Sys2Proof.Machine
end

section
/-! SUPPORT. The Byte Buffer commands (40_byte_buffer.md): what each leaves in the unit, byte by byte, and what it answers. The
commands are settled after the laws of the operation they use. -/

namespace Sys2Proof.Machine

/-! ### The unit of a state, and the responses of the buffer commands -/

/-- Each unit of a state of the invariant meets the unit's own. -/
theorem State.Inv.buf {s : State} (h : s.Inv) (sel : Sel) : (s.buf sel).Inv s.params := by
  obtain ⟨-, ⟨hin, hout⟩, -⟩ := h
  cases sel
  · exact hin
  · exact hout

/-- The answer of BUF_USED is the difference of the cursors as registers (R110, R112). -/
theorem Response.used_of_le {head tail : Word} (h : head.toNat ≤ tail.toNat) :
    Response.used (tail.toNat - head.toNat) = ⟨true, .ok, tail - head, []⟩ := by
  have hsub : BitVec.ofNat 32 (tail.toNat - head.toNat) = tail - head := by
    rw [← BitVec.toNat_sub_of_le h, BitVec.ofNat_toNat, BitVec.setWidth_eq]
  rw [Response.used, hsub]

/-- The answer of a write of `len > 0` bytes (R90, R113). -/
theorem Response.wrote_of_pos {len : Word} (h : 0 < len.toNat) : Response.wrote len.toNat = ⟨true, .ok, len, []⟩ := by
  simp [Response.wrote, h]

/-- The answer of a read that copied at least one byte (R90, R114). -/
theorem Response.bytes_of_pos {out : List Byte} (h : 0 < out.length) :
    Response.bytes out = ⟨true, .ok, BitVec.ofNat 32 out.length, out⟩ := by
  simp [Response.bytes, h]

/-! ### BUF_CREATE, BUF_USED, BUF_DESTROY -/

/-- Settles O18: the capacity is above MAX_CAP or the unit is `BufUnit.fresh`, whose region is blank. -/
theorem bufCreateResult : Obligations.BufCreateResult := by
  intro s sel cap
  by_cases hcap : s.params.maxCap < cap.toNat
  · exact ⟨s.respond (.failure .ok), if_pos hcap, fun _ => rfl, fun h => absurd hcap (Nat.not_lt.mpr h)⟩
  · refine ⟨(s.setBuf sel (.fresh cap)).respond .done, if_neg hcap, fun h => absurd h hcap, fun _ => ?_⟩
    simp only [State.respond_buf, State.setBuf_buf]
    exact ⟨⟨rfl, rfl, rfl, rfl⟩, Memory.read_blank, rfl, rfl⟩

/-- Settles O19: with the cursors in order `used` is their difference. -/
theorem bufUsedResult : Obligations.BufUsedResult := by
  intro s sel
  refine ⟨fun hdead => if_pos hdead, fun hlive hle => ?_⟩
  have hused := BufUnit.used_eq_ok.mpr ⟨hle, rfl⟩
  simp [exec, execBufUsed, hlive, hused, Response.used_of_le hle, State.respond]

/-- Settles O26: a live unit becomes `BufUnit.absent`. -/
theorem bufDestroyResult : Obligations.BufDestroyResult := by
  intro s sel
  cases hlive : (s.buf sel).live with
  | true => exact ⟨(s.setBuf sel .absent).respond .done, if_pos hlive, rfl, fun _ => by simp [BufUnit.absent], nofun⟩
  | false => exact ⟨s.respond .done, if_neg (by simp [hlive]), rfl, nofun, fun _ => rfl⟩

/-! ### BUF_WRITE -/

/-- The reject test of a write, cause by cause (R113). -/
theorem BufUnit.rejectsWrite_iff {b : BufUnit} {n : Nat} {present : Bool} :
    b.rejectsWrite n present = true ↔ b.live = false ∨ n = 0 ∨ present = false ∨ b.cap.toNat ≤ n := by
  simp [BufUnit.rejectsWrite, or_assoc]

/-- The forms that pass the reject test (R113). -/
theorem BufUnit.rejectsWrite_eq_false {b : BufUnit} {n : Nat} (hlive : b.live = true) (hpos : 0 < n)
    (hcap : n < b.cap.toNat) : b.rejectsWrite n true = false := by
  simp [BufUnit.rejectsWrite, hlive, hpos.ne', hcap]

/-- A write that its reject test stops changes nothing, whatever the payload (R86, R113). -/
theorem execBufWrite_of_rejects {s : State} {sel : Sel} {len : Word} {src : Option (List Byte)}
    (h : (s.buf sel).rejectsWrite len.toNat src.isSome = true) :
    execBufWrite sel len src s = .next (s.respond (.failure .ok)) := if_pos h

/-- An accepted write of a payload of the stated length stores it in the unit (R113). -/
theorem execBufWrite_of_store {s : State} {sel : Sel} {len : Word} {bytes : List Byte} {c : BufUnit}
    (hacc : (s.buf sel).rejectsWrite len.toNat true = false) (hlen : bytes.length = len.toNat)
    (hs : (s.buf sel).store bytes = .ok c) :
    execBufWrite sel len (some bytes) s = .next ((s.setBuf sel c).respond (.wrote len.toNat)) := by
  simp [execBufWrite, hacc, withPayload_of_length hlen, hs]

/-- Byte `a` of a region after the used range was zeroed and a sequence stored from offset 0 (R113). -/
theorem Memory.read_writeBytes_zero {m : Memory} (hm : m.wf) (lo hi : Nat) (v : List Byte) (a : Nat) :
    ((m.zero lo hi).writeBytes 0 v).read a =
      if a < v.length then v.getD a 0 else if lo ≤ a ∧ a < hi then 0 else m.read a := by
  simp [Memory.read_writeBytes (Memory.zero_wf hm lo hi), Memory.read_zero]

section
variable {p : Params} {b c : BufUnit} {bytes : List Byte}

/-- The overwrite branch of R113: the used range is zeroed and the bytes stand from offset 0 on. -/
theorem BufUnit.Inv.store_overwrite_effect (h : b.Inv p) (hs : b.store bytes = .ok c)
    (hfull : b.cap.toNat - (b.tail.toNat - b.head.toNat) < bytes.length) :
    (c.live = b.live ∧ c.cap = b.cap ∧ c.head = 0 ∧ c.tail = BitVec.ofNat 32 bytes.length)
      ∧ ∀ a, c.region.read a = if a < bytes.length then bytes.getD a 0
          else if b.head.toNat ≤ a ∧ a < b.tail.toNat then 0 else b.region.read a := by
  obtain ⟨-, ⟨hwf, -⟩, -⟩ := h
  obtain ⟨-, ⟨-, -, -, rfl⟩ | ⟨hfits, -⟩⟩ := BufUnit.store_eq_ok.mp hs
  · exact ⟨⟨rfl, rfl, rfl, rfl⟩, Memory.read_writeBytes_zero hwf _ _ _⟩
  · simp [BufUnit.overwrites, hfull] at hfits

/-- The append branch of R113: the bytes stand from `tail` on, which advances by their number. -/
theorem BufUnit.Inv.store_append_effect (h : b.Inv p) (hs : b.store bytes = .ok c)
    (hfits : bytes.length ≤ b.cap.toNat - (b.tail.toNat - b.head.toNat)) :
    (c.live = b.live ∧ c.cap = b.cap ∧ c.head = b.head ∧ c.tail.toNat = b.tail.toNat + bytes.length)
      ∧ ∀ a, c.region.read a = if b.tail.toNat ≤ a ∧ a < b.tail.toNat + bytes.length then bytes.getD (a - b.tail.toNat) 0
          else b.region.read a := by
  obtain ⟨-, ⟨hwf, -⟩, -⟩ := h
  obtain ⟨-, ⟨hfull, -⟩ | ⟨-, hend, rfl⟩⟩ := BufUnit.store_eq_ok.mp hs
  · simp [BufUnit.overwrites, Nat.not_lt.mpr hfits] at hfull
  · have hbound := b.cap.isLt
    exact ⟨⟨rfl, rfl, rfl, Nat.mod_eq_of_lt (by omega)⟩, Memory.read_writeBytes hwf _ _⟩

end

/-- Settles O20: an accepted write is `store`, whose two branches are the two effects above. -/
theorem bufWriteResult : Obligations.BufWriteResult := by
  intro s sel len src
  refine ⟨fun hrej => execBufWrite_of_rejects (BufUnit.rejectsWrite_iff.mpr (by simpa using hrej)), ?_⟩
  rintro bytes hinv rfl hlen hlive hpos hcap
  obtain ⟨c, hs⟩ := (hinv.buf sel).store_total (hlen ▸ hcap)
  refine ⟨_, execBufWrite_of_store (BufUnit.rejectsWrite_eq_false hlive hpos hcap) hlen hs, ?_⟩
  simp only [State.respond_rsp, State.respond_buf, State.setBuf_buf, Response.wrote_of_pos hpos, true_and]
  by_cases hfull : (s.buf sel).cap.toNat - ((s.buf sel).tail.toNat - (s.buf sel).head.toNat) < len.toNat
  · obtain ⟨⟨hclive, hccap, hhead, htail⟩, hread⟩ := (hinv.buf sel).store_overwrite_effect hs (hlen ▸ hfull)
    refine ⟨⟨hclive.trans hlive, hccap⟩, fun _ => ⟨hhead, by simp [htail, hlen], fun k hk => ?_, fun a ha hlo hhi => ?_,
      fun a ha hout => ?_⟩, fun hfits => absurd hfull (Nat.not_lt.mpr hfits)⟩
    · rw [hread, if_pos (hlen ▸ hk)]
    · rw [hread, if_neg (by omega), if_pos ⟨hlo, hhi⟩]
    · rw [hread, if_neg (by omega), if_neg hout]
  · obtain ⟨⟨hclive, hccap, hhead, htail⟩, hread⟩ := (hinv.buf sel).store_append_effect hs (by omega)
    refine ⟨⟨hclive.trans hlive, hccap⟩, fun h => absurd h hfull, fun _ => ⟨hhead, hlen ▸ htail, fun k hk => ?_,
      fun a ha => ?_⟩⟩
    · rw [hread, if_pos (by omega), Nat.add_sub_cancel_left]
    · rw [hread, if_neg (by omega)]

/-! ### BUF_READ -/

section
variable {effect : BufUnit → Nat → Except Fault BufUnit} {s : State} {sel : Sel} {len : Word} {dst : Bool}

theorem exec_bufReadFull : exec (.bufReadFull sel len dst) s = readWith (fun b _ => b.afterFull) sel len dst s := rfl
theorem exec_bufReadPartial :
    exec (.bufReadPartial sel len dst) s = readWith (fun b eff => b.afterPartial eff) sel len dst s := rfl
theorem exec_bufReadPeek : exec (.bufReadPeek sel len dst) s = readWith (fun b _ => .ok b) sel len dst s := rfl

/-- A rejected read of any mode changes nothing (R114). -/
theorem readWith_of_rejects (hinv : s.Inv)
    (h : (s.buf sel).live = false ∨ (s.buf sel).tail.toNat - (s.buf sel).head.toNat = 0 ∨ dst = false ∨ len.toNat = 0) :
    readWith effect sel len dst s = .next (s.respond (.failure .ok)) := by
  have hhead := (hinv.buf sel).head_toNat
  refine readWith_eq_next.mpr (.inl ⟨BufUnit.fetch_eq_ok.mpr ?_, rfl⟩)
  cases hlive : (s.buf sel).live with
  | false => exact .inl ⟨rfl, rfl⟩
  | true => exact .inr ⟨rfl, by omega, .inl ⟨(h.resolve_left (by simp [hlive])).imp_left (by omega), rfl⟩⟩

/-- A performed read of any mode answers the bytes from `head` as they were and applies its effect (R114). -/
theorem readWith_of_performs (hinv : s.Inv) (hlive : (s.buf sel).live = true)
    (hused : (s.buf sel).head.toNat < (s.buf sel).tail.toNat) (hlen : 0 < len.toNat) {eff : Nat} {c : BufUnit}
    (heff : eff = min len.toNat ((s.buf sel).tail.toNat - (s.buf sel).head.toNat))
    (hc : effect (s.buf sel) eff = .ok c) :
    readWith effect sel len true s =
      .next ((s.setBuf sel c).respond (.bytes ((s.buf sel).region.readBytes (s.buf sel).head.toNat eff))) := by
  subst heff
  obtain ⟨⟨-, hcap, -⟩, -⟩ := hinv.buf sel
  refine readWith_eq_next.mpr (.inr ⟨_, c, BufUnit.fetch_eq_ok.mpr (.inr ⟨hlive, hused.le, .inr ?_⟩),
    by rwa [Memory.length_readBytes], rfl⟩)
  exact ⟨hused, rfl, hlen, by omega, rfl⟩

/-- Each read command is `readWith` of an effect that completes under the invariant (R115 to R117). -/
theorem exec_read_eq_readWith (hinv : s.Inv) {i : Instr}
    (hi : i ∈ [Instr.bufReadFull sel len dst, Instr.bufReadPartial sel len dst, Instr.bufReadPeek sel len dst]) :
    ∃ effect, exec i s = readWith effect sel len dst s
      ∧ ∀ eff ≤ (s.buf sel).tail.toNat, ∃ c, effect (s.buf sel) eff = .ok c := by
  simp only [List.mem_cons, List.not_mem_nil, or_false] at hi
  obtain rfl | rfl | rfl := hi
  · exact ⟨_, exec_bufReadFull, fun _ _ => ⟨_, BufUnit.afterFull_eq _⟩⟩
  · exact ⟨_, exec_bufReadPartial, fun _ heff => (hinv.buf sel).afterPartial_total heff⟩
  · exact ⟨_, exec_bufReadPeek, fun _ _ => ⟨_, rfl⟩⟩

end

/-- Settles O21: the three modes share `readWith`, which is rejected or performed. -/
theorem bufReadAnswer : Obligations.BufReadAnswer := by
  intro s sel len dst hinv i hi
  obtain ⟨effect, hexec, htotal⟩ := exec_read_eq_readWith hinv hi
  rw [hexec]
  by_cases hrej : (s.buf sel).live = false ∨ (s.buf sel).tail.toNat - (s.buf sel).head.toNat = 0 ∨ dst = false ∨ len.toNat = 0
  · refine ⟨_, readWith_of_rejects hinv hrej, fun _ => rfl, fun hlive hused hdst hlen => ?_⟩
    simp [hlive, hused.ne', hdst, hlen.ne'] at hrej
  · obtain ⟨hlive, hused, rfl, hlen⟩ :
        (s.buf sel).live = true ∧ (s.buf sel).tail.toNat - (s.buf sel).head.toNat ≠ 0 ∧ dst = true ∧ len.toNat ≠ 0 := by
      simpa using hrej
    obtain ⟨c, hc⟩ := htotal (min len.toNat ((s.buf sel).tail.toNat - (s.buf sel).head.toNat)) (by omega)
    refine ⟨_, readWith_of_performs hinv hlive (by omega) (by omega) rfl hc, fun h => absurd h hrej, fun _ _ _ _ => ?_⟩
    refine ⟨_, Memory.length_readBytes (s.buf sel).region (s.buf sel).head.toNat _, fun k hk => ?_, ?_⟩
    · rw [Memory.length_readBytes] at hk
      exact Memory.getD_readBytes _ _ _ _ hk
    · rw [State.respond_rsp, Response.bytes_of_pos]
      rw [Memory.length_readBytes]
      omega

/-- Settles O22: `afterFull` zeroes from offset 0 to the capacity. -/
theorem bufReadFullEffect : Obligations.BufReadFullEffect := by
  intro s sel len hinv hlive hused hlen
  rw [exec_bufReadFull]
  refine ⟨_, readWith_of_performs hinv hlive hused hlen rfl (BufUnit.afterFull_eq _), ?_⟩
  simp only [State.respond_buf, State.setBuf_buf, and_true]
  refine ⟨hlive, fun a ha => ?_⟩
  rw [Memory.read_zero, if_pos ⟨Nat.zero_le a, ha⟩]

/-- Byte `a` of a region after its bytes from offset `off` on, `n` of them, moved down to offset 0 (R65, R116). -/
theorem Memory.read_writeBytes_readBytes {m : Memory} (hm : m.wf) (off n a : Nat) :
    (m.writeBytes 0 (m.readBytes off n)).read a = if a < n then m.read (off + a) else m.read a := by
  rw [Memory.read_writeBytes hm, Memory.length_readBytes]
  by_cases ha : a < n
  · rw [if_pos (by omega), if_pos ha, Nat.sub_zero, Memory.getD_readBytes _ _ _ _ ha]
  · rw [if_neg (by omega), if_neg ha]

/-- Settles O23: `afterPartial` moves the unread bytes down and stores nothing behind them. -/
theorem bufReadPartialEffect : Obligations.BufReadPartialEffect := by
  intro s sel len hinv hlive hused hlen
  have hhead := (hinv.buf sel).head_toNat
  obtain ⟨⟨-, hcap, -⟩, ⟨hwf, -⟩, -⟩ := hinv.buf sel
  rw [exec_bufReadPartial]
  refine ⟨_, readWith_of_performs hinv hlive hused hlen rfl
    (BufUnit.afterPartial_eq_ok.mpr ⟨hused.le, by omega, rfl⟩), ?_⟩
  rintro u eff rfl rfl
  simp only [State.respond_buf, State.setBuf_buf, true_and]
  refine ⟨⟨hlive, ?_⟩, fun k hk => ?_, fun a ha => ?_⟩
  · have hbound := (s.buf sel).tail.isLt
    rw [BitVec.toNat_ofNat, Nat.mod_eq_of_lt (by omega)]
  · rw [Memory.read_writeBytes_readBytes hwf, if_pos hk]
  · rw [Memory.read_writeBytes_readBytes hwf, if_neg (Nat.not_lt.mpr ha)]

/-- Settles O24: the effect of a peek writes back the unit that was there. -/
theorem bufReadPeekChangesNothing : Obligations.BufReadPeekChangesNothing := by
  intro s sel len dst hinv
  rw [exec_bufReadPeek]
  obtain ⟨r, hfetch⟩ := (hinv.buf sel).fetch_total len.toNat dst
  cases r with
  | none => exact ⟨_, .failure .ok, readWith_eq_next.mpr (.inl ⟨hfetch, rfl⟩), rfl⟩
  | some out =>
    refine ⟨_, .bytes out, readWith_eq_next.mpr (.inr ⟨out, _, hfetch, rfl, rfl⟩), ?_⟩
    rw [State.setBuf_same]
    rfl

/-! ### BUF_CLEAR -/

/-- What a clear leaves of a unit under the invariant (R118). -/
theorem BufUnit.Inv.cleared_effect {p : Params} {b c : BufUnit} (h : b.Inv p) (hc : b.cleared = .ok c) :
    (c.live = b.live ∧ c.cap = b.cap ∧ c.head = b.head ∧ c.tail = b.head)
      ∧ (∀ a, c.region.read a = if b.head.toNat ≤ a ∧ a < b.tail.toNat then 0 else b.region.read a)
      ∧ (b.tail = b.head → c = b) := by
  have hhead := h.head_toNat
  obtain ⟨hlt, -, rfl⟩ | ⟨hle, rfl⟩ := BufUnit.cleared_eq_ok.mp hc
  · exact ⟨⟨rfl, rfl, rfl, rfl⟩, Memory.read_zero _ _ _, fun he => absurd hlt (by simp [he])⟩
  · have hempty : b.tail = b.head := BitVec.eq_of_toNat_eq (by omega)
    exact ⟨⟨rfl, rfl, rfl, hempty⟩, fun a => (if_neg (by omega)).symm, fun _ => rfl⟩

/-- Settles O25: a live unit is `cleared`, which completes under the invariant. -/
theorem bufClearResult : Obligations.BufClearResult := by
  intro s sel hinv
  cases hlive : (s.buf sel).live with
  | false => exact ⟨s.respond (.failure .ok), if_pos hlive, fun _ => rfl, nofun⟩
  | true =>
    obtain ⟨c, hc⟩ := (hinv.buf sel).cleared_total
    obtain ⟨⟨hclive, hcap, hhead, htail⟩, hread, hempty⟩ := (hinv.buf sel).cleared_effect hc
    refine ⟨(s.setBuf sel c).respond .done, by simp [exec, execBufClear, hlive, hc], nofun, fun _ => ⟨rfl, ?_⟩⟩
    simp only [State.respond_buf, State.setBuf_buf]
    refine ⟨⟨hclive.trans hlive, hcap, hhead, htail⟩, fun a hlo hhi => ?_, fun a hout => ?_, hempty⟩
    · rw [hread, if_pos ⟨hlo, hhi⟩]
    · rw [hread, if_neg hout]

end Sys2Proof.Machine
end

section
/-! SUPPORT. The Packet Codec commands that read one register (41_packet_codec.md): when PKT_SERIALIZE fails, what it answers
otherwise (R145), and what PKT_DESTROY leaves (R155). -/

namespace Sys2Proof.Machine

/-! ### PKT_SERIALIZE -/

/-- When `Serialize` gives FAIL: its four tests, of which the first to hold answers (R145). -/
theorem serialize_eq_none {p : Params} {k : Packet} :
    serialize p k = .ok none ↔
      k.valid = false ∨ (0 < k.dataSize.toNat ∧ k.bodyValid = false) ∨ 2 ^ 32 - 1 < 18 + k.dataSize.toNat
        ∨ 18 + p.maxBody < 18 + k.dataSize.toNat := by
  simp only [serialize, ← ite_or]
  split
  · next hfail => exact iff_of_true rfl hfail
  · next hpass => split <;> exact iff_of_false nofun hpass

/-- `Serialize` of a packet whose body is all there gives FAIL or the whole frame (R145, "all-or-nothing"). -/
theorem serialize_total (p : Params) {k : Packet} (hbody : k.dataSize.toNat ≤ k.body.length) :
    serialize p k = .ok none ∨ serialize p k = .ok (some (frameOf p.endian k)) := by
  simp only [serialize, ← ite_or]
  split
  · exact .inl rfl
  · exact .inr (if_neg (Nat.not_lt.mpr hbody))

/-- PKT_SERIALIZE of a register that fails changes nothing but the response (R145). -/
theorem exec_pktSerialize_of_fail {s : State} {ps : PktIdx} {k : Packet} (hk : s.pkt ps = some k)
    (h : serialize s.params k = .ok none) : exec (.pktSerialize ps) s = .next (s.respond (.failure .ok)) := by
  rw [exec, execPktSerialize, withPkt_of_some hk, h]
  rfl

/-- PKT_SERIALIZE of a register that has a frame answers the frame (R145). -/
theorem exec_pktSerialize_of_frame {s : State} {ps : PktIdx} {k : Packet} {f : List Byte} (hk : s.pkt ps = some k)
    (h : serialize s.params k = .ok (some f)) : exec (.pktSerialize ps) s = .next (s.respond (.bytes f)) := by
  rw [exec, execPktSerialize, withPkt_of_some hk, h]
  rfl

/-- The answer that carries a frame: its size is the count (R90, R73). -/
theorem Response.bytes_frameOf (e : Endian) {k : Packet} (hbody : k.dataSize.toNat ≤ k.body.length) :
    Response.bytes (frameOf e k) = ⟨true, .ok, BitVec.ofNat 32 (18 + k.dataSize.toNat), frameOf e k⟩ := by
  have hlen := frameOf_length e k hbody
  rw [Response.bytes_of_pos (by omega), hlen]

/-- Settles O32: with the body all there `Serialize` gives FAIL or the frame, and what it gives decides which tests held. -/
theorem pktSerializeResult : Obligations.PktSerializeResult := by
  intro s ps k hk hbody
  obtain hfail | hframe := serialize_total s.params hbody
  · refine ⟨_, exec_pktSerialize_of_fail hk hfail, fun _ => rfl, fun hvalid hpresent htotal hmax => ?_⟩
    have hframe := serialize_eq_some.mpr ⟨⟨hvalid, hpresent, htotal⟩, hmax, hbody, rfl⟩
    exact nomatch hfail.symm.trans hframe
  · refine ⟨_, exec_pktSerialize_of_frame hk hframe, fun htest => ?_, fun _ _ _ _ => ⟨_, rfl, ?_⟩⟩
    · exact nomatch hframe.symm.trans (serialize_eq_none.mpr htest)
    · rw [Response.bytes_frameOf _ hbody]
      rfl

/-! ### PKT_DESTROY -/

/-- Writing back what a register holds changes nothing. -/
theorem State.setPkt_same {s : State} {i : PktIdx} {k : Packet} (h : s.pkt i = some k) : s.setPkt i k = s := by
  obtain ⟨hlt, hget⟩ := List.getElem?_eq_some_iff.mp h
  rw [State.setPkt, ← hget, List.set_getElem_self]

/-- PKT_DESTROY writes ABSENT to a register of the block and completes (R155). -/
theorem exec_pktDestroy {s : State} {ps : PktIdx} (h : ps.val < s.pkts.length) :
    exec (.pktDestroy ps) s = .next ((s.setPkt ps .absent).respond .done) := by
  obtain ⟨k, hk⟩ := State.pkt_isSome_of_lt h
  exact withPkt_of_some hk _

/-- Settles O34: the register reads back the ABSENT written to it, and ABSENT over ABSENT changes nothing. -/
theorem pktDestroyResult : Obligations.PktDestroyResult := by
  intro s ps hps
  refine ⟨_, exec_pktDestroy hps, s.setPkt_pkt hps .absent, rfl, fun habsent => ?_⟩
  rw [State.setPkt_same habsent]
  rfl

end Sys2Proof.Machine
end

section
/-! SUPPORT. The Instance commands (42_instance.md): the units of an endpoint just opened or closed, and what INST_CREATE and
INST_CLOSE answer. -/

namespace Sys2Proof.Machine

/-! ### The units of an endpoint just opened or closed -/

/-- Both units of an endpoint just opened are as BUF_CREATE makes them (R170). -/
@[simp] theorem State.openEndpoint_buf (s : State) (c : EndpointCfg) (sel : Sel) :
    (s.openEndpoint c).buf sel = .fresh c.bufferSize := by cases sel <;> rfl

/-- Both units of a closed endpoint are as BUF_DESTROY leaves them (R171). -/
@[simp] theorem State.closeEndpoint_buf (s : State) (sel : Sel) : s.closeEndpoint.buf sel = .absent := by
  cases sel <;> rfl

/-! ### INST_CREATE -/

/-- Without a configuration of a size the block can give, INST_CREATE changes nothing but the response (R170). -/
theorem exec_instCreate_of_fail {s : State} {config : Option EndpointCfg}
    (h : ∀ c, config = some c → c.bufferSize.toNat = 0 ∨ s.params.maxCap < c.bufferSize.toNat) :
    exec (.instCreate config) s = .next (s.respond (.failure .ok)) :=
  execInstCreate_eq_next.mpr (.inr ⟨h, rfl⟩)

/-- With a configuration of a size the block can give, INST_CREATE opens the endpoint (R170). -/
theorem exec_instCreate_of_size {s : State} {c : EndpointCfg}
    (h : 0 < c.bufferSize.toNat ∧ c.bufferSize.toNat ≤ s.params.maxCap) :
    exec (.instCreate (some c)) s = .next ((s.openEndpoint c).respond .done) :=
  execInstCreate_eq_next.mpr (.inl ⟨c, rfl, h, rfl⟩)

/-- Settles O38: the configuration is absent, of a bad size, or opens the endpoint with both units `BufUnit.fresh`. -/
theorem instCreateResult : Obligations.InstCreateResult := by
  rintro s (_ | c)
  · exact ⟨_, exec_instCreate_of_fail nofun, fun _ => rfl, nofun⟩
  by_cases hsize : 0 < c.bufferSize.toNat ∧ c.bufferSize.toNat ≤ s.params.maxCap
  · refine ⟨_, exec_instCreate_of_size hsize, nofun, ?_⟩
    rintro _ ⟨⟩
    refine ⟨fun hbad => by omega, fun _ _ => ⟨⟨rfl, rfl, rfl, rfl⟩, fun sel => ?_⟩⟩
    rw [State.respond_buf, State.openEndpoint_buf]
    exact ⟨⟨rfl, rfl, rfl, rfl⟩, Memory.read_blank⟩
  · have hbad : c.bufferSize.toNat = 0 ∨ s.params.maxCap < c.bufferSize.toNat := by omega
    refine ⟨_, exec_instCreate_of_fail (by rintro _ ⟨⟩; exact hbad), nofun, ?_⟩
    rintro _ ⟨⟩
    exact ⟨fun _ => rfl, fun hpos hle => absurd ⟨hpos, hle⟩ hsize⟩

/-! ### INST_CLOSE -/

/-- INST_CLOSE of a live endpoint closes it (R171). -/
theorem exec_instClose_of_live {s : State} (h : s.instLive = true) :
    exec .instClose s = .next (s.closeEndpoint.respond .done) :=
  execInstClose_eq_next.mpr (.inl ⟨h, rfl⟩)

/-- INST_CLOSE without an endpoint changes nothing but the response (R171). -/
theorem exec_instClose_of_not_live {s : State} (h : s.instLive = false) :
    exec .instClose s = .next (s.respond .done) :=
  execInstClose_eq_next.mpr (.inr ⟨h, rfl⟩)

/-- Settles O39: a live endpoint is closed, both units `BufUnit.absent`; without one only the response changes. -/
theorem instCloseResult : Obligations.InstCloseResult := by
  intro s
  obtain hlive | hlive := Bool.eq_false_or_eq_true s.instLive
  · refine ⟨_, exec_instClose_of_live hlive, rfl, rfl, fun _ => ⟨rfl, rfl, fun sel => ?_⟩,
      fun hdead => absurd hlive (Bool.eq_false_iff.mp hdead)⟩
    rw [State.respond_buf, State.closeEndpoint_buf]
    rfl
  · exact ⟨_, exec_instClose_of_not_live hlive, rfl, rfl, fun h => absurd h (Bool.eq_false_iff.mp hlive), fun _ => rfl⟩

end Sys2Proof.Machine
end

section
/-! SUPPORT. The I/O Facade commands (43_io_facade.md): which test of WRITE_PACKET answers and what its frame leaves in `OUT`
(R180), what READ_PACKET consumes and where its packet goes (R181). -/

namespace Sys2Proof.Machine

/-! ### The sending of a frame -/

/-- The frame that `Serialize` makes is not empty: it starts with the marker (R70). -/
theorem serialize_ne_nil {p : Params} {k : Packet} {f : List Byte} (h : serialize p k = .ok (some f)) : f ≠ [] := by
  obtain ⟨-, -, -, rfl⟩ := serialize_eq_some.mp h
  simp [frameOf]

/-- A frame of at least the capacity of `OUT` changes nothing but the response: above the capacity the first test stops it, at
the capacity the Byte Buffer write rejects it and the re-verification sees that (R113, R180). -/
theorem sendFrame_of_cap_le {s : State} {f : List Byte} (hf : f ≠ []) (hcap : s.bufOut.cap.toNat ≤ f.length) :
    sendFrame s f = .next (s.respond (.failure .bufferFailure)) :=
  (sendFrame_eq_next hf).mpr (.inl ⟨.inr (BufUnit.rejectsWrite_iff.mpr (.inr (.inr (.inr hcap)))), rfl⟩)

/-- A frame that the Byte Buffer write accepts is stored in `OUT` and answered OK (R180). -/
theorem sendFrame_of_store {s : State} {f : List Byte} {c : BufUnit} (hf : f ≠ []) (hcap : f.length < s.bufOut.cap.toNat)
    (hacc : s.bufOut.rejectsWrite f.length true = false) (hs : s.bufOut.store f = .ok c) :
    sendFrame s f = .next ((s.setBuf .output c).respond (.ofStatus .ok)) :=
  (sendFrame_eq_next hf).mpr (.inr ⟨hcap.le, hacc, c, hs, rfl⟩)

/-! ### WRITE_PACKET -/

section
variable {s : State} {ps : PktIdx} {k : Packet}

/-- Without an instance, a packet or `OUT`, WRITE_PACKET changes nothing but the response (R180). -/
theorem exec_writePacket_of_absent (hk : s.pkt ps = some k)
    (h : s.instLive = false ∨ k.valid = false ∨ s.bufOut.live = false) :
    exec (.writePacket ps) s = .next (s.respond (.failure .undefined)) := by
  rw [exec, execWritePacket, withPkt_of_some hk, if_pos h]
  rfl

/-- With all three there, what `Serialize` gives decides (R180). -/
theorem exec_writePacket_of_present (hk : s.pkt ps = some k)
    (h : ¬(s.instLive = false ∨ k.valid = false ∨ s.bufOut.live = false)) {r : Option (List Byte)}
    (hr : serialize s.params k = .ok r) :
    exec (.writePacket ps) s = r.elim (s.raise .invalidPacket) (sendFrame s) := by
  rw [exec, execWritePacket, withPkt_of_some hk, if_neg h, hr]
  cases r <;> rfl

end

/-- Settles O41: the tests in their order; past them the frame is stored as BUF_WRITE stores it, and only the response
differs. -/
theorem writePacketResult : Obligations.WritePacketResult := by
  intro s ps k r hinv hk hr
  by_cases habsent : s.instLive = false ∨ k.valid = false ∨ s.bufOut.live = false
  · refine ⟨_, exec_writePacket_of_absent hk habsent, fun _ => rfl, fun hinst hvalid hlive => ?_⟩
    simp [hinst, hvalid, hlive] at habsent
  rw [exec_writePacket_of_present hk habsent hr]
  cases r with
  | none => exact ⟨_, rfl, fun h => absurd h habsent, fun _ _ _ => ⟨fun _ => rfl, nofun⟩⟩
  | some f =>
    have hf := serialize_ne_nil hr
    by_cases hcap : f.length < s.bufOut.cap.toNat
    · have hlive : s.bufOut.live = true := Bool.of_not_eq_false fun h => habsent (.inr (.inr h))
      have hacc := BufUnit.rejectsWrite_eq_false hlive (List.length_pos_iff.mpr hf) hcap
      have hlen : (BitVec.ofNat 32 f.length).toNat = f.length := Nat.mod_eq_of_lt (hcap.trans s.bufOut.cap.isLt)
      obtain ⟨c, hs⟩ := hinv.store_total hcap
      refine ⟨_, sendFrame_of_store hf hcap hacc hs, fun h => absurd h habsent, fun _ _ _ => ⟨nofun, ?_⟩⟩
      rintro _ ⟨⟩
      exact ⟨fun hle => absurd hcap (Nat.not_lt.mpr hle),
        fun _ => ⟨_, execBufWrite_of_store (by rwa [hlen]) hlen.symm hs, rfl⟩⟩
    · refine ⟨_, sendFrame_of_cap_le hf (Nat.le_of_not_lt hcap), fun h => absurd h habsent, fun _ _ _ => ⟨nofun, ?_⟩⟩
      rintro _ ⟨⟩
      exact ⟨fun _ => rfl, fun hlt => absurd hlt hcap⟩

/-! ### READ_PACKET -/

/-- A command that returns a packet, in one form: the register gets the packet or ABSENT, and `ok` says which (R140). -/
theorem returnPacket_eq (s : State) (pd : PktIdx) (r : Option Packet) :
    returnPacket s pd r = .next ((s.setPkt pd (r.getD .absent)).respond ⟨r.isSome, .ok, 0, []⟩) := by
  cases r <;> rfl

section
variable {s : State} {pd : PktIdx}

/-- Without an instance or a live `IN`, or with `IN` empty, READ_PACKET returns no packet (R181). -/
theorem exec_readPacket_of_nothing (hpd : pd.val < s.pkts.length)
    (h : s.instLive = false ∨ s.bufIn.live = false ∨ s.bufIn.tail = s.bufIn.head) :
    exec (.readPacket pd) s = returnPacket s pd none := by
  obtain ⟨k, hk⟩ := State.pkt_isSome_of_lt hpd
  rw [exec, execReadPacket, withPkt_of_some hk]
  by_cases habsent : s.instLive = false ∨ s.bufIn.live = false
  · exact if_pos habsent
  · have hempty : s.bufIn.tail = s.bufIn.head := (or_assoc.mpr h).resolve_left habsent
    have hused : s.bufIn.used = .ok 0 := BufUnit.used_eq_ok.mpr ⟨by rw [hempty], by rw [hempty, Nat.sub_self]⟩
    rw [if_neg habsent, hused]
    rfl

/-- READ_PACKET of a live `IN` that holds bytes consumes and parses them all (R181). -/
theorem exec_readPacket_of_used (hpd : pd.val < s.pkts.length) (hinst : s.instLive = true) (hlive : s.bufIn.live = true)
    (hused : s.bufIn.head.toNat < s.bufIn.tail.toNat) (hcap : s.bufIn.tail.toNat ≤ s.bufIn.cap.toNat) :
    exec (.readPacket pd) s =
      returnPacket (s.setBuf .input { s.bufIn with tail := s.bufIn.head }) pd
        (deserialize s.params s.bufIn.contents) := by
  obtain ⟨k, hk⟩ := State.pkt_isSome_of_lt hpd
  have hcount := BufUnit.used_eq_ok.mpr ⟨hused.le, rfl⟩
  have hbytes : s.bufIn.peek s.bufIn.head.toNat (s.bufIn.tail.toNat - s.bufIn.head.toNat) = .ok s.bufIn.contents :=
    BufUnit.peek_eq_ok.mpr ⟨by omega, rfl⟩
  rw [exec, execReadPacket, withPkt_of_some hk, if_neg (by simp [hinst, hlive]), hcount, orFault_ok, if_neg (by omega),
    hbytes, orFault_ok]

end

/-- Settles O42: nothing to read, or under the invariant the used range lies inside the region and is parsed whole. -/
theorem readPacketResult : Obligations.ReadPacketResult := by
  intro s pd hinv hpd
  by_cases hnothing : s.instLive = false ∨ s.bufIn.live = false ∨ s.bufIn.tail = s.bufIn.head
  · rw [exec_readPacket_of_nothing hpd hnothing, returnPacket_eq]
    refine ⟨_, rfl, fun _ => rfl, fun hinst hlive hne => ?_⟩
    simp [hinst, hlive, hne] at hnothing
  · obtain ⟨hinst, hlive, hne⟩ : s.instLive = true ∧ s.bufIn.live = true ∧ s.bufIn.tail ≠ s.bufIn.head := by
      simpa using hnothing
    have hhead := (hinv.buf .input).head_toNat
    obtain ⟨⟨-, hcap, -⟩, -⟩ := hinv.buf .input
    have hused : s.bufIn.head.toNat < s.bufIn.tail.toNat :=
      lt_of_le_of_ne (hhead.trans_le (Nat.zero_le _)) fun heq => hne (BitVec.eq_of_toNat_eq heq.symm)
    rw [exec_readPacket_of_used hpd hinst hlive hused hcap, returnPacket_eq]
    exact ⟨_, rfl, fun h => absurd h hnothing, fun _ _ _ => rfl⟩

end Sys2Proof.Machine
end

section
/-! SUPPORT. Failures (60_exceptions.md): a command on registers the block has is granted with status OK, or it fails with a
code of its own and leaves the state its rule lists (R194, R195, R201, R202). -/

namespace Sys2Proof.Machine

/-! ### What a failure leaves, and with which codes -/

/-- The block has every packet register that the command names (R96). -/
def State.hasRegister (s : State) (i : Instr) : Bool := i.indexOk { s.params with nPkt := s.pkts.length }

/-- READ_PACKET gets as far as reading: an instance, a live `IN`, and bytes in it (R181). -/
abbrev State.ReadsInput (s : State) : Prop :=
  s.instLive = true ∧ s.bufIn.live = true ∧ s.bufIn.tail ≠ s.bufIn.head

/-- The state after READ_PACKET has read, if it does: `IN` consumed whole (R181). -/
def State.inputConsumed (s : State) : State :=
  if s.ReadsInput then s.setBuf .input { s.bufIn with tail := s.bufIn.head } else s

/-- What a failing command leaves besides its response: "either no effect on state or exactly the effect its rule lists"
(R201, R202). -/
def State.failed (s : State) : Instr → State
  | .pktConstruct pd _ _ _ _ => s.setPkt pd .absent
  | .pktDeserialize pd _ _ => s.setPkt pd .absent
  | .readPacket pd => s.inputConsumed.setPkt pd .absent
  | _ => s

/-- The status codes of a failure on registers the block has (R194, R195). -/
def failureCodes : Instr → List Status
  | .writePacket _ => [.undefined, .invalidPacket, .bufferFailure]
  | _ => [.ok]

theorem State.inputConsumed_of_reads {s : State} (h : s.ReadsInput) :
    s.inputConsumed = s.setBuf .input { s.bufIn with tail := s.bufIn.head } := if_pos h

theorem State.inputConsumed_of_not_reads {s : State} (h : ¬s.ReadsInput) : s.inputConsumed = s := if_neg h

/-- Writing a register the block does not have changes nothing. -/
theorem State.setPkt_of_le {s : State} {i : PktIdx} (h : s.pkts.length ≤ i.val) (k : Packet) : s.setPkt i k = s := by
  rw [State.setPkt, List.set_eq_of_length_le h]

theorem invalidConnection_notMem_failureCodes (i : Instr) : .invalidConnection ∉ failureCodes i := by
  unfold failureCodes
  split <;> decide

theorem ok_notMem_failureCodes_writePacket (ps : PktIdx) : .ok ∉ failureCodes (.writePacket ps) := by
  rw [failureCodes]
  decide

theorem failureCodes_of_ne_writePacket {i : Instr} (h : ∀ ps, i ≠ .writePacket ps) : failureCodes i = [.ok] := by
  cases i with
  | writePacket ps => exact absurd rfl (h ps)
  | _ => rfl

/-! ### Granted or failed, operation by operation -/

/-- The response of the state is a success with status OK. -/
def State.Granted (t : State) : Prop := ∃ r, t.rsp = some r ∧ r.ok = true ∧ r.status = .ok

/-- An outcome that, when it completes, is granted, or fails with one of `codes` and leaves `u` but for the response. -/
def GrantedOrFailed (codes : List Status) (u : State) (o : Host.Outcome State Fault Refusal) : Prop :=
  ∀ t, o = .next t → t.Granted ∨ ∃ st ∈ codes, u.respond (.failure st) = t

namespace GrantedOrFailed

variable {codes : List Status} {u s : State}

theorem respond {r : Response} (hok : r.ok = true) (hst : r.status = .ok) :
    GrantedOrFailed codes u (.next (s.respond r)) := by
  rintro _ ⟨⟩
  exact .inl ⟨r, rfl, hok, hst⟩

theorem raise {st : Status} (h : st ∈ codes) : GrantedOrFailed codes u (u.raise st) := by
  rintro _ ⟨⟩
  exact .inr ⟨st, h, rfl⟩

theorem raise_ok : GrantedOrFailed [.ok] u (u.raise .ok) := raise (List.mem_singleton_self _)

theorem ite {p : Prop} [Decidable p] {a b : Host.Outcome State Fault Refusal} (ha : p → GrantedOrFailed codes u a)
    (hb : ¬p → GrantedOrFailed codes u b) : GrantedOrFailed codes u (if p then a else b) := by
  split
  · next h => exact ha h
  · next h => exact hb h

theorem orFault {α : Type} {r : Except Fault α} {k : α → Host.Outcome State Fault Refusal}
    (h : ∀ a, r = .ok a → GrantedOrFailed codes u (k a)) : GrantedOrFailed codes u (orFault r k) := by
  intro t ht
  obtain ⟨a, ha, hk⟩ := orFault_eq_next.mp ht
  exact h a ha t hk

theorem withPayload {n : Nat} {bytes : List Byte} {k : List Byte → Host.Outcome State Fault Refusal}
    (h : GrantedOrFailed codes u (k bytes)) : GrantedOrFailed codes u (withPayload n bytes k) :=
  fun t ht => h t (withPayload_eq_next.mp ht).2

theorem withPkt {i : PktIdx} {k : Packet → Host.Outcome State Fault Refusal} (hi : decide (i.val < s.pkts.length) = true)
    (h : ∀ p, GrantedOrFailed codes u (k p)) : GrantedOrFailed codes u (withPkt s i k) := by
  obtain ⟨p, hp⟩ := State.pkt_isSome_of_lt (of_decide_eq_true hi)
  rw [withPkt_of_some hp]
  exact h p

theorem returnPacket {pd : PktIdx} {r : Option Packet} :
    GrantedOrFailed [.ok] (s.setPkt pd .absent) (returnPacket s pd r) := by
  cases r with
  | none => exact raise_ok
  | some k => exact respond rfl rfl

end GrantedOrFailed

/-! ### The commands that return bytes, and the sending of a frame -/

/-- A read that is not rejected copies at least one byte (R114). -/
theorem BufUnit.length_pos_of_fetch {b : BufUnit} {q : Nat} {dst : Bool} {out : List Byte}
    (h : b.fetch q dst = .ok (some out)) : 0 < out.length := by
  obtain ⟨-, ⟨⟩⟩ | ⟨-, -, ⟨-, ⟨⟩⟩ | ⟨hused, -, hq, -, ⟨⟩⟩⟩ := BufUnit.fetch_eq_ok.mp h
  rw [Memory.length_readBytes]
  omega

theorem readWith_grantedOrFailed (effect : BufUnit → Nat → Except Fault BufUnit) (sel : Sel) (len : Word) (dst : Bool)
    (s : State) : GrantedOrFailed [.ok] s (readWith effect sel len dst s) := by
  refine .orFault fun r hr => ?_
  cases r with
  | none => exact .raise_ok
  | some out => exact .orFault fun _ _ => .respond (decide_eq_true (BufUnit.length_pos_of_fetch hr)) rfl

/-- A frame not taken leaves the unit as it was, also where the re-verification finds out (R180). -/
theorem sendFrame_grantedOrFailed {codes : List Status} (hcode : .bufferFailure ∈ codes) {s : State} {f : List Byte}
    (hf : f ≠ []) : GrantedOrFailed codes s (sendFrame s f) := by
  intro t ht
  obtain ⟨-, rfl⟩ | ⟨-, -, c, -, rfl⟩ := (sendFrame_eq_next hf).mp ht
  · exact .inr ⟨_, hcode, rfl⟩
  · exact .inl ⟨_, rfl, rfl, rfl⟩

/-! ### The commands -/

section
variable {s : State}

theorem execBufWrite_grantedOrFailed (sel : Sel) (len : Word) (src : Option (List Byte)) :
    GrantedOrFailed [.ok] s (execBufWrite sel len src s) := by
  refine .ite (fun _ => .raise_ok) fun hacc => .withPayload (.orFault fun _ _ => .respond ?_ rfl)
  have hlen : len.toNat ≠ 0 := fun h => hacc (BufUnit.rejectsWrite_iff.mpr (.inr (.inl h)))
  exact decide_eq_true (Nat.pos_of_ne_zero hlen)

theorem execPktConstruct_grantedOrFailed {pd : PktIdx} (hpd : decide (pd.val < s.pkts.length) = true)
    (len type rnd : Word) (data : Option (List Byte)) :
    GrantedOrFailed [.ok] (s.setPkt pd .absent) (execPktConstruct pd len type rnd data s) := by
  refine .withPkt hpd fun _ => .ite (fun _ => .returnPacket) fun _ => .ite (fun _ => .returnPacket) fun _ => ?_
  cases data with
  | none => exact .returnPacket
  | some bytes => exact .withPayload .returnPacket

theorem execPktDeserialize_grantedOrFailed {pd : PktIdx} (hpd : decide (pd.val < s.pkts.length) = true) (len : Word)
    (bytes : Option (List Byte)) :
    GrantedOrFailed [.ok] (s.setPkt pd .absent) (execPktDeserialize pd len bytes s) := by
  refine .withPkt hpd fun _ => ?_
  cases bytes with
  | none => exact .returnPacket
  | some b => exact .ite (fun _ => .returnPacket) fun _ => .withPayload .returnPacket

theorem execPktSerialize_grantedOrFailed {ps : PktIdx} (hps : decide (ps.val < s.pkts.length) = true) :
    GrantedOrFailed [.ok] s (execPktSerialize ps s) := by
  refine .withPkt hps fun k => .orFault fun r hr => ?_
  cases r with
  | none => exact .raise_ok
  | some f => exact .respond (decide_eq_true (List.length_pos_iff.mpr (serialize_ne_nil hr))) rfl

theorem execInstCreate_grantedOrFailed (config : Option EndpointCfg) :
    GrantedOrFailed [.ok] s (execInstCreate config s) := by
  intro t ht
  obtain ⟨k, -, -, rfl⟩ | ⟨-, rfl⟩ := execInstCreate_eq_next.mp ht
  · exact .inl ⟨_, rfl, rfl, rfl⟩
  · exact .inr ⟨_, List.mem_singleton_self _, rfl⟩

theorem execWritePacket_grantedOrFailed {ps : PktIdx} (hps : decide (ps.val < s.pkts.length) = true) :
    GrantedOrFailed [.undefined, .invalidPacket, .bufferFailure] s (execWritePacket ps s) := by
  refine .withPkt hps fun k => .ite (fun _ => .raise (by decide)) fun _ => .orFault fun r hr => ?_
  cases r with
  | none => exact .raise (by decide)
  | some f => exact sendFrame_grantedOrFailed (by decide) (serialize_ne_nil hr)

/-- No bytes are used exactly when the cursors meet (R110). -/
theorem BufUnit.used_zero_iff {b : BufUnit} {n : Nat} (h : b.used = .ok n) : n = 0 ↔ b.tail = b.head := by
  obtain ⟨hle, rfl⟩ := BufUnit.used_eq_ok.mp h
  rw [BitVec.toNat_eq]
  omega

/-- Which test of READ_PACKET answers decides whether `IN` has been consumed (R181). -/
theorem execReadPacket_grantedOrFailed {pd : PktIdx} (hpd : decide (pd.val < s.pkts.length) = true) :
    GrantedOrFailed [.ok] (s.inputConsumed.setPkt pd .absent) (execReadPacket pd s) := by
  have hnothing (h : ¬s.ReadsInput) :
      GrantedOrFailed [.ok] (s.inputConsumed.setPkt pd .absent) (returnPacket s pd none) := by
    rw [State.inputConsumed_of_not_reads h]
    exact .returnPacket
  refine .withPkt hpd fun _ => .ite (fun habsent => hnothing ?_) fun hpresent => .orFault fun n hn =>
    .ite (fun hzero => hnothing ?_) fun hpos => .orFault fun f _ => ?_
  · rintro ⟨hinst, hlive, -⟩
    simp [hinst, hlive] at habsent
  · rintro ⟨-, -, hne⟩
    exact hne ((BufUnit.used_zero_iff hn).mp hzero)
  · have hne : s.bufIn.tail ≠ s.bufIn.head := fun hempty => hpos ((BufUnit.used_zero_iff hn).mpr hempty)
    have hreads : s.ReadsInput := by simpa [State.ReadsInput, hne] using hpresent
    rw [State.inputConsumed_of_reads hreads]
    exact .returnPacket

/-- Every command on registers the block has is granted with status OK, or fails with a code of its own and leaves what its
rule lists (R195, R201, R202). -/
theorem exec_grantedOrFailed {i : Instr} (h : s.hasRegister i = true) :
    GrantedOrFailed (failureCodes i) (s.failed i) (exec i s) := by
  cases i with
  | bufCreate sel cap => exact .ite (fun _ => .raise_ok) fun _ => .respond rfl rfl
  | bufUsed sel => exact .ite (fun _ => .raise_ok) fun _ => .orFault fun _ _ => .respond rfl rfl
  | bufWrite sel len src => exact execBufWrite_grantedOrFailed sel len src
  | bufReadFull sel len dst => exact readWith_grantedOrFailed (fun b _ => b.afterFull) sel len dst s
  | bufReadPartial sel len dst => exact readWith_grantedOrFailed BufUnit.afterPartial sel len dst s
  | bufReadPeek sel len dst => exact readWith_grantedOrFailed (fun b _ => .ok b) sel len dst s
  | bufClear sel => exact .ite (fun _ => .raise_ok) fun _ => .orFault fun _ _ => .respond rfl rfl
  | bufDestroy sel => exact .ite (fun _ => .respond rfl rfl) fun _ => .respond rfl rfl
  | pktConstruct pd len type rnd data => exact execPktConstruct_grantedOrFailed h len type rnd data
  | pktSerialize ps => exact execPktSerialize_grantedOrFailed h
  | pktDeserialize pd len bytes => exact execPktDeserialize_grantedOrFailed h len bytes
  | pktDestroy ps => exact .withPkt h fun _ => .respond rfl rfl
  | instCreate config => exact execInstCreate_grantedOrFailed config
  | instClose => exact .ite (fun _ => .respond rfl rfl) fun _ => .respond rfl rfl
  | writePacket ps => exact execWritePacket_grantedOrFailed h
  | readPacket pd => exact execReadPacket_grantedOrFailed h

end

/-! ### A register the block does not have -/

theorem withPkt_of_lacking {s : State} {i : PktIdx} (h : decide (i.val < s.pkts.length) = false)
    (k : Packet → Host.Outcome State Fault Refusal) : withPkt s i k = s.illegal := by
  have hnone : s.pkt i = none := List.getElem?_eq_none (Nat.le_of_not_lt (of_decide_eq_false h))
  rw [withPkt, hnone]

/-- A command on a register the block does not have answers as an illegal word does (R96). -/
theorem exec_of_lacking {s : State} {i : Instr} (h : s.hasRegister i = false) : exec i s = s.illegal := by
  cases i with
  | pktConstruct pd => exact withPkt_of_lacking h _
  | pktSerialize ps => exact withPkt_of_lacking h _
  | pktDeserialize pd => exact withPkt_of_lacking h _
  | pktDestroy ps => exact withPkt_of_lacking h _
  | writePacket ps => exact withPkt_of_lacking h _
  | readPacket pd => exact withPkt_of_lacking h _
  | _ => exact nomatch h

/-! ### The obligations -/

/-- The state a failing command leaves: nothing but the response changed when it names a register the block does not have,
else what its rule lists (R96, R201). -/
theorem exec_failed {s t : State} {i : Instr} {r : Response} (h : exec i s = .next t) (hr : t.rsp = some r)
    (hfail : r.ok = false) :
    (s.hasRegister i = false ∧ t = s.respond r) ∨ (s.hasRegister i = true ∧ t = (s.failed i).respond r) := by
  cases hreg : s.hasRegister i with
  | false =>
    rw [exec_of_lacking hreg, State.illegal_eq_next] at h
    subst h
    cases hr
    exact .inl ⟨rfl, rfl⟩
  | true =>
    obtain ⟨r', hr', hok, -⟩ | ⟨st, -, rfl⟩ := exec_grantedOrFailed hreg t h
    · cases hr.symm.trans hr'
      simp [hfail] at hok
    · cases hr
      exact .inr ⟨rfl, rfl⟩

/-- Settles O46: on a register the block has the state is `State.failed`; on one it does not have the ABSENT write is
void. -/
theorem failureChangesOnlyDestination : Obligations.FailureChangesOnlyDestination := by
  intro s t i r h hr hfail
  obtain ⟨hlacks, rfl⟩ | ⟨hhas, rfl⟩ := exec_failed h hr hfail
  · have hvoid {pd : PktIdx} (hpd : decide (pd.val < s.pkts.length) = false) :
        s.respond r = (s.setPkt pd .absent).respond r := by
      rw [State.setPkt_of_le (Nat.le_of_not_lt (of_decide_eq_false hpd))]
    cases i with
    | pktConstruct pd => exact hvoid hlacks
    | pktDeserialize pd => exact hvoid hlacks
    | readPacket pd => exact ⟨fun _ => hvoid hlacks, fun hpd => absurd hpd (of_decide_eq_false hlacks)⟩
    | _ => rfl
  · cases i with
    | readPacket pd =>
      have hpd : pd.val < s.pkts.length := of_decide_eq_true hhas
      refine ⟨fun hcause => ?_, fun _ hinst hlive hne => ?_⟩
      · have hnot : ¬s.ReadsInput := by
          rintro ⟨hinst, hlive, hne⟩
          simp [Nat.not_le.mpr hpd, hinst, hlive, hne] at hcause
        rw [State.failed, State.inputConsumed_of_not_reads hnot]
        rfl
      · rw [State.failed, State.inputConsumed_of_reads ⟨hinst, hlive, hne⟩]
        rfl
    | _ => rfl

/-- Settles O47: a grant has status OK, a failure one of `failureCodes`, and a register the block does not have is no
register of a legal command. -/
theorem statusOnlyFromWritePacket : Obligations.StatusOnlyFromWritePacket := by
  intro s t i r hlen h hr
  have hindex : s.hasRegister i = i.indexOk s.params := by rw [State.hasRegister, hlen]
  cases hreg : s.hasRegister i with
  | false =>
    rw [exec_of_lacking hreg, State.illegal_eq_next] at h
    subst h
    cases hr
    exact ⟨nofun, fun hlegal => absurd (hindex.trans hlegal) (by simp [hreg]), fun _ _ => by decide⟩
  | true =>
    obtain ⟨r', hr', hok, hst⟩ | ⟨st, hcode, rfl⟩ := exec_grantedOrFailed hreg t h
    · cases hr.symm.trans hr'
      simp [hok, hst]
    · cases hr
      refine ⟨fun hst => invalidConnection_notMem_failureCodes i (hst ▸ hcode), fun _ hne => ?_, ?_⟩
      · rw [failureCodes_of_ne_writePacket hne] at hcode
        exact List.mem_singleton.mp hcode
      · rintro ps rfl
        exact iff_of_false nofun fun hst => ok_notMem_failureCodes_writePacket ps (hst ▸ hcode)

end Sys2Proof.Machine
end

section
/-! SUPPORT. The decoder in one equivalence: which word and which ports a decoded command was read from (R81 to R85, R96).
The statements about `decode` and `encode` follow from it. -/

namespace Sys2Proof

/-! ### The decoder in one equivalence -/

/-- The command with the operands that its format reads from the ports taken from `c` (R84); a register, a unit and the
presence bit stand in the word and stay. -/
def Instr.withPorts (c : Command) : Instr → Instr
  | .bufCreate sel _ => .bufCreate sel c.len
  | .bufUsed sel => .bufUsed sel
  | .bufWrite sel _ src => .bufWrite sel c.len (src.map fun _ => c.data)
  | .bufReadFull sel _ dst => .bufReadFull sel c.len dst
  | .bufReadPartial sel _ dst => .bufReadPartial sel c.len dst
  | .bufReadPeek sel _ dst => .bufReadPeek sel c.len dst
  | .bufClear sel => .bufClear sel
  | .bufDestroy sel => .bufDestroy sel
  | .pktConstruct pd _ _ _ data => .pktConstruct pd c.len c.type c.rnd (data.map fun _ => c.data)
  | .pktSerialize ps => .pktSerialize ps
  | .pktDeserialize pd _ bytes => .pktDeserialize pd c.len (bytes.map fun _ => c.data)
  | .pktDestroy ps => .pktDestroy ps
  | .instCreate config => .instCreate (config.map fun _ => c.cfg)
  | .instClose => .instClose
  | .writePacket ps => .writePacket ps
  | .readPacket pd => .readPacket pd

@[simp] theorem operand_map {α : Type} (dv : BitVec 1) (x : α) : (operand dv x).map (fun _ => x) = operand dv x := by
  unfold operand
  split <;> rfl

@[simp] theorem operand_dvCode_isSome {α : Type} (o : Option α) (x : α) :
    operand (dvCode o.isSome) x = o.map fun _ => x := by
  cases o <;> rfl

/-- Operands read from the ports are those of the ports. -/
theorem withPorts_of_build {op : Op} {f : Fields} {c : Command} {i : Instr} (h : build op f c = .ok i) :
    i.withPorts c = i := by
  cases op with
  | bufRead => obtain ⟨-, rfl⟩ | ⟨-, rfl⟩ | ⟨-, rfl⟩ := build_bufRead_eq_ok h <;> rfl
  | bufWrite | pktConstruct | pktDeserialize | instCreate =>
    cases h
    simp [Instr.withPorts]
  | _ =>
    cases h
    rfl

/-- Operands taken from the ports leave the word of a command as it is. -/
theorem Instr.word_withPorts (c : Command) (i : Instr) : (i.withPorts c).word = i.word := by
  cases i <;> simp [Instr.withPorts, Instr.word, Instr.row, Instr.fieldBits]

theorem Instr.indexOk_withPorts (p : Params) (c : Command) (i : Instr) : (i.withPorts c).indexOk p = i.indexOk p := by
  cases i <;> rfl

theorem Instr.withPorts_withPorts (c : Command) (i : Instr) : (i.withPorts c).withPorts c = i.withPorts c := by
  cases i <;> simp [Instr.withPorts, Function.comp_def]

/-- The operation of a command (R85). -/
def Instr.op : Instr → Op
  | .bufCreate _ _ => .bufCreate
  | .bufUsed _ => .bufUsed
  | .bufWrite _ _ _ => .bufWrite
  | .bufReadFull _ _ _ => .bufRead
  | .bufReadPartial _ _ _ => .bufRead
  | .bufReadPeek _ _ _ => .bufRead
  | .bufClear _ => .bufClear
  | .bufDestroy _ => .bufDestroy
  | .pktConstruct _ _ _ _ _ => .pktConstruct
  | .pktSerialize _ => .pktSerialize
  | .pktDeserialize _ _ _ => .pktDeserialize
  | .pktDestroy _ => .pktDestroy
  | .instCreate _ => .instCreate
  | .instClose => .instClose
  | .writePacket _ => .writePacket
  | .readPacket _ => .readPacket

theorem Instr.ofCode_fields (i : Instr) : Op.ofCode i.fields.op = some i.op := by cases i <;> rfl

theorem Instr.high_fields (i : Instr) : i.fields.high = 0 := by cases i <;> rfl

/-- A command leaves the fields it does not use clear (R95). -/
theorem Instr.unusedClear_fields (i : Instr) : i.fields.unusedClear i.op.uses = true := by
  cases i <;> simp [Instr.fields, Instr.op, Op.uses, Fields.unusedClear]

/-- The indices a command uses are below `N_PKT` when the block has its register (R96). -/
theorem Instr.indexClear_fields {p : Params} {i : Instr} (h : i.indexOk p = true) :
    i.fields.indexClear i.op.uses p = true := by
  cases i with
  | pktConstruct | pktDeserialize | readPacket | pktSerialize | pktDestroy | writePacket =>
    have hlt := of_decide_eq_true h
    simp [Fields.indexClear, Instr.fields, Instr.op, Op.uses, hlt]
  | _ => rfl

/-- From the fields of a command the decoder builds the command with the operands of the ports. -/
theorem build_fields (c : Command) (i : Instr) : build i.op i.fields c = .ok (i.withPorts c) := by
  cases i <;> simp [build, Instr.op, Instr.fields, Instr.withPorts]

/-- A command is decoded exactly from its word with its operands on the ports it reads, on a block that has its register. -/
theorem decode_eq_ok_iff {p : Params} {c : Command} {i : Instr} :
    decode p c = .ok i ↔ i.indexOk p = true ∧ c.w0 = i.word ∧ i.withPorts c = i := by
  constructor
  · intro h
    obtain ⟨hidx, hword⟩ := word_of_decode h
    obtain ⟨-, op, -, -, hbuild⟩ := decode_eq_ok.mp h
    exact ⟨hidx, hword, withPorts_of_build hbuild⟩
  · rintro ⟨hidx, hword, hports⟩
    have hfields : Fields.ofWord c.w0 = i.fields := by rw [hword, Fields.ofWord_word]
    rw [decode_eq_ok, hfields]
    exact ⟨i.high_fields, i.op, i.ofCode_fields, ⟨i.unusedClear_fields, i.indexClear_fields hidx⟩,
      (build_fields c i).trans (congrArg _ hports)⟩

/-- The encoder puts every operand on the port it is read from. -/
theorem Instr.withPorts_encode (i : Instr) : i.withPorts (encode i) = i := by
  have hmap {α : Type} (o : Option α) (d : α) : o.map (fun _ => o.getD d) = o := by cases o <;> rfl
  cases i <;> simp [Instr.withPorts, encode, hmap]

/-- Ports that agree where the command's format reads give the same operands (R84). -/
theorem Instr.withPorts_congr {i : Instr} {c c' : Command} (h : Command.SameRead i.format c c') :
    i.withPorts c' = i.withPorts c := by
  obtain ⟨-, hlen, htype, hdata, hcfg⟩ := h
  cases i <;> simp_all [Instr.withPorts, Instr.format]

/-! ### A word that matches a row is the word of a command -/

/-- The fields of `W0` under a mask. -/
def Fields.and (f g : Fields) : Fields :=
  ⟨f.op &&& g.op, f.sel &&& g.sel, f.mode &&& g.mode, f.dv &&& g.dv, f.pd &&& g.pd, f.ps &&& g.ps, f.high &&& g.high⟩

theorem Fields.ofWord_and (v w : Word) : Fields.ofWord (v &&& w) = (Fields.ofWord v).and (Fields.ofWord w) := by
  simp [Fields.ofWord, Fields.and, BitVec.extractLsb'_and]

/-- The command with the operands that stand in the word taken from `f` (R81). -/
def Instr.withFields (f : Fields) : Instr → Instr
  | .bufCreate _ cap => .bufCreate (selOf f.sel) cap
  | .bufUsed _ => .bufUsed (selOf f.sel)
  | .bufWrite _ len _ => .bufWrite (selOf f.sel) len (operand f.dv [])
  | .bufReadFull _ len _ => .bufReadFull (selOf f.sel) len (dvOf f.dv)
  | .bufReadPartial _ len _ => .bufReadPartial (selOf f.sel) len (dvOf f.dv)
  | .bufReadPeek _ len _ => .bufReadPeek (selOf f.sel) len (dvOf f.dv)
  | .bufClear _ => .bufClear (selOf f.sel)
  | .bufDestroy _ => .bufDestroy (selOf f.sel)
  | .pktConstruct _ len type rnd _ => .pktConstruct (idxOf f.pd) len type rnd (operand f.dv [])
  | .pktSerialize _ => .pktSerialize (idxOf f.ps)
  | .pktDeserialize _ len _ => .pktDeserialize (idxOf f.pd) len (operand f.dv [])
  | .pktDestroy _ => .pktDestroy (idxOf f.ps)
  | .instCreate _ => .instCreate (operand f.dv .zero)
  | .instClose => .instClose
  | .writePacket _ => .writePacket (idxOf f.ps)
  | .readPacket _ => .readPacket (idxOf f.pd)

theorem Instr.row_withFields (f : Fields) (i : Instr) : (i.withFields f).row = i.row := by cases i <;> rfl

/-! A mask that leaves a field whole. -/

theorem nibble_and_mask (x : BitVec 4) : x &&& 15#4 = x := by revert x; decide
theorem mode_and_mask (x : BitVec 2) : x &&& 3#2 = x := by revert x; decide
theorem bit_and_mask (x : BitVec 1) : x &&& 1#1 = x := by revert x; decide
theorem high_and_mask (x : BitVec 16) : x &&& 65535#16 = x := by
  have hones : 65535#16 = BitVec.allOnes 16 := by decide
  rw [hones, BitVec.and_allOnes]

/-- The fields of `W0` that a row fixes, all bits set; a free field is 0 (R85). -/
def Instr.fixedFields : Instr → Fields
  | .bufCreate _ _ | .bufUsed _ | .bufClear _ | .bufDestroy _ => ⟨15#4, 0#1, 3#2, 1#1, 15#4, 15#4, 65535#16⟩
  | .bufWrite _ _ _ | .bufReadFull _ _ _ | .bufReadPartial _ _ _ | .bufReadPeek _ _ _ =>
    ⟨15#4, 0#1, 3#2, 0#1, 15#4, 15#4, 65535#16⟩
  | .pktConstruct _ _ _ _ _ | .pktDeserialize _ _ _ => ⟨15#4, 1#1, 3#2, 0#1, 0#4, 15#4, 65535#16⟩
  | .pktSerialize _ | .pktDestroy _ | .writePacket _ => ⟨15#4, 1#1, 3#2, 1#1, 15#4, 0#4, 65535#16⟩
  | .instCreate _ => ⟨15#4, 1#1, 3#2, 0#1, 15#4, 15#4, 65535#16⟩
  | .instClose => ⟨15#4, 1#1, 3#2, 1#1, 15#4, 15#4, 65535#16⟩
  | .readPacket _ => ⟨15#4, 1#1, 3#2, 1#1, 0#4, 15#4, 65535#16⟩

theorem Instr.ofWord_mask (i : Instr) : Fields.ofWord i.row.mask = i.fixedFields := by
  cases i <;> simp only [Instr.row, Instr.fixedFields] <;> decide

/-- Fields that agree with those of a command where its row fixes them are those of the command with its operands taken from
them (R85). -/
theorem Instr.fields_withFields {f : Fields} {i : Instr} (h : f.and i.fixedFields = i.fields.and i.fixedFields) :
    (i.withFields f).fields = f := by
  obtain ⟨op, sel, mode, dv, pd, ps, high⟩ := f
  cases i <;>
    simp [Instr.fields, Instr.fixedFields, Fields.and, nibble_and_mask, mode_and_mask, bit_and_mask, high_and_mask] at h <;>
    simp [Instr.withFields, Instr.fields, h]

/-- A command of each row of R85, with every operand zero. -/
def rowCommands : List Instr :=
  [.bufCreate .input 0, .bufUsed .input, .bufWrite .input 0 none, .bufReadFull .input 0 false,
   .bufReadPartial .input 0 false, .bufReadPeek .input 0 false, .bufClear .input, .bufDestroy .input,
   .pktConstruct 0 0 0 0 none, .pktSerialize 0, .pktDeserialize 0 0 none, .pktDestroy 0,
   .instCreate none, .instClose, .writePacket 0, .readPacket 0]

theorem rowCommands_map_row : rowCommands.map Instr.row = opcodeRows := rfl

/-- A word that a row selects is the word of a command of that row. -/
theorem exists_word_of_selects {r : Row} {w : Word} (hr : r ∈ opcodeRows) (h : r.selects w = true) :
    ∃ i : Instr, i.row = r ∧ i.word = w := by
  rw [← rowCommands_map_row] at hr
  obtain ⟨i, -, rfl⟩ := List.mem_map.mp hr
  have hmask : (Fields.ofWord w).and i.fixedFields = i.fields.and i.fixedFields := by
    rw [← i.ofWord_mask, ← Fields.ofWord_word, ← Fields.ofWord_and, ← Fields.ofWord_and, eq_of_beq h,
      eq_of_beq i.row_selects_word]
  refine ⟨i.withFields (Fields.ofWord w), i.row_withFields _, Fields.ofWord_injective ?_⟩
  rw [Fields.ofWord_word, Instr.fields_withFields hmask]

/-- A command whose word keeps the index bounds of its row names a register of the block (R96). -/
theorem Instr.indexOk_of_lt {p : Params} {i : Instr} (hpd : i.row.mask &&& 0xF00 = 0 → i.fields.pd.toNat < p.nPkt)
    (hps : i.row.mask &&& 0xF000 = 0 → i.fields.ps.toNat < p.nPkt) : i.indexOk p = true := by
  cases i with
  | pktConstruct | pktDeserialize | readPacket => exact decide_eq_true (hpd (by simp only [Instr.row]; decide))
  | pktSerialize | pktDestroy | writePacket => exact decide_eq_true (hps (by simp only [Instr.row]; decide))
  | _ => rfl

theorem Instr.pd_field (i : Instr) : (i.word >>> 8 &&& 0xF).toNat = i.fields.pd.toNat := by
  rw [toNat_shiftRight_and_nibble, ← Fields.ofWord_word]
  rfl

theorem Instr.ps_field (i : Instr) : (i.word >>> 12 &&& 0xF).toNat = i.fields.ps.toNat := by
  rw [toNat_shiftRight_and_nibble, ← Fields.ofWord_word]
  rfl

/-- Two rows of R85 that agree where both masks are set are one row. -/
theorem opcodeRows_disjoint : ∀ r ∈ opcodeRows, ∀ r' ∈ opcodeRows, r.mtch &&& r'.mask = r'.mtch &&& r.mask → r' = r := by
  decide

/-- No word matches two rows (R96). -/
theorem row_unique {r r' : Row} {w : Word} (hr : r ∈ opcodeRows) (hr' : r' ∈ opcodeRows) (h : r.selects w = true)
    (h' : r'.selects w = true) : r' = r := by
  refine opcodeRows_disjoint r hr r' hr' ?_
  rw [← eq_of_beq h, ← eq_of_beq h', BitVec.and_assoc, BitVec.and_comm r.mask, BitVec.and_assoc]

end Sys2Proof

namespace Sys2Proof.Machine

/-- The decoder accepts every legal word, whatever the ports carry (R96). -/
theorem decode_of_legalWord {p : Params} {c : Command} (h : legalWord p c.w0) : ∃ i, decode p c = .ok i := by
  obtain ⟨r, hr, hsel, hpd, hps⟩ := h
  obtain ⟨i, rfl, hword⟩ := exists_word_of_selects hr hsel
  rw [← hword, Instr.pd_field] at hpd
  rw [← hword, Instr.ps_field] at hps
  exact ⟨i.withPorts c, decode_eq_ok_iff.mpr ⟨(i.indexOk_withPorts p c).trans (Instr.indexOk_of_lt hpd hps),
    hword.symm.trans (i.word_withPorts c).symm, i.withPorts_withPorts c⟩⟩

/-- Settles O3: the encoder gives the word and the ports that `decode_eq_ok_iff` asks for. -/
theorem decodeOfEncodeIsIdentity : Obligations.DecodeOfEncodeIsIdentity :=
  fun _ i hidx => decode_eq_ok_iff.mpr ⟨hidx, encode_w0 i, i.withPorts_encode⟩

/-- Settles O4: the word of a decoded command is its row's `match` with its fields in the bits the mask leaves free. -/
theorem decodedWordIsItsEncoding : Obligations.DecodedWordIsItsEncoding := by
  intro p c i h
  obtain ⟨hidx, hword⟩ := word_of_decode h
  exact ⟨i.row_mem_opcodeRows, hword ▸ i.row_selects_word, hidx, (encode_w0 i).trans hword.symm⟩

/-- Settles O5: a legal word is the word of a command of its row, which the decoder gives back with the operands of the
ports. -/
theorem legalWordsAreTheRows : Obligations.LegalWordsAreTheRows :=
  fun _ _ => ⟨⟨fun ⟨_, h⟩ => legalWord_of_decode h, decode_of_legalWord⟩, fun _ hr _ hr' h h' => row_unique hr hr' h h'⟩

/-- Settles O6: `decode_eq_ok_iff` looks at the ports through `Instr.withPorts` only. -/
theorem unreadPortsAreIgnored : Obligations.UnreadPortsAreIgnored := by
  intro p c c' i h hsame
  obtain ⟨hidx, hword, hports⟩ := decode_eq_ok_iff.mp h
  exact decode_eq_ok_iff.mpr ⟨hidx, hsame.1.symm.trans hword, (Instr.withPorts_congr hsame).trans hports⟩

/-! ### Words and lines written out -/

/-- Settles O1: each of the eight words, decoded. -/
theorem wordsOfTheTableDecode : Obligations.WordsOfTheTableDecode := by
  unfold Obligations.WordsOfTheTableDecode
  decide

/-- Settles O2: each of the seven lines, read. -/
theorem linesOfTheTableAssemble : Obligations.LinesOfTheTableAssemble := by
  unfold Obligations.LinesOfTheTableAssemble
  decide

end Sys2Proof.Machine
end

section
/-! SUPPORT. What each command can do when it completes, once: one inversion per command, which the frames, the invariant and
the response statements cite. -/

namespace Sys2Proof.Machine

variable {s t : State}

/-! ### The Byte Buffer commands -/

/-- Everything BUF_CREATE can do (R111). -/
theorem execBufCreate_eq_next {sel : Sel} {cap : Word} :
    execBufCreate sel cap s = .next t ↔
      (s.params.maxCap < cap.toNat ∧ s.respond (.failure .ok) = t) ∨
        (cap.toNat ≤ s.params.maxCap ∧ (s.setBuf sel (.fresh cap)).respond .done = t) := by
  unfold execBufCreate
  by_cases hcap : s.params.maxCap < cap.toNat
  · simp [hcap, Nat.not_le.mpr hcap]
  · simp [hcap, Nat.le_of_not_lt hcap]

/-- Everything a completed BUF_USED can do (R112). -/
theorem execBufUsed_eq_next {sel : Sel} :
    execBufUsed sel s = .next t ↔
      ((s.buf sel).live = false ∧ s.respond (.failure .ok) = t) ∨
        ((s.buf sel).live = true ∧ ∃ u, (s.buf sel).used = .ok u ∧ s.respond (.used u) = t) := by
  unfold execBufUsed
  cases (s.buf sel).live <;> simp [orFault_eq_next]

/-- The forms that the reject test of a write lets pass (R113). -/
theorem BufUnit.rejectsWrite_eq_false_iff {b : BufUnit} {n : Nat} {present : Bool} :
    b.rejectsWrite n present = false ↔ b.live = true ∧ 0 < n ∧ present = true ∧ n < b.cap.toNat := by
  rw [← Bool.not_eq_true, BufUnit.rejectsWrite_iff]
  simp [Nat.pos_iff_ne_zero]

/-- Everything a completed BUF_WRITE can do (R113). -/
theorem execBufWrite_eq_next {sel : Sel} {len : Word} {src : Option (List Byte)} :
    execBufWrite sel len src s = .next t ↔
      ((s.buf sel).rejectsWrite len.toNat src.isSome = true ∧ s.respond (.failure .ok) = t) ∨
        ((s.buf sel).rejectsWrite len.toNat src.isSome = false ∧
          ∃ bytes c, src = some bytes ∧ bytes.length = len.toNat ∧ (s.buf sel).store bytes = .ok c
            ∧ (s.setBuf sel c).respond (.wrote len.toNat) = t) := by
  unfold execBufWrite
  cases src with
  | none => simp [BufUnit.rejectsWrite]
  | some bytes =>
    cases (s.buf sel).rejectsWrite len.toNat (some bytes).isSome <;>
      simp [withPayload_eq_next, orFault_eq_next]

/-- Everything a completed BUF_CLEAR can do (R118). -/
theorem execBufClear_eq_next {sel : Sel} :
    execBufClear sel s = .next t ↔
      ((s.buf sel).live = false ∧ s.respond (.failure .ok) = t) ∨
        ((s.buf sel).live = true ∧ ∃ c, (s.buf sel).cleared = .ok c ∧ (s.setBuf sel c).respond .done = t) := by
  unfold execBufClear
  cases (s.buf sel).live <;> simp [orFault_eq_next]

/-- Everything BUF_DESTROY can do (R119). -/
theorem execBufDestroy_eq_next {sel : Sel} :
    execBufDestroy sel s = .next t ↔
      ((s.buf sel).live = true ∧ (s.setBuf sel .absent).respond .done = t) ∨
        ((s.buf sel).live = false ∧ s.respond .done = t) := by
  unfold execBufDestroy
  cases (s.buf sel).live <;> simp

/-! ### The Packet Codec commands -/

/-- Everything a completed PKT_CONSTRUCT can do (R141): no such register, or it returns ABSENT or a packet within `MAX_BODY`
whose body has the stated length. -/
theorem execPktConstruct_eq_next {pd : PktIdx} {len type rnd : Word} {data : Option (List Byte)}
    (h : execPktConstruct pd len type rnd data s = .next t) :
    s.respond (.failure .undefined) = t ∨ ∃ r, returnPacket s pd r = .next t
      ∧ ∀ k, r = some k →
          len.toNat ≤ s.params.maxBody ∧ ∃ body, body.length = len.toNat ∧ k = constructed len type rnd body := by
  obtain ⟨-, -, h⟩ | ⟨-, h⟩ := withPkt_eq_next.mp h
  · split at h
    · exact .inr ⟨none, h, nofun⟩
    next hpresent =>
    split at h
    · exact .inr ⟨none, h, nofun⟩
    next hmax =>
    cases data with
    | none =>
      have hlen : len.toNat = 0 := by simpa using hpresent
      refine .inr ⟨_, h, ?_⟩
      rintro _ ⟨⟩
      exact ⟨Nat.le_of_not_lt hmax, [], hlen.symm, rfl⟩
    | some bytes =>
      obtain ⟨hlen, h⟩ := withPayload_eq_next.mp h
      refine .inr ⟨_, h, ?_⟩
      rintro _ ⟨⟩
      exact ⟨Nat.le_of_not_lt hmax, bytes, hlen, rfl⟩
  · exact .inl h

/-- Everything a completed PKT_SERIALIZE can do (R145). -/
theorem execPktSerialize_eq_next {ps : PktIdx} :
    execPktSerialize ps s = .next t ↔
      (∃ k, s.pkt ps = some k ∧
          ((serialize s.params k = .ok none ∧ s.respond (.failure .ok) = t) ∨
            ∃ f, serialize s.params k = .ok (some f) ∧ s.respond (.bytes f) = t)) ∨
        (s.pkt ps = none ∧ s.respond (.failure .undefined) = t) := by
  simp [execPktSerialize, withPkt_eq_next, orFault_eq_next, Option.exists]

/-- Everything a completed PKT_DESERIALIZE can do (R151): no such register, or it returns ABSENT or what `Deserialize`
accepts. -/
theorem execPktDeserialize_eq_next {pd : PktIdx} {len : Word} {bytes : Option (List Byte)}
    (h : execPktDeserialize pd len bytes s = .next t) :
    s.respond (.failure .undefined) = t ∨ ∃ r, returnPacket s pd r = .next t
      ∧ ∀ k, r = some k → ∃ f, deserialize s.params f = some k := by
  obtain ⟨-, -, h⟩ | ⟨-, h⟩ := withPkt_eq_next.mp h
  · split at h
    · exact .inr ⟨none, h, nofun⟩
    · split at h
      · exact .inr ⟨none, h, nofun⟩
      · exact .inr ⟨_, (withPayload_eq_next.mp h).2, fun k hk => ⟨_, hk⟩⟩
  · exact .inl h

/-- Everything PKT_DESTROY can do (R155). -/
theorem execPktDestroy_eq_next {ps : PktIdx} (h : execPktDestroy ps s = .next t) :
    s.respond (.failure .undefined) = t ∨ (s.setPkt ps .absent).respond .done = t := by
  obtain ⟨-, -, h⟩ | ⟨-, h⟩ := withPkt_eq_next.mp h
  · exact .inr (Host.Outcome.next.inj h)
  · exact .inl h

/-! ### The I/O Facade commands -/

/-- Everything a completed WRITE_PACKET can do (R180): no such register, something absent, no frame, or the frame is sent. -/
theorem execWritePacket_eq_next {ps : PktIdx} (h : execWritePacket ps s = .next t) :
    s.respond (.failure .undefined) = t ∨
      ∃ k, s.pkt ps = some k ∧ (s.instLive = true ∧ k.valid = true ∧ s.bufOut.live = true) ∧
        ((serialize s.params k = .ok none ∧ s.respond (.failure .invalidPacket) = t) ∨
          ∃ f, serialize s.params k = .ok (some f) ∧ sendFrame s f = .next t) := by
  obtain ⟨k, hk, h⟩ | ⟨-, h⟩ := withPkt_eq_next.mp h
  · split at h
    · exact .inl (State.raise_eq_next.mp h)
    next hpresent =>
    obtain ⟨r, hr, h⟩ := orFault_eq_next.mp h
    refine .inr ⟨k, hk, by simpa using hpresent, ?_⟩
    cases r with
    | none => exact .inl ⟨hr, State.raise_eq_next.mp h⟩
    | some f => exact .inr ⟨f, hr, h⟩
  · exact .inl h

/-- Everything a completed READ_PACKET can do (R181): no such register, nothing to read, or the whole used space is consumed
and parsed. -/
theorem execReadPacket_eq_next {pd : PktIdx} (h : execReadPacket pd s = .next t) :
    s.respond (.failure .undefined) = t ∨ returnPacket s pd none = .next t ∨
      ((s.instLive = true ∧ s.bufIn.live = true) ∧
        returnPacket (s.setBuf .input { s.bufIn with tail := s.bufIn.head }) pd (deserialize s.params s.bufIn.contents)
          = .next t) := by
  obtain ⟨-, -, h⟩ | ⟨-, h⟩ := withPkt_eq_next.mp h
  · split at h
    · exact .inr (.inl h)
    next hlive =>
    obtain ⟨u, hu, h⟩ := orFault_eq_next.mp h
    obtain ⟨-, rfl⟩ := BufUnit.used_eq_ok.mp hu
    split at h
    · exact .inr (.inl h)
    · obtain ⟨f, hf, h⟩ := orFault_eq_next.mp h
      obtain ⟨-, rfl⟩ := BufUnit.peek_eq_ok.mp hf
      exact .inr (.inr ⟨by simpa using hlive, h⟩)
  · exact .inl h

end Sys2Proof.Machine
end

section
/-! SUPPORT. PKT_CONSTRUCT and PKT_DESERIALIZE (R141, R151): what each answers. Then the refusals: which commands read a
payload, and so are refused when it has another length (R86, U11). -/

namespace Sys2Proof.Machine

/-! ### PKT_CONSTRUCT -/

section
variable {s : State} {pd : PktIdx} {len type rnd : Word} {data : Option (List Byte)}

/-- PKT_CONSTRUCT on a register of the block without the data it needs, or above `MAX_BODY`, returns ABSENT (R141). -/
theorem exec_pktConstruct_of_fail (hpd : pd.val < s.pkts.length)
    (h : (data = none ∧ 0 < len.toNat) ∨ s.params.maxBody < len.toNat) :
    exec (.pktConstruct pd len type rnd data) s = returnPacket s pd none := by
  obtain ⟨k, hk⟩ := State.pkt_isSome_of_lt hpd
  refine (withPkt_of_some hk _).trans ?_
  by_cases habsent : data.isSome = false ∧ 0 < len.toNat
  · exact if_pos habsent
  · exact (if_neg habsent).trans (if_pos (h.resolve_left (by simpa using habsent)))

/-- PKT_CONSTRUCT on a register of the block of no data makes the packet of no data (R141). -/
theorem exec_pktConstruct_of_none (hpd : pd.val < s.pkts.length) (hlen : len.toNat = 0) :
    exec (.pktConstruct pd len type rnd none) s = returnPacket s pd (some (constructed len type rnd [])) := by
  obtain ⟨k, hk⟩ := State.pkt_isSome_of_lt hpd
  exact (withPkt_of_some hk _).trans ((if_neg (by simp [hlen])).trans (if_neg (by simp [hlen])))

/-- PKT_CONSTRUCT on a register of the block within `MAX_BODY` reads the payload and makes the packet (R141). -/
theorem exec_pktConstruct_of_some {bytes : List Byte} (hpd : pd.val < s.pkts.length) (hmax : len.toNat ≤ s.params.maxBody) :
    exec (.pktConstruct pd len type rnd (some bytes)) s =
      withPayload len.toNat bytes fun body => returnPacket s pd (some (constructed len type rnd body)) := by
  obtain ⟨k, hk⟩ := State.pkt_isSome_of_lt hpd
  exact (withPkt_of_some hk _).trans ((if_neg (by simp)).trans (if_neg (Nat.not_lt.mpr hmax)))

end

/-- Settles O31: the two tests come before the payload; past them the packet is `constructed`. -/
theorem pktConstructResult : Obligations.PktConstructResult := by
  intro s pd len type rnd data hpd
  refine ⟨exec_pktConstruct_of_fail hpd, fun hdata hmax hpayload => ?_⟩
  cases data with
  | none =>
    have hlen : len.toNat = 0 := by simpa using hdata
    rw [exec_pktConstruct_of_none hpd hlen]
    rfl
  | some bytes =>
    rw [exec_pktConstruct_of_some hpd hmax, withPayload_of_length (eq_of_beq hpayload)]
    rfl

/-! ### PKT_DESERIALIZE -/

section
variable {s : State} {pd : PktIdx} {len : Word} {bytes : Option (List Byte)} {f : List Byte}

/-- PKT_DESERIALIZE on a register of the block without bytes, or below a frame's overhead, returns ABSENT (R151). -/
theorem exec_pktDeserialize_of_fail (hpd : pd.val < s.pkts.length) (h : bytes = none ∨ len.toNat < 18) :
    exec (.pktDeserialize pd len bytes) s = returnPacket s pd none := by
  obtain ⟨k, hk⟩ := State.pkt_isSome_of_lt hpd
  refine (withPkt_of_some hk _).trans ?_
  cases bytes with
  | none => rfl
  | some b => exact if_pos (h.resolve_left nofun)

/-- PKT_DESERIALIZE on a register of the block reads a payload of at least a frame's overhead and returns what `Deserialize`
gives (R151). -/
theorem exec_pktDeserialize_of_pass (hpd : pd.val < s.pkts.length) (hlen : 18 ≤ len.toNat) :
    exec (.pktDeserialize pd len (some f)) s =
      withPayload len.toNat f fun g => returnPacket s pd (deserialize s.params g) := by
  obtain ⟨k, hk⟩ := State.pkt_isSome_of_lt hpd
  exact (withPkt_of_some hk _).trans (if_neg (Nat.not_lt.mpr hlen))

/-- PKT_DESERIALIZE of a payload of the stated length returns what `Deserialize` gives (R151). -/
theorem exec_pktDeserialize_of_length (hpd : pd.val < s.pkts.length) (hlen : f.length = len.toNat) :
    exec (.pktDeserialize pd len (some f)) s = returnPacket s pd (deserialize s.params f) := by
  by_cases hshort : len.toNat < 18
  · rw [exec_pktDeserialize_of_fail hpd (.inr hshort), deserialize, if_pos (hlen ▸ hshort)]
  · rw [exec_pktDeserialize_of_pass hpd (Nat.le_of_not_lt hshort), withPayload_of_length hlen]

end

/-- When `Deserialize` rejects a sequence (R151). -/
theorem deserialize_eq_none {p : Params} {s : List Byte} :
    deserialize p s = none ↔
      ¬((18 ≤ s.length ∧ byteAt s 0 = soh ∧ 18 + (fieldAt p.endian s 5).toNat ≤ s.length)
        ∧ (fieldAt p.endian s 5).toNat ≤ p.maxBody ∧ byteAt s (17 + (fieldAt p.endian s 5).toNat) = eot) := by
  rw [← deserialize_isSome, Bool.not_eq_true, Option.isSome_eq_false_iff, Option.isNone_iff_eq_none]

/-- Settles O33: on a payload of the stated length the command returns what `Deserialize` gives. -/
theorem pktDeserializeResult : Obligations.PktDeserializeResult := by
  intro s pd len bytes hpd
  refine ⟨exec_pktDeserialize_of_fail hpd, ?_⟩
  rintro f e ds rfl hlen rfl rfl
  rw [exec_pktDeserialize_of_length hpd hlen]
  constructor
  · intro hfail
    have hnone : deserialize s.params f = none := by
      refine deserialize_eq_none.mpr ?_
      rintro ⟨⟨-, hsoh, hsize⟩, hmax, heot⟩
      obtain h | h | h | h := hfail
      · exact h hsoh
      · omega
      · omega
      · exact h heot
    rw [hnone]
    rfl
  · intro hlen18 hsoh hsize hmax heot
    rw [deserialize_eq_some.mpr ⟨⟨by omega, hsoh, by omega⟩, hmax, heot, rfl⟩]
    rfl

/-! ### Refusals -/

section
variable {s : State} {q : Refusal}

/-- When BUF_WRITE is refused: it accepts its operands, so it reads the payload, which has another length (R86, R113). -/
theorem execBufWrite_eq_refused {sel : Sel} {len : Word} {src : Option (List Byte)} :
    execBufWrite sel len src s = .refused q ↔
      (s.buf sel).rejectsWrite len.toNat src.isSome = false
        ∧ (∃ bytes, src = some bytes ∧ bytes.length ≠ len.toNat) ∧ q = .payloadMismatch := by
  unfold execBufWrite
  cases src with
  | none => simp [BufUnit.rejectsWrite]
  | some bytes =>
    cases (s.buf sel).rejectsWrite len.toNat (some bytes).isSome <;>
      simp [withPayload_eq_refused, orFault_eq_refused]

/-- A register operand that the block has, of a command that is refused. -/
theorem lt_of_withPkt_eq_refused {i : PktIdx} {k : Packet → Host.Outcome State Fault Refusal}
    (h : withPkt s i k = .refused q) : i.val < s.pkts.length := by
  obtain ⟨p, hp, -⟩ := withPkt_eq_refused.mp h
  exact (List.getElem?_eq_some_iff.mp hp).1

/-- When PKT_CONSTRUCT is refused: it passes its tests and the payload has another length (R86, R141). -/
theorem execPktConstruct_eq_refused {pd : PktIdx} {len type rnd : Word} {data : Option (List Byte)} :
    execPktConstruct pd len type rnd data s = .refused q ↔
      (pd.val < s.pkts.length ∧ len.toNat ≤ s.params.maxBody)
        ∧ (∃ bytes, data = some bytes ∧ bytes.length ≠ len.toNat) ∧ q = .payloadMismatch := by
  constructor
  · intro h
    have hpd := lt_of_withPkt_eq_refused h
    change exec (.pktConstruct pd len type rnd data) s = _ at h
    by_cases hfail : (data = none ∧ 0 < len.toNat) ∨ s.params.maxBody < len.toNat
    · rw [exec_pktConstruct_of_fail hpd hfail] at h
      exact absurd h returnPacket_ne_refused
    obtain ⟨hdata, hmax⟩ := not_or.mp hfail
    have hmax := Nat.le_of_not_lt hmax
    cases data with
    | none =>
      rw [exec_pktConstruct_of_none hpd (by simpa using hdata)] at h
      exact absurd h returnPacket_ne_refused
    | some bytes =>
      rw [exec_pktConstruct_of_some hpd hmax, withPayload_eq_refused] at h
      obtain ⟨-, h⟩ | ⟨hlen, rfl⟩ := h
      · exact absurd h returnPacket_ne_refused
      · exact ⟨⟨hpd, hmax⟩, ⟨bytes, rfl, hlen⟩, rfl⟩
  · rintro ⟨⟨hpd, hmax⟩, ⟨bytes, rfl, hlen⟩, rfl⟩
    exact (exec_pktConstruct_of_some hpd hmax).trans (withPayload_eq_refused.mpr (.inr ⟨hlen, rfl⟩))

/-- When PKT_DESERIALIZE is refused: at least a frame's overhead is stated and the payload has another length (R86, R151). -/
theorem execPktDeserialize_eq_refused {pd : PktIdx} {len : Word} {bytes : Option (List Byte)} :
    execPktDeserialize pd len bytes s = .refused q ↔
      (pd.val < s.pkts.length ∧ 18 ≤ len.toNat)
        ∧ (∃ b, bytes = some b ∧ b.length ≠ len.toNat) ∧ q = .payloadMismatch := by
  constructor
  · intro h
    have hpd := lt_of_withPkt_eq_refused h
    change exec (.pktDeserialize pd len bytes) s = _ at h
    by_cases hfail : bytes = none ∨ len.toNat < 18
    · rw [exec_pktDeserialize_of_fail hpd hfail] at h
      exact absurd h returnPacket_ne_refused
    obtain ⟨hsome, hlen18⟩ := not_or.mp hfail
    have hlen18 := Nat.le_of_not_lt hlen18
    obtain ⟨b, rfl⟩ := Option.ne_none_iff_exists'.mp hsome
    rw [exec_pktDeserialize_of_pass hpd hlen18, withPayload_eq_refused] at h
    obtain ⟨-, h⟩ | ⟨hlen, rfl⟩ := h
    · exact absurd h returnPacket_ne_refused
    · exact ⟨⟨hpd, hlen18⟩, ⟨b, rfl, hlen⟩, rfl⟩
  · rintro ⟨⟨hpd, hlen18⟩, ⟨b, rfl, hlen⟩, rfl⟩
    exact (exec_pktDeserialize_of_pass hpd hlen18).trans (withPayload_eq_refused.mpr (.inr ⟨hlen, rfl⟩))

theorem readWith_ne_refused {effect : BufUnit → Nat → Except Fault BufUnit} {sel : Sel} {len : Word} {dst : Bool} :
    readWith effect sel len dst s ≠ .refused q := by
  intro h
  obtain ⟨r, -, h⟩ := orFault_eq_refused.mp h
  cases r with
  | none => exact State.raise_ne_refused h
  | some out =>
    obtain ⟨c, -, h⟩ := orFault_eq_refused.mp h
    cases h

theorem sendFrame_ne_refused {f : List Byte} : sendFrame s f ≠ .refused q := by
  intro h
  unfold sendFrame at h
  split at h
  · exact State.raise_ne_refused h
  · obtain ⟨r, -, h⟩ := orFault_eq_refused.mp h
    split at h <;> cases h

theorem execWritePacket_ne_refused {ps : PktIdx} : execWritePacket ps s ≠ .refused q := by
  intro h
  obtain ⟨k, -, h⟩ := withPkt_eq_refused.mp h
  split at h
  · exact State.raise_ne_refused h
  · obtain ⟨r, -, h⟩ := orFault_eq_refused.mp h
    cases r with
    | none => exact State.raise_ne_refused h
    | some f => exact sendFrame_ne_refused h

theorem execReadPacket_ne_refused {pd : PktIdx} : execReadPacket pd s ≠ .refused q := by
  intro h
  obtain ⟨k, -, h⟩ := withPkt_eq_refused.mp h
  split at h
  · exact returnPacket_ne_refused h
  · obtain ⟨u, -, h⟩ := orFault_eq_refused.mp h
    split at h
    · exact returnPacket_ne_refused h
    · obtain ⟨f, -, h⟩ := orFault_eq_refused.mp h
      exact returnPacket_ne_refused h

theorem execPktSerialize_ne_refused {ps : PktIdx} : execPktSerialize ps s ≠ .refused q := by
  intro h
  obtain ⟨k, -, h⟩ := withPkt_eq_refused.mp h
  obtain ⟨r, -, h⟩ := orFault_eq_refused.mp h
  cases r <;> cases h

/-- A command that completes is not refused. -/
theorem ne_refused_of_next {o : Host.Outcome State Fault Refusal} {P : State → Prop} (h : ∃ t, o = .next t ∧ P t) :
    o ≠ .refused q := by
  obtain ⟨t, ht, -⟩ := h
  exact fun hq => nomatch ht.symm.trans hq

/-- A payload of another length than the one stated breaks the contract of R86. -/
theorem payloadOk_eq_false {len : Word} {src : Option (List Byte)}
    (h : ∃ bytes, src = some bytes ∧ bytes.length ≠ len.toNat) : payloadOk len src = false := by
  obtain ⟨bytes, rfl, hlen⟩ := h
  exact beq_false_of_ne hlen

/-- A refused command carries a payload that breaks the contract of R86 (U11). -/
theorem exec_eq_refused {i : Instr} (h : exec i s = .refused q) : q = .payloadMismatch ∧ i.payloadOk = false := by
  cases i with
  | bufWrite sel len src =>
    obtain ⟨-, hpayload, hq⟩ := execBufWrite_eq_refused.mp h
    exact ⟨hq, payloadOk_eq_false hpayload⟩
  | pktConstruct pd len type rnd data =>
    obtain ⟨-, hpayload, hq⟩ := execPktConstruct_eq_refused.mp h
    exact ⟨hq, payloadOk_eq_false hpayload⟩
  | pktDeserialize pd len bytes =>
    obtain ⟨-, hpayload, hq⟩ := execPktDeserialize_eq_refused.mp h
    exact ⟨hq, payloadOk_eq_false hpayload⟩
  | bufCreate sel cap => exact absurd h (ne_refused_of_next (bufCreateResult s sel cap))
  | bufUsed sel => exact absurd h (by simp only [exec, execBufUsed]; split <;> simp [orFault_eq_refused])
  | bufReadFull sel len dst => exact absurd (exec_bufReadFull.symm.trans h) readWith_ne_refused
  | bufReadPartial sel len dst => exact absurd (exec_bufReadPartial.symm.trans h) readWith_ne_refused
  | bufReadPeek sel len dst => exact absurd (exec_bufReadPeek.symm.trans h) readWith_ne_refused
  | bufClear sel => exact absurd h (by simp only [exec, execBufClear]; split <;> simp [orFault_eq_refused])
  | bufDestroy sel => exact absurd h (ne_refused_of_next (bufDestroyResult s sel))
  | pktSerialize ps => exact absurd h execPktSerialize_ne_refused
  | pktDestroy ps =>
    obtain ⟨k, -, h⟩ := withPkt_eq_refused.mp h
    cases h
  | instCreate config => exact absurd h (ne_refused_of_next (instCreateResult s config))
  | instClose => exact absurd h (ne_refused_of_next (instCloseResult s))
  | writePacket ps => exact absurd h execWritePacket_ne_refused
  | readPacket pd => exact absurd h execReadPacket_ne_refused

end

/-- Settles O17: only the three commands with a payload are refused, each exactly when it reads a payload of another
length. -/
theorem refusedExactlyWhenMismatchIsRead : Obligations.RefusedExactlyWhenMismatchIsRead := by
  refine ⟨fun _ _ _ => exec_eq_refused, fun s sel len bytes => ?_, fun s pd len type rnd bytes => ?_,
    fun s pd len bytes => ?_⟩
  · rw [exec, execBufWrite_eq_refused, ← Bool.not_eq_true, BufUnit.rejectsWrite_iff]
    simp [and_comm, Nat.one_le_iff_ne_zero]
  · rw [exec, execPktConstruct_eq_refused]
    simp [and_comm]
  · rw [exec, execPktDeserialize_eq_refused]
    simp [and_comm]

end Sys2Proof.Machine
end

section
/-! SUPPORT. The invariant of the block (Safety.lean): every change of a state that a command is made of keeps it, so every
command and every step does; and under it every well-formed command completes. -/

namespace Sys2Proof.Machine

/-! ### Responses -/

theorem Response.failure_inv {st : Status} (hconn : st ≠ .invalidConnection) (hpkt : st ≠ .invalidPacket) :
    (Response.failure st).Inv :=
  ⟨⟨hconn, hpkt⟩, fun _ => rfl, fun _ => ⟨rfl, rfl⟩, .inl rfl⟩

theorem Response.failure_ok_inv : (Response.failure .ok).Inv := failure_inv nofun nofun

theorem Response.done_inv : Response.done.Inv := ⟨⟨nofun, nofun⟩, fun h => absurd rfl h, nofun, .inl rfl⟩

theorem Response.used_inv (n : Nat) : (Response.used n).Inv := ⟨⟨nofun, nofun⟩, fun h => absurd rfl h, nofun, .inl rfl⟩

theorem Response.wrote_inv (n : Nat) : (Response.wrote n).Inv := by
  refine ⟨⟨nofun, nofun⟩, fun h => absurd rfl h, fun hok => ⟨?_, rfl⟩, .inl rfl⟩
  have hn : n = 0 := Nat.eq_zero_of_not_pos (of_decide_eq_false hok)
  rw [hn]
  rfl

/-- Bytes that a 32-bit count can count. -/
theorem Response.bytes_inv {out : List Byte} (h : out.length < 2 ^ 32) : (Response.bytes out).Inv := by
  refine ⟨⟨nofun, nofun⟩, fun hst => absurd rfl hst, fun hok => ?_, .inr (Nat.mod_eq_of_lt h).symm⟩
  have hout : out = [] := List.eq_nil_of_length_eq_zero (Nat.eq_zero_of_not_pos (of_decide_eq_false hok))
  subst hout
  exact ⟨rfl, rfl⟩

/-! ### Packets -/

/-- A packet that PKT_CONSTRUCT makes within `MAX_BODY` (R141). -/
theorem constructed_inv {p : Params} {len type rnd : Word} {body : List Byte} (hmax : len.toNat ≤ p.maxBody)
    (hbody : body.length = len.toNat) : (constructed len type rnd body).Inv p :=
  ⟨nofun, fun _ => ⟨hmax, hbody, decide_eq_true_iff⟩⟩

/-- A packet that `Deserialize` accepts (R151). -/
theorem deserialize_inv {p : Params} {f : List Byte} {k : Packet} (h : deserialize p f = some k) : k.Inv p := by
  obtain ⟨⟨-, -, hsize⟩, hmax, -, rfl⟩ := deserialize_eq_some.mp h
  refine ⟨nofun, fun _ => ⟨hmax, ?_, decide_eq_true_iff⟩⟩
  simp only [packetAt, List.length_take, List.length_drop]
  omega

/-- A valid register has a frame: none of the tests of `Serialize` fails on it (R31, R145). -/
theorem Packet.Inv.serialize_eq {p : Params} {k : Packet} (h : k.Inv p) (hp : p.wf) (hvalid : k.valid = true) :
    serialize p k = .ok (some (frameOf p.endian k)) := by
  obtain ⟨-, hbound, -⟩ := hp
  obtain ⟨hmax, hbody, hpresent⟩ := h.2 hvalid
  exact serialize_eq_some.mpr ⟨⟨hvalid, hpresent.mpr, by omega⟩, hmax, hbody.ge, rfl⟩

/-- `Serialize` completes on every register: an ABSENT one is FAIL (R145). -/
theorem Packet.Inv.serialize_total {p : Params} {k : Packet} (h : k.Inv p) (hp : p.wf) : ∃ r, serialize p k = .ok r := by
  cases hvalid : k.valid with
  | true => exact ⟨_, h.serialize_eq hp hvalid⟩
  | false => exact ⟨none, if_pos hvalid⟩

/-! ### Changes of a state -/

namespace State.Inv

variable {s : State}

theorem pkt (h : s.Inv) {i : PktIdx} {k : Packet} (hk : s.pkt i = some k) : k.Inv s.params := by
  obtain ⟨-, -, ⟨-, hpkts⟩, -⟩ := h
  exact hpkts k (State.pkt_eq_some_mem hk)

theorem respond (h : s.Inv) {r : Response} (hr : r.Inv) : (s.respond r).Inv := by
  obtain ⟨hp, hbufs, hpkts, hend, -⟩ := h
  refine ⟨hp, hbufs, hpkts, hend, ?_⟩
  rintro _ ⟨⟩
  exact hr

theorem setBuf (h : s.Inv) {sel : Sel} {b : BufUnit} (hb : b.Inv s.params) : (s.setBuf sel b).Inv := by
  obtain ⟨hp, ⟨hin, hout⟩, hrest⟩ := h
  cases sel with
  | input => exact ⟨hp, ⟨hb, hout⟩, hrest⟩
  | output => exact ⟨hp, ⟨hin, hb⟩, hrest⟩

theorem setPkt (h : s.Inv) {i : PktIdx} {k : Packet} (hk : k.Inv s.params) : (s.setPkt i k).Inv := by
  obtain ⟨hp, hbufs, ⟨hlen, hpkts⟩, hrest⟩ := h
  refine ⟨hp, hbufs, ⟨(List.length_set ..).trans hlen, fun k' hk' => ?_⟩, hrest⟩
  obtain hk' | rfl := List.mem_or_eq_of_mem_set hk'
  · exact hpkts k' hk'
  · exact hk

theorem openEndpoint (h : s.Inv) {c : EndpointCfg} (hpos : 0 < c.bufferSize.toNat)
    (hcap : c.bufferSize.toNat ≤ s.params.maxCap) : (s.openEndpoint c).Inv := by
  obtain ⟨hp, -, hpkts, -, hrsp⟩ := h
  exact ⟨hp, ⟨BufUnit.fresh_inv hcap, BufUnit.fresh_inv hcap⟩, hpkts, ⟨fun _ => ⟨hpos, hcap⟩, nofun⟩, hrsp⟩

theorem closeEndpoint (h : s.Inv) : s.closeEndpoint.Inv := by
  obtain ⟨hp, -, hpkts, -, hrsp⟩ := h
  exact ⟨hp, ⟨BufUnit.absent_inv _, BufUnit.absent_inv _⟩, hpkts, ⟨nofun, fun _ => rfl⟩, hrsp⟩

theorem taken (h : s.Inv) (rest : List Input) : (s.taken rest).Inv := by
  obtain ⟨hp, hbufs, hpkts, hend, -⟩ := h
  exact ⟨hp, hbufs, hpkts, hend, nofun⟩

/-- A command that returns a packet keeps the invariant when the packet meets the register's. -/
theorem returnPacket {t : State} (h : s.Inv) {pd : PktIdx} {r : Option Packet} (hr : ∀ k, r = some k → k.Inv s.params)
    (ht : returnPacket s pd r = .next t) : t.Inv := by
  obtain ⟨k, rfl, rfl⟩ | ⟨rfl, rfl⟩ := returnPacket_eq_next.mp ht
  · exact (h.setPkt (hr k rfl)).respond Response.done_inv
  · exact (h.setPkt (Packet.absent_inv _)).respond Response.failure_ok_inv

end State.Inv

/-- The state after reset meets the invariant, with any inputs still to be presented. -/
theorem State.resetWith_inv {p : Params} (hp : p.wf) : (State.resetWith p).Inv := by
  refine ⟨hp, ⟨BufUnit.absent_inv p, BufUnit.absent_inv p⟩, ⟨List.length_replicate .., fun k hk => ?_⟩,
    ⟨nofun, fun _ => rfl⟩, nofun⟩
  rw [List.eq_of_mem_replicate hk]
  exact Packet.absent_inv p

/-- Settles O14: both units and every register are absent, and the reference parameters are in the ranges of R8. -/
theorem resetMeetsInvariant : Obligations.ResetMeetsInvariant :=
  ⟨State.resetWith_inv (by decide), fun _ => State.resetWith_inv⟩

/-! ### The commands -/

section
variable {s t : State}

/-- A completed read of any mode keeps the invariant when its effect on the unit does (R114). -/
theorem readWith_inv {effect : BufUnit → Nat → Except Fault BufUnit} {sel : Sel} {len : Word} {dst : Bool} (h : s.Inv)
    (heffect : ∀ n c, (s.buf sel).live = true → effect (s.buf sel) n = .ok c → c.Inv s.params)
    (ht : readWith effect sel len dst s = .next t) : t.Inv := by
  obtain ⟨-, rfl⟩ | ⟨out, c, hfetch, hc, rfl⟩ := readWith_eq_next.mp ht
  · exact h.respond Response.failure_ok_inv
  · obtain ⟨-, ⟨⟩⟩ | ⟨hlive, -, ⟨-, ⟨⟩⟩ | ⟨-, -, -, hcap, ⟨⟩⟩⟩ := BufUnit.fetch_eq_ok.mp hfetch
    have hbound := (s.buf sel).cap.isLt
    refine (h.setBuf (heffect _ c hlive hc)).respond (Response.bytes_inv ?_)
    rw [Memory.length_readBytes]
    omega

/-- Sending a frame keeps the invariant (R180). -/
theorem sendFrame_inv {f : List Byte} (h : s.Inv) (hlive : s.bufOut.live = true) (hf : f ≠ [])
    (ht : sendFrame s f = .next t) : t.Inv := by
  obtain ⟨-, rfl⟩ | ⟨-, -, c, hc, rfl⟩ := (sendFrame_eq_next hf).mp ht
  · exact h.respond (Response.failure_inv nofun nofun)
  · exact (h.setBuf (sel := .output) ((h.buf .output).store_inv hlive hc)).respond Response.done_inv

theorem execWritePacket_inv {ps : PktIdx} (h : s.Inv) (ht : execWritePacket ps s = .next t) : t.Inv := by
  obtain rfl | ⟨k, hk, ⟨-, hvalid, hlive⟩, ⟨hnone, -⟩ | ⟨f, hf, hsend⟩⟩ := execWritePacket_eq_next ht
  · exact h.respond (Response.failure_inv nofun nofun)
  · have hframe := (h.pkt hk).serialize_eq h.1 hvalid
    cases hnone.symm.trans hframe
  · exact sendFrame_inv h hlive (serialize_ne_nil hf) hsend

theorem execPktSerialize_inv {ps : PktIdx} (h : s.Inv) (ht : execPktSerialize ps s = .next t) : t.Inv := by
  obtain ⟨k, hk, ⟨-, rfl⟩ | ⟨f, hf, rfl⟩⟩ | ⟨-, rfl⟩ := execPktSerialize_eq_next.mp ht
  · exact h.respond Response.failure_ok_inv
  · obtain ⟨⟨-, -, hsize⟩, -, hbody, rfl⟩ := serialize_eq_some.mp hf
    refine h.respond (Response.bytes_inv ?_)
    rw [frameOf_length _ _ hbody]
    omega
  · exact h.respond (Response.failure_inv nofun nofun)

theorem execReadPacket_inv {pd : PktIdx} (h : s.Inv) (ht : execReadPacket pd s = .next t) : t.Inv := by
  obtain rfl | ht | ⟨⟨-, hlive⟩, ht⟩ := execReadPacket_eq_next ht
  · exact h.respond (Response.failure_inv nofun nofun)
  · exact h.returnPacket (r := none) nofun ht
  · exact (h.setBuf (sel := .input) ((h.buf .input).emptied_inv hlive)).returnPacket (fun _ => deserialize_inv) ht

theorem execBufWrite_inv {sel : Sel} {len : Word} {src : Option (List Byte)} (h : s.Inv)
    (ht : execBufWrite sel len src s = .next t) : t.Inv := by
  obtain ⟨-, rfl⟩ | ⟨hacc, bytes, c, -, -, hc, rfl⟩ := execBufWrite_eq_next.mp ht
  · exact h.respond Response.failure_ok_inv
  · obtain ⟨hlive, -⟩ := BufUnit.rejectsWrite_eq_false_iff.mp hacc
    exact (h.setBuf ((h.buf sel).store_inv hlive hc)).respond (Response.wrote_inv _)

/-- Every command that completes keeps the invariant. -/
theorem exec_inv {i : Instr} (h : s.Inv) (ht : exec i s = .next t) : t.Inv := by
  cases i with
  | bufCreate sel cap =>
    obtain ⟨-, rfl⟩ | ⟨hcap, rfl⟩ := execBufCreate_eq_next.mp ht
    · exact h.respond Response.failure_ok_inv
    · exact (h.setBuf (BufUnit.fresh_inv hcap)).respond Response.done_inv
  | bufUsed sel =>
    obtain ⟨-, rfl⟩ | ⟨-, u, -, rfl⟩ := execBufUsed_eq_next.mp ht
    · exact h.respond Response.failure_ok_inv
    · exact h.respond (Response.used_inv u)
  | bufWrite sel len src => exact execBufWrite_inv h ht
  | bufReadFull sel len dst =>
    rw [exec_bufReadFull] at ht
    exact readWith_inv h (fun _ _ hlive => (h.buf sel).afterFull_inv hlive) ht
  | bufReadPartial sel len dst =>
    rw [exec_bufReadPartial] at ht
    exact readWith_inv h (fun _ _ hlive => (h.buf sel).afterPartial_inv hlive) ht
  | bufReadPeek sel len dst =>
    rw [exec_bufReadPeek] at ht
    refine readWith_inv h (fun _ c _ hc => ?_) ht
    cases hc
    exact h.buf sel
  | bufClear sel =>
    obtain ⟨-, rfl⟩ | ⟨hlive, c, hc, rfl⟩ := execBufClear_eq_next.mp ht
    · exact h.respond Response.failure_ok_inv
    · exact (h.setBuf ((h.buf sel).cleared_inv hlive hc)).respond Response.done_inv
  | bufDestroy sel =>
    obtain ⟨-, rfl⟩ | ⟨-, rfl⟩ := execBufDestroy_eq_next.mp ht
    · exact (h.setBuf (BufUnit.absent_inv _)).respond Response.done_inv
    · exact h.respond Response.done_inv
  | pktConstruct pd len type rnd data =>
    obtain rfl | ⟨r, ht, hr⟩ := execPktConstruct_eq_next ht
    · exact h.respond (Response.failure_inv nofun nofun)
    · refine h.returnPacket (fun k hk => ?_) ht
      obtain ⟨hmax, body, hbody, rfl⟩ := hr k hk
      exact constructed_inv hmax hbody
  | pktSerialize ps => exact execPktSerialize_inv h ht
  | pktDeserialize pd len bytes =>
    obtain rfl | ⟨r, ht, hr⟩ := execPktDeserialize_eq_next ht
    · exact h.respond (Response.failure_inv nofun nofun)
    · refine h.returnPacket (fun k hk => ?_) ht
      obtain ⟨f, hf⟩ := hr k hk
      exact deserialize_inv hf
  | pktDestroy ps =>
    obtain rfl | rfl := execPktDestroy_eq_next ht
    · exact h.respond (Response.failure_inv nofun nofun)
    · exact (h.setPkt (Packet.absent_inv _)).respond Response.done_inv
  | instCreate config =>
    obtain ⟨c, -, ⟨hpos, hcap⟩, rfl⟩ | ⟨-, rfl⟩ := execInstCreate_eq_next.mp ht
    · exact (h.openEndpoint hpos hcap).respond Response.done_inv
    · exact h.respond Response.failure_ok_inv
  | instClose =>
    obtain ⟨-, rfl⟩ | ⟨-, rfl⟩ := execInstClose_eq_next.mp ht
    · exact h.closeEndpoint.respond Response.done_inv
    · exact h.respond Response.done_inv
  | writePacket ps => exact execWritePacket_inv h ht
  | readPacket pd => exact execReadPacket_inv h ht

/-! ### The step -/

theorem step_of_nothing (hin : s.inputs = []) : step s = .next (s.taken []) := by
  simp [step, State.presented, hin]

theorem step_of_reset {rest : List Input} (hin : s.inputs = .reset :: rest) : step s = .next (s.afterReset rest) := by
  simp [step, State.presented, hin]

theorem step_of_decode {c : Command} {rest : List Input} {i : Instr} (hin : s.inputs = .command c :: rest)
    (h : decode s.params c = .ok i) : step s = exec i (s.taken rest) := by
  simp [step, State.presented, hin, h]

/-- Everything a step can do: wait, reset, run the decoded command, or answer an illegal word (R12, R96, R220, R221). -/
theorem step_cases (s : State) :
    (s.inputs = [] ∧ step s = .next (s.taken []))
      ∨ (∃ rest, s.inputs = .reset :: rest ∧ step s = .next (s.afterReset rest))
      ∨ ∃ c rest, s.inputs = .command c :: rest
          ∧ ((∃ i, decode s.params c = .ok i ∧ step s = exec i (s.taken rest))
            ∨ ∃ e, decode s.params c = .error e ∧ step s = (s.taken rest).illegal) := by
  cases hin : s.inputs with
  | nil => exact .inl ⟨rfl, step_of_nothing hin⟩
  | cons x rest =>
    cases x with
    | reset => exact .inr (.inl ⟨rest, rfl, step_of_reset hin⟩)
    | command c =>
      refine .inr (.inr ⟨c, rest, rfl, ?_⟩)
      cases hdec : decode s.params c with
      | ok i => exact .inl ⟨i, rfl, step_of_decode hin hdec⟩
      | error e => exact .inr ⟨e, rfl, step_of_decode_error hin hdec⟩

end

/-- Settles O15: the invariant holds after reset, and a command keeps it from the state with its input taken. -/
theorem stepKeepsInvariant : Obligations.StepKeepsInvariant := by
  intro s t h ht
  obtain ⟨-, hs⟩ | ⟨rest, -, hs⟩ | ⟨c, rest, -, ⟨i, -, hs⟩ | ⟨e, -, hs⟩⟩ := step_cases s
  · cases hs.symm.trans ht
    exact h.taken []
  · cases hs.symm.trans ht
    exact State.resetWith_inv h.1
  · exact exec_inv (h.taken rest) (hs.symm.trans ht)
  · cases hs.symm.trans ht
    exact (h.taken rest).respond (Response.failure_inv nofun nofun)

/-! ### Well-formed commands complete -/

/-- Every completed command answers (R90). -/
theorem exec_rsp {s t : State} {i : Instr} (ht : exec i s = .next t) : ∃ r, t.rsp = some r := by
  cases hreg : s.hasRegister i with
  | false =>
    rw [exec_of_lacking hreg, State.illegal_eq_next] at ht
    subst ht
    exact ⟨_, rfl⟩
  | true =>
    obtain ⟨r, hr, -⟩ | ⟨st, -, rfl⟩ := exec_grantedOrFailed hreg t ht
    · exact ⟨r, hr⟩
    · exact ⟨_, rfl⟩

section
variable {s : State}

theorem exec_bufUsed_total (h : s.Inv) (sel : Sel) : ∃ t, exec (.bufUsed sel) s = .next t := by
  obtain ⟨hdead, hlive⟩ := bufUsedResult s sel
  cases hl : (s.buf sel).live with
  | false => exact ⟨_, hdead hl⟩
  | true => exact ⟨_, hlive hl (by simp [(h.buf sel).head_toNat])⟩

theorem exec_bufWrite_total (h : s.Inv) (sel : Sel) {len : Word} {src : Option (List Byte)}
    (hpayload : payloadOk len src = true) : ∃ t, exec (.bufWrite sel len src) s = .next t := by
  cases hrej : (s.buf sel).rejectsWrite len.toNat src.isSome with
  | true => exact ⟨_, execBufWrite_of_rejects hrej⟩
  | false =>
    obtain ⟨-, -, hsome, hcap⟩ := BufUnit.rejectsWrite_eq_false_iff.mp hrej
    obtain ⟨bytes, rfl⟩ := Option.isSome_iff_exists.mp hsome
    have hlen : bytes.length = len.toNat := eq_of_beq hpayload
    obtain ⟨c, hc⟩ := (h.buf sel).store_total (hlen ▸ hcap)
    exact ⟨_, execBufWrite_of_store hrej hlen hc⟩

theorem exec_pktConstruct_total {pd : PktIdx} {len : Word} {data : Option (List Byte)} (hpd : pd.val < s.pkts.length)
    (hpayload : payloadOk len data = true) (type rnd : Word) :
    ∃ t, exec (.pktConstruct pd len type rnd data) s = .next t := by
  obtain ⟨hfail, hpass⟩ := pktConstructResult s pd len type rnd data hpd
  by_cases hdata : data = none ∧ 0 < len.toNat
  · exact ⟨_, hfail (.inl hdata)⟩
  by_cases hmax : len.toNat ≤ s.params.maxBody
  · exact ⟨_, hpass hdata hmax hpayload⟩
  · exact ⟨_, hfail (.inr (Nat.lt_of_not_le hmax))⟩

theorem exec_pktDeserialize_total {pd : PktIdx} {len : Word} {bytes : Option (List Byte)} (hpd : pd.val < s.pkts.length)
    (hpayload : payloadOk len bytes = true) : ∃ t, exec (.pktDeserialize pd len bytes) s = .next t := by
  cases bytes with
  | none => exact ⟨_, (exec_pktDeserialize_of_fail hpd (.inl rfl)).trans (returnPacket_eq ..)⟩
  | some f => exact ⟨_, (exec_pktDeserialize_of_length hpd (eq_of_beq hpayload)).trans (returnPacket_eq ..)⟩

theorem exec_pktSerialize_total (h : s.Inv) {ps : PktIdx} (hps : ps.val < s.pkts.length) :
    ∃ t, exec (.pktSerialize ps) s = .next t := by
  obtain ⟨k, hk⟩ := State.pkt_isSome_of_lt hps
  obtain ⟨r, hr⟩ := (h.pkt hk).serialize_total h.1
  cases r with
  | none => exact ⟨_, exec_pktSerialize_of_fail hk hr⟩
  | some f => exact ⟨_, exec_pktSerialize_of_frame hk hr⟩

theorem exec_writePacket_total (h : s.Inv) {ps : PktIdx} (hps : ps.val < s.pkts.length) :
    ∃ t, exec (.writePacket ps) s = .next t := by
  obtain ⟨k, hk⟩ := State.pkt_isSome_of_lt hps
  obtain ⟨r, hr⟩ := (h.pkt hk).serialize_total h.1
  obtain ⟨t, ht, -⟩ := writePacketResult s ps k r (h.buf .output) hk hr
  exact ⟨t, ht⟩

/-- The registers a well-formed command names are in the list. -/
theorem State.Inv.lt_of_indexOk (h : s.Inv) {i : PktIdx} (hi : decide (i.val < s.params.nPkt) = true) :
    i.val < s.pkts.length := by
  obtain ⟨-, -, ⟨hlen, -⟩, -⟩ := h
  exact hlen ▸ of_decide_eq_true hi

/-- Under the invariant a well-formed command meets neither a fault nor a refusal. -/
theorem exec_total (h : s.Inv) {i : Instr} (hi : i.indexOk s.params = true) (hpayload : i.payloadOk = true) :
    ∃ t, exec i s = .next t := by
  cases i with
  | bufCreate sel cap => exact (bufCreateResult s sel cap).imp fun _ => And.left
  | bufUsed sel => exact exec_bufUsed_total h sel
  | bufWrite sel len src => exact exec_bufWrite_total h sel hpayload
  | bufReadFull sel len dst => exact (bufReadAnswer s sel len dst h _ (by simp)).imp fun _ => And.left
  | bufReadPartial sel len dst => exact (bufReadAnswer s sel len dst h _ (by simp)).imp fun _ => And.left
  | bufReadPeek sel len dst => exact (bufReadAnswer s sel len dst h _ (by simp)).imp fun _ => And.left
  | bufClear sel => exact (bufClearResult s sel h).imp fun _ => And.left
  | bufDestroy sel => exact (bufDestroyResult s sel).imp fun _ => And.left
  | pktConstruct pd len type rnd data => exact exec_pktConstruct_total (h.lt_of_indexOk hi) hpayload type rnd
  | pktSerialize ps => exact exec_pktSerialize_total h (h.lt_of_indexOk hi)
  | pktDeserialize pd len bytes => exact exec_pktDeserialize_total (h.lt_of_indexOk hi) hpayload
  | pktDestroy ps => exact ⟨_, exec_pktDestroy (h.lt_of_indexOk hi)⟩
  | instCreate config => exact (instCreateResult s config).imp fun _ => And.left
  | instClose => exact (instCloseResult s).imp fun _ => And.left
  | writePacket ps => exact exec_writePacket_total h (h.lt_of_indexOk hi)
  | readPacket pd => exact (readPacketResult s pd h (h.lt_of_indexOk hi)).imp fun _ => And.left

end

/-- Settles O16: a well-formed command completes, answers, and keeps the invariant. -/
theorem wellFormedCommandsComplete : Obligations.WellFormedCommandsComplete := by
  intro s i h hwf
  obtain ⟨hi, hpayload⟩ : i.indexOk s.params = true ∧ i.payloadOk = true := by simpa [Instr.wellFormed] using hwf
  obtain ⟨t, ht⟩ := exec_total h hi hpayload
  obtain ⟨r, hr⟩ := exec_rsp ht
  exact ⟨t, r, ht, hr, exec_inv h ht⟩

end Sys2Proof.Machine
end

section
/-! SUPPORT. What a command changes (the frames of 40_byte_buffer.md to 43_io_facade.md), once for every command; then the
step's own statements (R12, R53, R220, R221). -/

namespace Sys2Proof.Machine

/-! ### What a command changes -/

/-- Two units of one extent: `live` and `cap` agree. -/
abbrev BufUnit.SameExtent (b c : BufUnit) : Prop := c.live = b.live ∧ c.cap = b.cap

/-- Two units of one extent and one `head`. -/
abbrev BufUnit.SameOrigin (b c : BufUnit) : Prop := b.SameExtent c ∧ c.head = b.head

/-- What a command may change of `s` besides the response, `u` being the state after it. -/
def State.ChangesTo (s u : State) : Instr → Prop
  | .bufUsed _ | .bufReadPeek _ _ _ | .pktSerialize _ => u = s
  | .bufCreate sel _ | .bufDestroy sel => ∃ c, u = s.setBuf sel c
  | .bufWrite sel len _ =>
    ∃ c, ((s.buf sel).SameExtent c ∧ ((s.buf sel).overwrites len.toNat = false → c.head = (s.buf sel).head))
      ∧ u = s.setBuf sel c
  | .bufReadFull sel _ _ | .bufReadPartial sel _ _ | .bufClear sel => ∃ c, (s.buf sel).SameOrigin c ∧ u = s.setBuf sel c
  | .pktConstruct x _ _ _ _ | .pktDeserialize x _ _ | .pktDestroy x => ∃ k, u = s.setPkt x k
  | .instCreate _ | .instClose => u = s ∨ u = s.closeEndpoint ∨ ∃ c, u = s.openEndpoint c
  | .writePacket _ => ∃ c, s.bufOut.SameExtent c ∧ u = s.setBuf .output c
  | .readPacket x => ∃ tail k, u = (s.setBuf .input { s.bufIn with tail := tail }).setPkt x k

section
variable {s t : State}

/-- A register write that changes nothing: of the value it holds, or of a register the block does not have. -/
theorem State.exists_setPkt_eq (s : State) (i : PktIdx) : ∃ k, s = s.setPkt i k := by
  by_cases hi : i.val < s.pkts.length
  · obtain ⟨k, hk⟩ := State.pkt_isSome_of_lt hi
    exact ⟨k, (State.setPkt_same hk).symm⟩
  · exact ⟨.absent, (State.setPkt_of_le (Nat.le_of_not_lt hi) _).symm⟩

theorem BufUnit.store_sameExtent {b c : BufUnit} {bytes : List Byte} (h : b.store bytes = .ok c) : b.SameExtent c := by
  obtain ⟨-, ⟨-, -, -, rfl⟩ | ⟨-, -, rfl⟩⟩ := BufUnit.store_eq_ok.mp h <;> exact ⟨rfl, rfl⟩

/-- Only an overwriting write moves `head`. -/
theorem BufUnit.store_head {b c : BufUnit} {bytes : List Byte} (h : b.store bytes = .ok c)
    (happend : b.overwrites bytes.length = false) : c.head = b.head := by
  obtain ⟨-, ⟨hover, -⟩ | ⟨-, -, rfl⟩⟩ := BufUnit.store_eq_ok.mp h
  · simp [happend] at hover
  · rfl

theorem BufUnit.afterFull_sameOrigin {b c : BufUnit} (h : b.afterFull = .ok c) : b.SameOrigin c := by
  cases (BufUnit.afterFull_eq b).symm.trans h
  exact ⟨⟨rfl, rfl⟩, rfl⟩

theorem BufUnit.afterPartial_sameOrigin {b c : BufUnit} {eff : Nat} (h : b.afterPartial eff = .ok c) : b.SameOrigin c := by
  obtain ⟨-, -, rfl⟩ := BufUnit.afterPartial_eq_ok.mp h
  exact ⟨⟨rfl, rfl⟩, rfl⟩

theorem BufUnit.cleared_sameOrigin {b c : BufUnit} (h : b.cleared = .ok c) : b.SameOrigin c := by
  obtain ⟨-, -, rfl⟩ | ⟨-, rfl⟩ := BufUnit.cleared_eq_ok.mp h <;> exact ⟨⟨rfl, rfl⟩, rfl⟩

/-- A read of any mode replaces its unit by what its effect makes of it, and no effect is one that leaves it. -/
theorem readWith_changes {effect : BufUnit → Nat → Except Fault BufUnit} {sel : Sel} {len : Word} {dst : Bool}
    {P : BufUnit → Prop} (hsame : P (s.buf sel)) (heffect : ∀ n c, effect (s.buf sel) n = .ok c → P c)
    (h : readWith effect sel len dst s = .next t) : ∃ c r, P c ∧ (s.setBuf sel c).respond r = t := by
  obtain ⟨-, rfl⟩ | ⟨out, c, -, hc, rfl⟩ := readWith_eq_next.mp h
  · exact ⟨_, _, hsame, by rw [State.setBuf_same]⟩
  · exact ⟨c, _, heffect _ c hc, rfl⟩

/-- A packet returned, whichever, is a write of its register. -/
theorem returnPacket_changes {pd : PktIdx} {r : Option Packet} (h : returnPacket s pd r = .next t) :
    ∃ k r', (s.setPkt pd k).respond r' = t :=
  ⟨_, _, Host.Outcome.next.inj ((returnPacket_eq s pd r).symm.trans h)⟩

theorem execWritePacket_changes {ps : PktIdx} (h : execWritePacket ps s = .next t) :
    ∃ c r, s.bufOut.SameExtent c ∧ (s.setBuf .output c).respond r = t := by
  have hsame : s.setBuf .output s.bufOut = s := s.setBuf_same .output
  obtain rfl | ⟨k, -, -, ⟨-, rfl⟩ | ⟨f, hf, hsend⟩⟩ := execWritePacket_eq_next h
  · exact ⟨_, _, ⟨rfl, rfl⟩, by rw [hsame]⟩
  · exact ⟨_, _, ⟨rfl, rfl⟩, by rw [hsame]⟩
  · obtain ⟨-, rfl⟩ | ⟨-, -, c, hc, rfl⟩ := (sendFrame_eq_next (serialize_ne_nil hf)).mp hsend
    · exact ⟨_, _, ⟨rfl, rfl⟩, by rw [hsame]⟩
    · exact ⟨c, _, BufUnit.store_sameExtent hc, rfl⟩

/-- Every completed command changes what `State.ChangesTo` says, and the response. -/
theorem exec_changes {i : Instr} (h : exec i s = .next t) : ∃ u r, s.ChangesTo u i ∧ u.respond r = t := by
  cases i with
  | bufCreate sel cap =>
    obtain ⟨-, rfl⟩ | ⟨-, rfl⟩ := execBufCreate_eq_next.mp h
    · exact ⟨_, _, ⟨_, (s.setBuf_same sel).symm⟩, rfl⟩
    · exact ⟨_, _, ⟨_, rfl⟩, rfl⟩
  | bufUsed sel => obtain ⟨-, rfl⟩ | ⟨-, u, -, rfl⟩ := execBufUsed_eq_next.mp h <;> exact ⟨_, _, rfl, rfl⟩
  | bufWrite sel len src =>
    obtain ⟨-, rfl⟩ | ⟨-, bytes, c, -, hlen, hc, rfl⟩ := execBufWrite_eq_next.mp h
    · exact ⟨_, _, ⟨_, ⟨⟨rfl, rfl⟩, fun _ => rfl⟩, (s.setBuf_same sel).symm⟩, rfl⟩
    · exact ⟨_, _, ⟨c, ⟨BufUnit.store_sameExtent hc, fun happend => BufUnit.store_head hc (hlen ▸ happend)⟩, rfl⟩, rfl⟩
  | bufReadFull sel len dst =>
    obtain ⟨c, r, hc, rfl⟩ := readWith_changes (P := (s.buf sel).SameOrigin) ⟨⟨rfl, rfl⟩, rfl⟩
      (fun _ _ => BufUnit.afterFull_sameOrigin) (exec_bufReadFull.symm.trans h)
    exact ⟨_, _, ⟨c, hc, rfl⟩, rfl⟩
  | bufReadPartial sel len dst =>
    obtain ⟨c, r, hc, rfl⟩ := readWith_changes (P := (s.buf sel).SameOrigin) ⟨⟨rfl, rfl⟩, rfl⟩
      (fun _ _ => BufUnit.afterPartial_sameOrigin) (exec_bufReadPartial.symm.trans h)
    exact ⟨_, _, ⟨c, hc, rfl⟩, rfl⟩
  | bufReadPeek sel len dst =>
    obtain ⟨c, r, rfl, rfl⟩ := readWith_changes (P := (· = s.buf sel)) rfl
      (fun _ _ hc => (Except.ok.inj hc).symm) (exec_bufReadPeek.symm.trans h)
    exact ⟨_, _, s.setBuf_same sel, rfl⟩
  | bufClear sel =>
    obtain ⟨-, rfl⟩ | ⟨-, c, hc, rfl⟩ := execBufClear_eq_next.mp h
    · exact ⟨_, _, ⟨_, ⟨⟨rfl, rfl⟩, rfl⟩, (s.setBuf_same sel).symm⟩, rfl⟩
    · exact ⟨_, _, ⟨c, BufUnit.cleared_sameOrigin hc, rfl⟩, rfl⟩
  | bufDestroy sel =>
    obtain ⟨-, rfl⟩ | ⟨-, rfl⟩ := execBufDestroy_eq_next.mp h
    · exact ⟨_, _, ⟨_, rfl⟩, rfl⟩
    · exact ⟨_, _, ⟨_, (s.setBuf_same sel).symm⟩, rfl⟩
  | pktConstruct pd len type rnd data =>
    obtain rfl | ⟨r, h, -⟩ := execPktConstruct_eq_next h
    · exact ⟨_, _, s.exists_setPkt_eq pd, rfl⟩
    · obtain ⟨k, r', rfl⟩ := returnPacket_changes h
      exact ⟨_, _, ⟨k, rfl⟩, rfl⟩
  | pktSerialize ps =>
    obtain ⟨k, -, ⟨-, rfl⟩ | ⟨f, -, rfl⟩⟩ | ⟨-, rfl⟩ := execPktSerialize_eq_next.mp h <;> exact ⟨_, _, rfl, rfl⟩
  | pktDeserialize pd len bytes =>
    obtain rfl | ⟨r, h, -⟩ := execPktDeserialize_eq_next h
    · exact ⟨_, _, s.exists_setPkt_eq pd, rfl⟩
    · obtain ⟨k, r', rfl⟩ := returnPacket_changes h
      exact ⟨_, _, ⟨k, rfl⟩, rfl⟩
  | pktDestroy ps =>
    obtain rfl | rfl := execPktDestroy_eq_next h
    · exact ⟨_, _, s.exists_setPkt_eq ps, rfl⟩
    · exact ⟨_, _, ⟨_, rfl⟩, rfl⟩
  | instCreate config =>
    obtain ⟨c, -, -, rfl⟩ | ⟨-, rfl⟩ := execInstCreate_eq_next.mp h
    · exact ⟨_, _, .inr (.inr ⟨c, rfl⟩), rfl⟩
    · exact ⟨_, _, .inl rfl, rfl⟩
  | instClose =>
    obtain ⟨-, rfl⟩ | ⟨-, rfl⟩ := execInstClose_eq_next.mp h
    · exact ⟨_, _, .inr (.inl rfl), rfl⟩
    · exact ⟨_, _, .inl rfl, rfl⟩
  | writePacket ps =>
    obtain ⟨c, r, hc, rfl⟩ := execWritePacket_changes h
    exact ⟨_, _, ⟨c, hc, rfl⟩, rfl⟩
  | readPacket pd =>
    have hsame : s.setBuf .input { s.bufIn with tail := s.bufIn.tail } = s := s.setBuf_same .input
    obtain rfl | h | ⟨-, h⟩ := execReadPacket_eq_next h
    · obtain ⟨k, hk⟩ := s.exists_setPkt_eq pd
      exact ⟨_, _, ⟨s.bufIn.tail, k, by rw [hsame, ← hk]⟩, rfl⟩
    · obtain ⟨k, r, rfl⟩ := returnPacket_changes h
      exact ⟨_, _, ⟨s.bufIn.tail, k, by rw [hsame]⟩, rfl⟩
    · obtain ⟨k, r, rfl⟩ := returnPacket_changes h
      exact ⟨_, _, ⟨_, k, rfl⟩, rfl⟩

end

/-- Settles O50: for the three commands `State.ChangesTo` is equality. -/
theorem readOnlyCommandsFrame : Obligations.ReadOnlyCommandsFrame := by
  intro s t i h hi
  obtain ⟨u, r, hu, rfl⟩ := exec_changes h
  obtain ⟨sel, rfl⟩ | ⟨sel, len, dst, rfl⟩ | ⟨ps, rfl⟩ := hi <;> cases hu <;> rfl

/-- Settles O53: the three commands write one register. -/
theorem packetCommandsFrame : Obligations.PacketCommandsFrame := by
  intro s t x i h hi
  obtain ⟨u, r, hu, rfl⟩ := exec_changes h
  have hset : ∃ k, u = s.setPkt x k := by
    obtain ⟨len, type, rnd, data, rfl⟩ | ⟨len, bytes, rfl⟩ | rfl := hi <;> exact hu
  obtain ⟨k, rfl⟩ := hset
  exact ⟨rfl, List.length_set .., fun j hj => s.setPkt_pkt_of_ne hj k⟩

/-- Settles O54: an endpoint opened or closed keeps its registers, parameters and inputs. -/
theorem instanceCommandsFrame : Obligations.InstanceCommandsFrame := by
  intro s t i h hi
  obtain ⟨u, r, hu, rfl⟩ := exec_changes h
  have hend : u = s ∨ u = s.closeEndpoint ∨ ∃ c, u = s.openEndpoint c := by
    obtain ⟨config, rfl⟩ | rfl := hi <;> exact hu
  obtain rfl | rfl | ⟨c, rfl⟩ := hend <;> exact ⟨rfl, rfl, rfl⟩

/-- Settles O56: READ_PACKET writes the `tail` of `IN` and one register. -/
theorem readPacketFrame : Obligations.ReadPacketFrame := by
  intro s t pd h
  obtain ⟨u, r, ⟨tail, k, rfl⟩, rfl⟩ := exec_changes h
  exact ⟨rfl, List.length_set .., fun j hj => State.setPkt_pkt_of_ne _ hj k⟩

/-- Settles O58: no change a command is made of touches the inputs or the parameters. -/
theorem commandsNeverTouchInputs : Obligations.CommandsNeverTouchInputs := by
  intro s t i h
  obtain ⟨u, r, hu, rfl⟩ := exec_changes h
  cases i with
  | bufUsed | bufReadPeek | pktSerialize => cases hu; exact ⟨rfl, rfl⟩
  | bufCreate | bufDestroy => obtain ⟨c, rfl⟩ := hu; simp
  | bufWrite | bufReadFull | bufReadPartial | bufClear | writePacket => obtain ⟨c, -, rfl⟩ := hu; simp
  | pktConstruct | pktDeserialize | pktDestroy => obtain ⟨k, rfl⟩ := hu; exact ⟨rfl, rfl⟩
  | instCreate | instClose => obtain rfl | rfl | ⟨c, rfl⟩ := hu <;> exact ⟨rfl, rfl⟩
  | readPacket => obtain ⟨tail, k, rfl⟩ := hu; exact ⟨rfl, rfl⟩

/-! ### The frames of the commands that write a unit -/

theorem otherUnit_ne (sel : Sel) : otherUnit sel ≠ sel := by cases sel <;> decide

/-- What writing one unit and answering leaves alone. -/
theorem State.setBuf_frame (s : State) (sel : Sel) (c : BufUnit) (r : Response) :
    ((s.setBuf sel c).respond r).buf (otherUnit sel) = s.buf (otherUnit sel)
      ∧ ((s.setBuf sel c).respond r).cfg = s.cfg ∧ ((s.setBuf sel c).respond r).instLive = s.instLive
      ∧ ((s.setBuf sel c).respond r).pkts = s.pkts ∧ ((s.setBuf sel c).respond r).params = s.params
      ∧ ((s.setBuf sel c).respond r).inputs = s.inputs := by
  simp [State.setBuf_buf_of_ne s (otherUnit_ne sel)]

/-- Settles O51: each of the six writes its unit, and all but the first two keep its extent. -/
theorem bufferCommandsFrame : Obligations.BufferCommandsFrame := by
  intro s t sel i h hi
  obtain ⟨u, r, hu, rfl⟩ := exec_changes h
  obtain ⟨cap, rfl⟩ | rfl | ⟨len, src, rfl⟩ | ⟨len, dst, rfl⟩ | ⟨len, dst, rfl⟩ | rfl := hi
  case inl =>
    obtain ⟨c, rfl⟩ := hu
    exact ⟨s.setBuf_frame sel c r, fun hne => absurd rfl (hne cap)⟩
  case inr.inl =>
    obtain ⟨c, rfl⟩ := hu
    exact ⟨s.setBuf_frame sel c r, fun _ hne => absurd rfl hne⟩
  case inr.inr.inl =>
    obtain ⟨c, ⟨⟨hlive, hcap⟩, hhead⟩, rfl⟩ := hu
    refine ⟨s.setBuf_frame sel c r, fun _ _ => ?_⟩
    rw [State.respond_buf, State.setBuf_buf]
    exact ⟨hlive, hcap, fun happend => hhead (happend len src rfl)⟩
  all_goals
    obtain ⟨c, ⟨⟨hlive, hcap⟩, hhead⟩, rfl⟩ := hu
    refine ⟨s.setBuf_frame sel c r, fun _ _ => ?_⟩
    rw [State.respond_buf, State.setBuf_buf]
    exact ⟨hlive, hcap, fun _ => hhead⟩

/-- An accepted write leaves every byte but those it stores, and those it zeroes when it overwrites (R113). -/
theorem BufUnit.Inv.store_frame {p : Params} {b c : BufUnit} {bytes : List Byte} (h : b.Inv p)
    (hs : b.store bytes = .ok c) {n a : Nat} (hn : bytes.length = n) (hstored : ¬(b.writeOffset n ≤ a ∧ a < b.writeOffset n + n))
    (hzeroed : ¬(b.overwrites n = true ∧ b.head.toNat ≤ a ∧ a < b.tail.toNat)) :
    c.region.read a = b.region.read a := by
  subst hn
  cases hover : b.overwrites bytes.length with
  | true =>
    simp only [BufUnit.writeOffset, hover, if_true, true_and] at hstored hzeroed
    rw [(h.store_overwrite_effect hs (of_decide_eq_true hover)).2, if_neg (by omega), if_neg hzeroed]
  | false =>
    simp only [BufUnit.writeOffset, hover, Bool.false_eq_true, if_false] at hstored
    rw [(h.store_append_effect hs (Nat.le_of_not_lt (of_decide_eq_false hover))).2, if_neg hstored]

/-- A partial read leaves every byte behind the unread ones it moves down (R116). -/
theorem BufUnit.Inv.afterPartial_frame {p : Params} {b c : BufUnit} {eff a : Nat} (h : b.Inv p)
    (hc : b.afterPartial eff = .ok c) (ha : b.tail.toNat - b.head.toNat - eff ≤ a) : c.region.read a = b.region.read a := by
  obtain ⟨-, -, rfl⟩ := BufUnit.afterPartial_eq_ok.mp hc
  obtain ⟨-, ⟨hwf, -⟩, -⟩ := h
  rw [Memory.read_writeBytes_readBytes hwf, if_neg (Nat.not_lt.mpr ha)]

section
variable {s t : State} {sel : Sel} {a : Nat}

theorem bufWrite_region_frame {len : Word} {src : Option (List Byte)} (h : s.Inv)
    (ht : exec (.bufWrite sel len src) s = .next t)
    (hstored : ¬((s.buf sel).writeOffset len.toNat ≤ a ∧ a < (s.buf sel).writeOffset len.toNat + len.toNat))
    (hzeroed : ¬((s.buf sel).overwrites len.toNat = true ∧ (s.buf sel).head.toNat ≤ a ∧ a < (s.buf sel).tail.toNat)) :
    (t.buf sel).region.read a = (s.buf sel).region.read a := by
  obtain ⟨-, rfl⟩ | ⟨-, bytes, c, -, hlen, hc, rfl⟩ := execBufWrite_eq_next.mp ht
  · rw [State.respond_buf]
  · rw [State.respond_buf, State.setBuf_buf]
    exact (h.buf sel).store_frame hc hlen hstored hzeroed

theorem bufReadPartial_region_frame {len : Word} {dst : Bool} (h : s.Inv)
    (ht : exec (.bufReadPartial sel len dst) s = .next t)
    (ha : (s.buf sel).tail.toNat - (s.buf sel).head.toNat - len.toNat ≤ a) :
    (t.buf sel).region.read a = (s.buf sel).region.read a := by
  obtain ⟨-, rfl⟩ | ⟨out, c, hfetch, hc, rfl⟩ := readWith_eq_next.mp (exec_bufReadPartial.symm.trans ht)
  · rw [State.respond_buf]
  · obtain ⟨-, ⟨⟩⟩ | ⟨-, -, ⟨-, ⟨⟩⟩ | ⟨-, -, -, -, ⟨⟩⟩⟩ := BufUnit.fetch_eq_ok.mp hfetch
    rw [Memory.length_readBytes] at hc
    rw [State.respond_buf, State.setBuf_buf]
    exact (h.buf sel).afterPartial_frame hc (by omega)

theorem bufClear_region_frame (h : s.Inv) (ht : exec (.bufClear sel) s = .next t)
    (ha : ¬((s.buf sel).head.toNat ≤ a ∧ a < (s.buf sel).tail.toNat)) :
    (t.buf sel).region.read a = (s.buf sel).region.read a := by
  obtain ⟨-, rfl⟩ | ⟨-, c, hc, rfl⟩ := execBufClear_eq_next.mp ht
  · rw [State.respond_buf]
  · obtain ⟨-, hread, -⟩ := (h.buf sel).cleared_effect hc
    rw [State.respond_buf, State.setBuf_buf, hread, if_neg ha]

end

/-- Settles O52: a write, a partial read and a clear have a frame each, and the other two commands change no unit. -/
theorem regionBytesFrame : Obligations.RegionBytesFrame := by
  intro s t sel i a h ht
  refine ⟨?_, ?_, ?_, ?_⟩
  · rintro len src rfl
    exact bufWrite_region_frame h ht
  · rintro len dst rfl
    exact bufReadPartial_region_frame h ht
  · rintro rfl
    exact bufClear_region_frame h ht
  · intro hi
    obtain ⟨u, r, hu, rfl⟩ := exec_changes ht
    obtain ⟨len, dst, rfl⟩ | rfl := hi <;> cases hu <;> rw [State.respond_buf]

/-- Settles O55: WRITE_PACKET writes `OUT` only, and there it is the write of a frame of 18 bytes and the body. -/
theorem writePacketFrame : Obligations.WritePacketFrame := by
  intro s t ps k h hk ht
  obtain ⟨u, r, ⟨c, ⟨hlive, hcap⟩, rfl⟩, rfl⟩ := exec_changes ht
  refine ⟨rfl, hlive, hcap, ?_⟩
  rintro n rfl a hstored hzeroed
  obtain hu | ⟨k', hk', -, ⟨-, hu⟩ | ⟨f, hf, hsend⟩⟩ := execWritePacket_eq_next ht
  · rw [← hu, State.respond_bufOut]
  · rw [← hu, State.respond_bufOut]
  obtain ⟨-, hu⟩ | ⟨-, -, c', hc', hu⟩ := (sendFrame_eq_next (serialize_ne_nil hf)).mp hsend
  · rw [← hu, State.respond_bufOut]
  · obtain rfl : k = k' := Option.some.inj (hk.symm.trans hk')
    obtain ⟨-, -, hbody, rfl⟩ := serialize_eq_some.mp hf
    rw [← hu, State.respond_bufOut, State.setBuf_output_bufOut]
    exact (h.buf .output).store_frame hc' (frameOf_length _ _ hbody) hstored hzeroed

/-! ### The units of a live endpoint -/

/-- A unit replaced by one of the same extent leaves the units paired with the endpoint. -/
theorem State.Paired.setBuf {s : State} (h : s.Paired) {sel : Sel} {c : BufUnit} (hc : (s.buf sel).SameExtent c) :
    (s.setBuf sel c).Paired := by
  intro hinst
  rw [State.setBuf_instLive] at hinst
  obtain ⟨hin, hout, hcapIn, hcapOut⟩ := h hinst
  obtain ⟨hlive, hcap⟩ := hc
  cases sel with
  | input => exact ⟨hlive.trans hin, hout, hcap.trans hcapIn, hcapOut⟩
  | output => exact ⟨hin, hlive.trans hout, hcapIn, hcap.trans hcapOut⟩

/-- Settles O40: an endpoint opens with both units at its capacity, and every other change keeps the extent of both. -/
theorem unitsStayPairedWithInstance : Obligations.UnitsStayPairedWithInstance := by
  intro s t i h hcreate hdestroy ht
  obtain ⟨u, r, hu, rfl⟩ := exec_changes ht
  change u.Paired
  cases i with
  | bufCreate sel cap => exact absurd rfl (hcreate sel cap)
  | bufDestroy sel => exact absurd rfl (hdestroy sel)
  | bufUsed | bufReadPeek | pktSerialize => exact hu ▸ h
  | bufWrite | bufReadFull | bufReadPartial | bufClear =>
    obtain ⟨c, ⟨hc, -⟩, rfl⟩ := hu
    exact h.setBuf hc
  | writePacket =>
    obtain ⟨c, hc, rfl⟩ := hu
    exact h.setBuf (sel := .output) hc
  | pktConstruct | pktDeserialize | pktDestroy =>
    obtain ⟨k, rfl⟩ := hu
    exact h
  | instCreate | instClose =>
    obtain rfl | rfl | ⟨c, rfl⟩ := hu
    · exact h
    · exact nofun
    · exact fun _ => ⟨rfl, rfl, rfl, rfl⟩
  | readPacket =>
    obtain ⟨tail, k, rfl⟩ := hu
    exact h

/-! ### The step -/

/-- Settles O7: the decoded command runs in the state with its input taken. -/
theorem stepRunsDecodedCommand : Obligations.StepRunsDecodedCommand :=
  fun _ _ _ _ hin hdec => step_of_decode hin hdec

/-- Settles O11: the state after reset is `State.afterReset`, whose units are absent. -/
theorem resetClearsEverything : Obligations.ResetClearsEverything := by
  intro s rest hin
  refine ⟨_, step_of_reset hin, ⟨rfl, rfl, rfl⟩, fun sel => ⟨?_, rfl⟩, rfl, rfl, rfl⟩
  cases sel <;> rfl

/-- Settles O12: with nothing presented the step takes no input and drops the response. -/
theorem nothingPresentedOnlyDropsTheResponse : Obligations.NothingPresentedOnlyDropsTheResponse := by
  intro s hin
  rw [step_of_nothing hin, State.taken, ← hin]

/-- A step looks at the inputs in the state that has dropped the response. -/
theorem step_with_rsp (s : State) (r : Option Response) : step { s with rsp := r } = step s := by
  obtain ⟨hin, hs⟩ | ⟨rest, hin, hs⟩ | ⟨c, rest, hin, ⟨i, hdec, hs⟩ | ⟨e, hdec, hs⟩⟩ := step_cases s
  · exact (step_of_nothing (s := { s with rsp := r }) hin).trans hs.symm
  · exact (step_of_reset (s := { s with rsp := r }) hin).trans hs.symm
  · exact (step_of_decode (s := { s with rsp := r }) hin hdec).trans hs.symm
  · exact (step_of_decode_error (s := { s with rsp := r }) hin hdec).trans hs.symm

/-- Settles O13: every step starts from a state without a response, and every command taken, legal or not, answers. -/
theorem portStreamsAreNotRetained : Obligations.PortStreamsAreNotRetained := by
  intro s
  refine ⟨step_with_rsp s, fun t ht => ?_⟩
  obtain ⟨hin, hs⟩ | ⟨rest, hin, hs⟩ | ⟨c, rest, hin, ⟨i, -, hs⟩ | ⟨e, -, hs⟩⟩ := step_cases s
  · cases hs.symm.trans ht
    simp [hin]
  · cases hs.symm.trans ht
    simp [hin]
  · have hexec := hs.symm.trans ht
    obtain ⟨hinputs, -⟩ := commandsNeverTouchInputs _ _ _ hexec
    obtain ⟨r, hr⟩ := exec_rsp hexec
    simp [hin, hinputs, hr]
  · cases hs.symm.trans ht
    simp [hin]

end Sys2Proof.Machine
end

section
/-! SUPPORT. The laws of the codec (41_packet_codec.md section 6): a frame is read back as its packet, and which bytes of an
accepted sequence matter. -/

namespace Sys2Proof.Machine

/-! ### A frame read back -/

/-- Field `i` of the header, read in the order it was written in (R72). -/
theorem fieldAt_frameOf_self (e : Endian) (k : Packet) (i : Fin 4) :
    fieldAt e (frameOf e k) (1 + 4 * i.val) = k.headerField i := by
  rw [fieldAt_frameOf, fieldAt_enc32]

/-- The size field of a frame (R72). -/
theorem size_frameOf (e : Endian) (k : Packet) : fieldAt e (frameOf e k) 5 = k.dataSize := fieldAt_frameOf_self e k 1

theorem drop_frameOf (e : Endian) (k : Packet) : (frameOf e k).drop 17 = k.body.take k.dataSize.toNat ++ [eot] := by
  cases e <;> rfl

/-- The packet that the frame of a valid register declares is the register (R31, R75). -/
theorem packetAt_frameOf {p : Params} {k : Packet} (h : k.Inv p) (hvalid : k.valid = true) (e : Endian) :
    packetAt e (frameOf e k) = k := by
  obtain ⟨-, hbody, hpresent⟩ := h.2 hvalid
  have hbits : bodyPresent k.dataSize.toNat = k.bodyValid := by
    rw [Bool.eq_iff_iff, hpresent, bodyPresent, decide_eq_true_iff]
  have hbytes : ((frameOf e k).drop 17).take k.dataSize.toNat = k.body := by
    rw [drop_frameOf, ← hbody, List.take_length, List.take_left]
  have hid : fieldAt e (frameOf e k) 1 = k.id := fieldAt_frameOf_self e k 0
  have htype : fieldAt e (frameOf e k) 9 = k.type := fieldAt_frameOf_self e k 2
  have hchecksum : fieldAt e (frameOf e k) 13 = k.checksum := fieldAt_frameOf_self e k 3
  simp only [packetAt, size_frameOf, hid, htype, hchecksum, hbits, hbytes, ← hvalid]

/-- The frame of a valid register is accepted and gives the register back (R31, R151). -/
theorem deserialize_frameOf {p : Params} {k : Packet} (h : k.Inv p) (hvalid : k.valid = true) :
    deserialize p (frameOf p.endian k) = some k := by
  obtain ⟨hmax, hbody, -⟩ := h.2 hvalid
  have hlen := frameOf_length p.endian k hbody.ge
  refine deserialize_eq_some.mpr ⟨⟨by omega, byteAt_frameOf_zero _ _, ?_⟩, ?_, ?_, packetAt_frameOf h hvalid _⟩
  · rw [size_frameOf, hlen]
  · rw [size_frameOf]
    exact hmax
  · rw [size_frameOf]
    exact byteAt_frameOf_eot _ hbody.ge

/-- Settles O35: a valid register has a frame of 18 bytes and the body, which declares the register. -/
theorem codecRoundTrip : Obligations.CodecRoundTrip := by
  intro p k hp h hvalid
  obtain ⟨-, hbody, -⟩ := h.2 hvalid
  exact ⟨_, h.serialize_eq hp hvalid, frameOf_length _ k hbody.ge, deserialize_frameOf h hvalid⟩

/-! ### Bytes and fields of a changed sequence -/

section
variable {s s' : List Byte} {i j : Nat}

theorem byteAt_set_self (h : j < s.length) (b : Byte) : byteAt (s.set j b) j = b := by
  simp [byteAt, h]

theorem byteAt_set_of_ne (h : i ≠ j) (b : Byte) : byteAt (s.set j b) i = byteAt s i := by
  simp [byteAt, List.getD_eq_getElem?_getD, List.getElem?_set_ne h.symm]

theorem byteAt_take_of_lt {m : Nat} (h : i < m) : byteAt (s.take m) i = byteAt s i := by
  simp [byteAt, List.getD_eq_getElem?_getD, h]

/-- A field depends on its four bytes only. -/
theorem fieldAt_congr (e : Endian) {off off' : Nat} (h : ∀ n < 4, byteAt s (off + n) = byteAt s' (off' + n)) :
    fieldAt e s off = fieldAt e s' off' := by
  have h0 : byteAt s off = byteAt s' off' := h 0 (by decide)
  rw [fieldAt, fieldAt, h0, h 1 (by decide), h 2 (by decide), h 3 (by decide)]

/-- The sequence with other bytes in its size field (R157). -/
def resized (e : Endian) (s : List Byte) (v : Word) : List Byte := s.take 5 ++ enc32 e v ++ s.drop 9

section
variable {e : Endian} {v : Word}

theorem resized_length (h : 9 ≤ s.length) : (resized e s v).length = s.length := by
  simp [resized]
  omega

/-- The size field of a resized sequence is the new size. -/
theorem fieldAt_resized (h : 9 ≤ s.length) : fieldAt e (resized e s v) 5 = v := by
  have htake : (s.take 5).length = 5 := List.length_take_of_le (by omega)
  refine (fieldAt_congr e fun n hn => ?_).trans (fieldAt_enc32 e v)
  rw [resized, List.append_assoc, byteAt, List.getD_append_right _ _ _ _ (by omega), htake,
    List.getD_append _ _ _ _ (by rw [enc32_length]; omega), byteAt, Nat.add_sub_cancel_left, Nat.zero_add]

/-- Behind its size field a resized sequence is as it was. -/
theorem byteAt_resized_of_le (h : 9 ≤ s.length) (hi : 9 ≤ i) : byteAt (resized e s v) i = byteAt s i := by
  have hfront : (s.take 5 ++ enc32 e v).length = 9 := by
    rw [List.length_append, List.length_take_of_le (by omega), enc32_length]
  rw [resized, byteAt, List.getD_append_right _ _ _ _ (by omega), hfront, byteAt, List.getD_eq_getElem?_getD,
    List.getElem?_drop, Nat.add_sub_cancel' hi, List.getD_eq_getElem?_getD]

end
end

/-! ### What breaks an accepted sequence -/

section
variable {p : Params} {s : List Byte} {ds : Nat}

/-- A change of a byte outside the size field leaves the size (R75). -/
theorem fieldAt_set_of_outside (e : Endian) {j : Nat} (hj : j < 5 ∨ 9 ≤ j) (b : Byte) :
    fieldAt e (s.set j b) 5 = fieldAt e s 5 :=
  fieldAt_congr e fun n hn => byteAt_set_of_ne (by omega) b

/-- Another first byte (R157). -/
theorem deserialize_set_soh (hlen : 18 ≤ s.length) {b : Byte} (hb : b ≠ soh) : deserialize p (s.set 0 b) = none := by
  refine deserialize_eq_none.mpr ?_
  rintro ⟨⟨-, hsoh, -⟩, -⟩
  rw [byteAt_set_self (by omega)] at hsoh
  exact hb hsoh

/-- Another byte at the terminator (R157). -/
theorem deserialize_set_eot (hds : ds = (fieldAt p.endian s 5).toNat) (hlen : 18 + ds ≤ s.length) {b : Byte}
    (hb : b ≠ eot) : deserialize p (s.set (17 + ds) b) = none := by
  refine deserialize_eq_none.mpr ?_
  rintro ⟨-, -, heot⟩
  rw [fieldAt_set_of_outside p.endian (by omega), ← hds, byteAt_set_self (by omega)] at heot
  exact hb heot

/-- A cut below the frame (R157). -/
theorem deserialize_take (hds : ds = (fieldAt p.endian s 5).toNat) {m : Nat} (hm : m < 18 + ds) :
    deserialize p (s.take m) = none := by
  refine deserialize_eq_none.mpr ?_
  rintro ⟨⟨hlen, -, hsize⟩, -⟩
  rw [List.length_take] at hlen hsize
  have hfield : fieldAt p.endian (s.take m) 5 = fieldAt p.endian s 5 :=
    fieldAt_congr p.endian fun n hn => byteAt_take_of_lt (by omega)
  rw [hfield] at hsize
  omega

/-- Any other byte may change (R157). -/
theorem deserialize_set_isSome (hds : ds = (fieldAt p.endian s 5).toNat) (h : (deserialize p s).isSome = true) {j : Nat}
    (hj : (1 ≤ j ∧ j < 5) ∨ (9 ≤ j ∧ j < 17 + ds) ∨ 18 + ds ≤ j) (b : Byte) :
    (deserialize p (s.set j b)).isSome = true := by
  rw [deserialize_isSome] at h ⊢
  rw [List.length_set, fieldAt_set_of_outside p.endian (by omega), byteAt_set_of_ne (by omega), ← hds,
    byteAt_set_of_ne (by omega), hds]
  exact h

/-- A size that does not fit the length (R157). -/
theorem deserialize_resized_of_long (hlen : 18 ≤ s.length) {v : Word} (hv : s.length - 18 < v.toNat) :
    deserialize p (resized p.endian s v) = none := by
  refine deserialize_eq_none.mpr ?_
  rintro ⟨⟨-, -, hsize⟩, -⟩
  rw [fieldAt_resized (by omega), resized_length (by omega)] at hsize
  omega

/-- A size that fits, without a terminator where it points (R157). -/
theorem deserialize_resized_of_no_eot (hlen : 18 ≤ s.length) {v : Word} (hv : byteAt s (17 + v.toNat) ≠ eot) :
    deserialize p (resized p.endian s v) = none := by
  refine deserialize_eq_none.mpr ?_
  rintro ⟨-, -, heot⟩
  rw [fieldAt_resized (by omega), byteAt_resized_of_le (by omega) (by omega)] at heot
  exact hv heot

end

/-- Settles O36: the five conditions are those of `deserialize_isSome`, and each change leaves or breaks one of them. -/
theorem acceptanceAndCorruption : Obligations.AcceptanceAndCorruption := by
  refine ⟨fun p s => ?_, fun p s ds hds h => ?_⟩
  · rw [deserialize_isSome]
    constructor
    · rintro ⟨⟨hlen, hsoh, hsize⟩, hmax, heot⟩
      exact ⟨hlen, hsoh, by omega, hmax, heot⟩
    · rintro ⟨hlen, hsoh, hsize, hmax, heot⟩
      exact ⟨⟨hlen, hsoh, by omega⟩, hmax, heot⟩
  · obtain ⟨⟨hlen, -, hsize⟩, -⟩ := deserialize_isSome.mp h
    exact ⟨fun b => deserialize_set_soh hlen, fun b => deserialize_set_eot hds (hds ▸ hsize),
      fun m => deserialize_take hds, fun j b hj => deserialize_set_isSome hds h hj b,
      fun v => deserialize_resized_of_long hlen, fun v _ => deserialize_resized_of_no_eot hlen⟩

end Sys2Proof.Machine
end

section
/-! SUPPORT. The valid bytes of a unit as a queue (40_byte_buffer.md section 12): what each operation over a unit does to
`BufUnit.contents`. The content law, and what an endpoint sends and receives, follow from it. -/

namespace Sys2Proof.Machine

/-! ### The bytes of a read, in parts -/

theorem Memory.readBytes_eq_nil {m : Memory} {off n : Nat} : m.readBytes off n = [] ↔ n = 0 := by
  rw [← List.length_eq_zero_iff, Memory.length_readBytes]

theorem Memory.take_readBytes (m : Memory) (off n k : Nat) : (m.readBytes off n).take k = m.readBytes off (min k n) := by
  apply List.ext_getElem?
  intro i
  simp only [List.getElem?_take, Memory.getElem?_readBytes, lt_min_iff, ite_and]

theorem Memory.drop_readBytes (m : Memory) (off n k : Nat) : (m.readBytes off n).drop k = m.readBytes (off + k) (n - k) := by
  apply List.ext_getElem?
  intro i
  simp only [List.getElem?_drop, Memory.getElem?_readBytes, Nat.add_assoc, Nat.lt_sub_iff_add_lt']

/-! ### The contents of a unit -/

section
variable {p : Params} {b c : BufUnit}

@[simp] theorem BufUnit.length_contents (b : BufUnit) : b.contents.length = b.tail.toNat - b.head.toNat :=
  Memory.length_readBytes ..

/-- A unit holds something exactly when its cursors differ (R26). -/
theorem BufUnit.contents_eq_nil {b : BufUnit} : b.contents = [] ↔ b.tail.toNat ≤ b.head.toNat := by
  rw [BufUnit.contents, Memory.readBytes_eq_nil, Nat.sub_eq_zero_iff_le]

theorem BufUnit.contents_ne_nil {b : BufUnit} : b.contents ≠ [] ↔ b.head.toNat < b.tail.toNat := by
  rw [Ne, BufUnit.contents_eq_nil, Nat.not_le]

/-- With the cursors together a unit is empty (R26). -/
theorem BufUnit.contents_of_tail_eq_head {b : BufUnit} (h : b.tail = b.head) : b.contents = [] :=
  BufUnit.contents_eq_nil.mpr (by rw [h])

/-- Under the invariant the valid bytes stand from offset 0 on (R27). -/
theorem BufUnit.Inv.contents_eq (h : b.Inv p) : b.contents = b.region.readBytes 0 b.tail.toNat := by
  rw [BufUnit.contents, h.head_toNat, Nat.sub_zero]

/-- An accepted write that does not fit replaces the contents (R113). -/
theorem BufUnit.Inv.store_contents_of_overwrites (h : b.Inv p) {bytes : List Byte} (hs : b.store bytes = .ok c)
    (hover : b.overwrites bytes.length = true) : c.contents = bytes := by
  obtain ⟨-, ⟨hwf, -⟩, -⟩ := h
  obtain ⟨-, ⟨-, -, hn, rfl⟩ | ⟨hfits, -⟩⟩ := BufUnit.store_eq_ok.mp hs
  · have hlen : (BitVec.ofNat 32 bytes.length).toNat = bytes.length := Nat.mod_eq_of_lt (hn.trans_lt b.cap.isLt)
    simp only [BufUnit.contents, hlen]
    exact Memory.readBytes_writeBytes (Memory.zero_wf hwf _ _) 0 bytes
  · simp [hover] at hfits

/-- An accepted write that fits is appended to the contents (R113). -/
theorem BufUnit.Inv.store_contents_of_fits (h : b.Inv p) {bytes : List Byte} (hs : b.store bytes = .ok c)
    (hfits : b.overwrites bytes.length = false) : c.contents = b.contents ++ bytes := by
  have hhead := h.head_toNat
  have hcontents := h.contents_eq
  obtain ⟨-, ⟨hwf, -⟩, -⟩ := h
  obtain ⟨-, ⟨hover, -⟩ | ⟨-, hn, rfl⟩⟩ := BufUnit.store_eq_ok.mp hs
  · simp [hfits] at hover
  · have hlen : (BitVec.ofNat 32 (b.tail.toNat + bytes.length)).toNat = b.tail.toNat + bytes.length :=
      Nat.mod_eq_of_lt (hn.trans_lt b.cap.isLt)
    have hold : (b.region.writeBytes b.tail.toNat bytes).readBytes 0 b.tail.toNat = b.region.readBytes 0 b.tail.toNat :=
      Memory.readBytes_congr fun i hi => by rw [Memory.read_writeBytes hwf, if_neg (by omega)]
    rw [hcontents, BufUnit.contents]
    simp only [hlen, hhead, Nat.sub_zero]
    rw [Memory.readBytes_append, hold, Nat.zero_add, Memory.readBytes_writeBytes hwf]

/-- What an accepted write does to the contents: extend or replace (R121). -/
theorem BufUnit.Inv.store_contents (h : b.Inv p) {bytes : List Byte} (hs : b.store bytes = .ok c) :
    c.contents = if bytes.length ≤ b.cap.toNat - b.contents.length then b.contents ++ bytes else bytes := by
  rw [BufUnit.length_contents]
  by_cases hfits : bytes.length ≤ b.cap.toNat - (b.tail.toNat - b.head.toNat)
  · rw [if_pos hfits, h.store_contents_of_fits hs (decide_eq_false (Nat.not_lt.mpr hfits))]
  · rw [if_neg hfits, h.store_contents_of_overwrites hs (decide_eq_true (Nat.lt_of_not_le hfits))]

/-- A partial read takes the first bytes off the contents (R116). -/
theorem BufUnit.Inv.afterPartial_contents (h : b.Inv p) {eff : Nat} (hc : b.afterPartial eff = .ok c) :
    c.contents = b.contents.drop eff := by
  have hhead := h.head_toNat
  have hcontents := h.contents_eq
  obtain ⟨-, ⟨hwf, -⟩, -⟩ := h
  obtain ⟨-, -, rfl⟩ := BufUnit.afterPartial_eq_ok.mp hc
  have hlen : (BitVec.ofNat 32 (b.tail.toNat - eff)).toNat = b.tail.toNat - eff :=
    Nat.mod_eq_of_lt ((Nat.sub_le _ _).trans_lt b.tail.isLt)
  have hback := Memory.readBytes_writeBytes hwf 0 (b.region.readBytes eff (b.tail.toNat - eff))
  rw [Memory.length_readBytes] at hback
  rw [hcontents, Memory.drop_readBytes, BufUnit.contents]
  simp only [hlen, hhead, Nat.sub_zero, hback, Nat.zero_add]

theorem BufUnit.afterFull_contents (h : b.afterFull = .ok c) : c.contents = [] := by
  cases (BufUnit.afterFull_eq b).symm.trans h
  exact BufUnit.contents_of_tail_eq_head rfl

theorem BufUnit.Inv.cleared_contents (h : b.Inv p) (hc : b.cleared = .ok c) : c.contents = [] := by
  obtain ⟨⟨-, -, hhead, htail⟩, -⟩ := h.cleared_effect hc
  exact BufUnit.contents_of_tail_eq_head (htail.trans hhead.symm)

end

/-! ### The commands on the queue -/

section
variable {s : State} {sel : Sel} {len : Word}

/-- A performed read of any mode answers the first bytes of the contents, as many as asked for, and applies its effect (R114,
R121). -/
theorem readWith_of_contents {effect : BufUnit → Nat → Except Fault BufUnit} (h : s.Inv) (hlive : (s.buf sel).live = true)
    (hlen : 0 < len.toNat) (hne : (s.buf sel).contents ≠ []) {c : BufUnit}
    (hc : effect (s.buf sel) (min len.toNat (s.buf sel).contents.length) = .ok c) :
    readWith effect sel len true s = .next ((s.setBuf sel c).respond (.bytes ((s.buf sel).contents.take len.toNat))) := by
  rw [BufUnit.length_contents] at hc
  rw [readWith_of_performs h hlive (BufUnit.contents_ne_nil.mp hne) hlen rfl hc, BufUnit.contents, Memory.take_readBytes]

end

/-- Settles O27: each command is an operation over the unit that does to its contents what the law says. -/
theorem contentsAreAQueue : Obligations.ContentsAreAQueue := by
  intro s sel h hlive
  have hunit := h.buf sel
  refine ⟨fun len bytes hlen hpos hcap => ?_, fun len hlen hne => ?_, fun len hlen hne => ?_, fun len hlen hne => ?_, ?_,
    fun cap hcap => ?_⟩
  · obtain ⟨c, hc⟩ := hunit.store_total (hlen ▸ hcap)
    refine ⟨_, execBufWrite_of_store (BufUnit.rejectsWrite_eq_false hlive hpos hcap) hlen hc, ?_⟩
    rw [State.respond_buf, State.setBuf_buf, ← hlen, hunit.store_contents hc]
  · have heff : min len.toNat (s.buf sel).contents.length ≤ (s.buf sel).tail.toNat := by
      rw [BufUnit.length_contents]
      omega
    obtain ⟨c, hc⟩ := hunit.afterPartial_total heff
    refine ⟨_, _, exec_bufReadPartial.trans (readWith_of_contents h hlive hlen hne hc), rfl, rfl, ?_⟩
    rw [State.respond_buf, State.setBuf_buf, hunit.afterPartial_contents hc, ← List.drop_eq_drop_min]
  · refine ⟨_, _, exec_bufReadFull.trans (readWith_of_contents h hlive hlen hne (BufUnit.afterFull_eq _)), rfl, rfl, ?_⟩
    rw [State.respond_buf, State.setBuf_buf]
    exact BufUnit.afterFull_contents (BufUnit.afterFull_eq _)
  · refine ⟨_, _, exec_bufReadPeek.trans (readWith_of_contents h hlive hlen hne rfl), rfl, rfl, ?_⟩
    rw [State.respond_buf, State.setBuf_buf]
  · obtain ⟨c, hc⟩ := hunit.cleared_total
    refine ⟨_, execBufClear_eq_next.mpr (.inr ⟨hlive, c, hc, rfl⟩), ?_⟩
    rw [State.respond_buf, State.setBuf_buf, hunit.cleared_contents hc]
  · refine ⟨_, execBufCreate_eq_next.mpr (.inr ⟨hcap, rfl⟩), ?_⟩
    rw [State.respond_buf, State.setBuf_buf]
    exact BufUnit.contents_of_tail_eq_head rfl

/-- What a read of any mode of `n` bytes answers of a unit, with a destination (R114). -/
def BufUnit.readAnswer (b : BufUnit) (n : Nat) : Response :=
  if b.live = true ∧ b.contents ≠ [] ∧ 0 < n then .bytes (b.contents.take n) else .failure .ok

/-- A read of any mode whose effect completes answers `BufUnit.readAnswer` (R114). -/
theorem readWith_answer {effect : BufUnit → Nat → Except Fault BufUnit} {s : State} (h : s.Inv) (sel : Sel) (len : Word)
    (heffect : ∀ eff ≤ (s.buf sel).tail.toNat, ∃ c, effect (s.buf sel) eff = .ok c) :
    ∃ t, readWith effect sel len true s = .next t ∧ t.rsp = some ((s.buf sel).readAnswer len.toNat) := by
  unfold BufUnit.readAnswer
  split
  · next hperform =>
    obtain ⟨hlive, hne, hlen⟩ := hperform
    obtain ⟨c, hc⟩ := heffect (min len.toNat (s.buf sel).contents.length) (by rw [BufUnit.length_contents]; omega)
    exact ⟨_, readWith_of_contents h hlive hlen hne hc, rfl⟩
  · next hreject =>
    refine ⟨_, readWith_of_rejects h ?_, rfl⟩
    rw [BufUnit.contents_ne_nil, not_and_or, not_and_or, Bool.not_eq_true] at hreject
    exact hreject.imp_right fun hrest => hrest.elim (fun hused => .inl (by omega)) fun hlen => .inr (.inr (by omega))

/-- Settles O28: the answer of a read is a function of its unit and its length, and a peek leaves the unit. -/
theorem peekThenPartialReturnsSameBytes : Obligations.PeekThenPartialReturnsSameBytes := by
  intro s sel len h
  obtain ⟨t, ht, hpeek⟩ := readWith_answer (effect := fun b _ => .ok b) h sel len fun _ _ => ⟨_, rfl⟩
  have hinv : t.Inv := exec_inv (i := .bufReadPeek sel len true) h ht
  have hsame : t.buf sel = s.buf sel := by
    obtain ⟨u, r, rfl, rfl⟩ := exec_changes (i := .bufReadPeek sel len true) ht
    rw [State.respond_buf]
  obtain ⟨u, hu, hpartial⟩ := readWith_answer (effect := BufUnit.afterPartial) hinv sel len
    fun _ heff => (hinv.buf sel).afterPartial_total heff
  exact ⟨t, u, ht, hu, by rw [hpeek, hpartial, hsame]⟩

/-! ### What an endpoint sends and receives -/

/-- Settles O43: the frame has 18 bytes besides the body, and `OUT` of the endpoint just opened takes a frame below its
capacity. -/
theorem endpointSizeBoundsTheBody : Obligations.EndpointSizeBoundsTheBody := by
  intro s c ps k h hk hvalid hpos hcap
  have hopen := exec_instCreate_of_size (s := s) ⟨hpos, hcap⟩
  have hinv := exec_inv h hopen
  have hframe : serialize s.params k = .ok (some (frameOf s.params.endian k)) := (h.pkt hk).serialize_eq h.1 hvalid
  obtain ⟨-, hbody, -⟩ := (h.pkt hk).2 hvalid
  have hlen := frameOf_length s.params.endian k hbody.ge
  obtain ⟨u, hu, -, hpresent⟩ := writePacketResult _ ps k _ (hinv.buf .output) hk hframe
  obtain ⟨-, hsend⟩ := hpresent rfl hvalid rfl
  obtain ⟨hfull, hfits⟩ := hsend _ rfl
  rw [hlen] at hfull hfits
  by_cases hle : c.bufferSize.toNat ≤ 18 + k.dataSize.toNat
  · exact ⟨_, u, ⟨false, .bufferFailure, 0, []⟩, hopen, hu, by rw [hfull hle], iff_of_false nofun (by omega)⟩
  · obtain ⟨v, -, rfl⟩ := hfits (Nat.lt_of_not_le hle)
    exact ⟨_, _, _, hopen, hu, rfl, iff_of_true rfl (by omega)⟩

/-- Bytes written to an empty live unit that they fit become its contents (R113). -/
theorem exec_bufWrite_of_empty {s : State} {sel : Sel} {f : List Byte} (h : s.Inv) (hlive : (s.buf sel).live = true)
    (hempty : (s.buf sel).contents = []) (hne : f ≠ []) (hcap : f.length < (s.buf sel).cap.toNat) :
    ∃ c r, exec (.bufWrite sel (BitVec.ofNat 32 f.length) (some f)) s = .next ((s.setBuf sel c).respond r)
      ∧ c.Inv s.params ∧ c.live = true ∧ c.contents = f := by
  have hlen : (BitVec.ofNat 32 f.length).toNat = f.length := Nat.mod_eq_of_lt (hcap.trans (s.buf sel).cap.isLt)
  have hacc := BufUnit.rejectsWrite_eq_false hlive (List.length_pos_iff.mpr hne) hcap
  obtain ⟨c, hc⟩ := (h.buf sel).store_total hcap
  refine ⟨c, _, execBufWrite_of_store (by rwa [hlen]) hlen.symm hc, (h.buf sel).store_inv hlive hc,
    (BufUnit.store_sameExtent hc).1.trans hlive, ?_⟩
  rw [(h.buf sel).store_contents hc, hempty, List.nil_append, ite_self]

/-- Settles O44: the frame becomes the contents of `IN`, which READ_PACKET consumes and parses whole. -/
theorem fedFrameIsReadBack : Obligations.FedFrameIsReadBack := by
  intro s pd k f h hpd hinst hlive hempty hk hf hcap
  have hne := serialize_ne_nil hf
  obtain ⟨⟨hvalid, -, -⟩, -, -, rfl⟩ := serialize_eq_some.mp hf
  obtain ⟨c, r, hwrite, ⟨⟨-, hccap, -⟩, -⟩, hclive, hcontents⟩ :=
    exec_bufWrite_of_empty h (sel := .input) hlive (BufUnit.contents_of_tail_eq_head hempty) hne hcap
  have hread := exec_readPacket_of_used (s := (s.setBuf .input c).respond r) hpd hinst hclive
    (BufUnit.contents_ne_nil.mp (hcontents ▸ hne)) hccap
  have hpacket : deserialize s.params c.contents = some k := hcontents ▸ deserialize_frameOf hk hvalid
  simp only [State.respond_params, State.respond_bufIn, State.setBuf_params, State.setBuf_input_bufIn, hpacket] at hread
  exact ⟨_, _, hwrite, hread, State.setPkt_pkt _ hpd k, rfl, rfl⟩

end Sys2Proof.Machine
end

section
/-! SUPPORT. The answers of the commands: which carry a count and bytes (R90), and what each command answers right after
reset (70_reset_and_hazards.md section 1). -/

namespace Sys2Proof.Machine

/-! ### The shape of a response -/

/-- A response that counts the bytes it carries, with `ok` when there are any (R90). -/
def Response.Counted (r : Response) : Prop := r.data.length = r.count.toNat ∧ (r.ok = true ↔ 0 < r.count.toNat)

/-- A response that returns nothing (R90). -/
def Response.Bare (r : Response) : Prop := r.count = 0 ∧ r.data = []

theorem Response.failure_bare (st : Status) : (Response.failure st).Bare := ⟨rfl, rfl⟩
theorem Response.done_bare : Response.done.Bare := ⟨rfl, rfl⟩
theorem Response.failure_counted (st : Status) : (Response.failure st).Counted := ⟨rfl, iff_of_false nofun (lt_irrefl 0)⟩

theorem Response.bytes_counted {out : List Byte} (h : out.length < 2 ^ 32) : (Response.bytes out).Counted := by
  have hcount : (Response.bytes out).count.toNat = out.length := Nat.mod_eq_of_lt h
  exact ⟨hcount.symm, by rw [hcount]; exact decide_eq_true_iff⟩

theorem Response.wrote_ok_iff (len : Word) :
    (Response.wrote len.toNat).ok = true ↔ 0 < (Response.wrote len.toNat).count.toNat := by
  simp [Response.wrote]

/-- A state whose response meets `P`. -/
def State.Answers (P : Response → Prop) (t : State) : Prop := ∀ r, t.rsp = some r → P r

section
variable {s t : State} {P : Response → Prop}

theorem State.respond_answers {r : Response} (h : P r) : (s.respond r).Answers P := by
  rintro _ ⟨⟩
  exact h

theorem readWith_answers_counted {effect : BufUnit → Nat → Except Fault BufUnit} {sel : Sel} {len : Word} {dst : Bool}
    (h : readWith effect sel len dst s = .next t) : t.Answers Response.Counted := by
  obtain ⟨-, rfl⟩ | ⟨out, c, hfetch, -, rfl⟩ := readWith_eq_next.mp h
  · exact State.respond_answers (Response.failure_counted _)
  · obtain ⟨-, ⟨⟩⟩ | ⟨-, -, ⟨-, ⟨⟩⟩ | ⟨-, -, -, hcap, ⟨⟩⟩⟩ := BufUnit.fetch_eq_ok.mp hfetch
    have hbound := (s.buf sel).cap.isLt
    exact State.respond_answers (Response.bytes_counted (by rw [Memory.length_readBytes]; omega))

theorem execPktSerialize_answers_counted {ps : PktIdx} (h : execPktSerialize ps s = .next t) :
    t.Answers Response.Counted := by
  obtain ⟨k, -, ⟨-, rfl⟩ | ⟨f, hf, rfl⟩⟩ | ⟨-, rfl⟩ := execPktSerialize_eq_next.mp h
  · exact State.respond_answers (Response.failure_counted _)
  · obtain ⟨⟨-, -, hsize⟩, -, hbody, rfl⟩ := serialize_eq_some.mp hf
    exact State.respond_answers (Response.bytes_counted (by rw [frameOf_length _ _ hbody]; omega))
  · exact State.respond_answers (Response.failure_counted _)

theorem returnPacket_answers_bare {pd : PktIdx} {r : Option Packet} (h : returnPacket s pd r = .next t) :
    t.Answers Response.Bare := by
  obtain ⟨k, -, rfl⟩ | ⟨-, rfl⟩ := returnPacket_eq_next.mp h
  · exact State.respond_answers Response.done_bare
  · exact State.respond_answers (Response.failure_bare _)

theorem execWritePacket_answers_bare {ps : PktIdx} (h : execWritePacket ps s = .next t) : t.Answers Response.Bare := by
  obtain rfl | ⟨k, -, -, ⟨-, rfl⟩ | ⟨f, hf, hsend⟩⟩ := execWritePacket_eq_next h
  · exact State.respond_answers (Response.failure_bare _)
  · exact State.respond_answers (Response.failure_bare _)
  · obtain ⟨-, rfl⟩ | ⟨-, -, c, -, rfl⟩ := (sendFrame_eq_next (serialize_ne_nil hf)).mp hsend
    · exact State.respond_answers (Response.failure_bare _)
    · exact State.respond_answers ⟨rfl, rfl⟩

theorem execReadPacket_answers_bare {pd : PktIdx} (h : execReadPacket pd s = .next t) : t.Answers Response.Bare := by
  obtain rfl | h | ⟨-, h⟩ := execReadPacket_eq_next h
  · exact State.respond_answers (Response.failure_bare _)
  · exact returnPacket_answers_bare h
  · exact returnPacket_answers_bare h

end

/-- Settles O48: the reads and PKT_SERIALIZE answer bytes, BUF_WRITE its length, BUF_USED a count, the others nothing. -/
theorem responseShape : Obligations.ResponseShape := by
  intro s t i r _ h hr
  cases i with
  | bufUsed sel =>
    obtain ⟨-, rfl⟩ | ⟨-, u, -, rfl⟩ := execBufUsed_eq_next.mp h <;> cases hr <;> rfl
  | bufWrite sel len src =>
    obtain ⟨-, rfl⟩ | ⟨-, bytes, c, -, -, -, rfl⟩ := execBufWrite_eq_next.mp h <;> cases hr
    · exact ⟨rfl, by decide⟩
    · exact ⟨rfl, Response.wrote_ok_iff len⟩
  | bufReadFull sel len dst => exact readWith_answers_counted (exec_bufReadFull.symm.trans h) r hr
  | bufReadPartial sel len dst => exact readWith_answers_counted (exec_bufReadPartial.symm.trans h) r hr
  | bufReadPeek sel len dst => exact readWith_answers_counted (exec_bufReadPeek.symm.trans h) r hr
  | pktSerialize ps => exact execPktSerialize_answers_counted h r hr
  | bufCreate sel cap =>
    obtain ⟨-, rfl⟩ | ⟨-, rfl⟩ := execBufCreate_eq_next.mp h <;> cases hr <;> exact ⟨rfl, rfl⟩
  | bufClear sel =>
    obtain ⟨-, rfl⟩ | ⟨-, c, -, rfl⟩ := execBufClear_eq_next.mp h <;> cases hr <;> exact ⟨rfl, rfl⟩
  | bufDestroy sel =>
    obtain ⟨-, rfl⟩ | ⟨-, rfl⟩ := execBufDestroy_eq_next.mp h <;> cases hr <;> exact ⟨rfl, rfl⟩
  | pktConstruct pd len type rnd data =>
    obtain rfl | ⟨k, h, -⟩ := execPktConstruct_eq_next h
    · cases hr
      exact ⟨rfl, rfl⟩
    · exact returnPacket_answers_bare h r hr
  | pktDeserialize pd len bytes =>
    obtain rfl | ⟨k, h, -⟩ := execPktDeserialize_eq_next h
    · cases hr
      exact ⟨rfl, rfl⟩
    · exact returnPacket_answers_bare h r hr
  | pktDestroy ps => obtain rfl | rfl := execPktDestroy_eq_next h <;> cases hr <;> exact ⟨rfl, rfl⟩
  | instCreate config =>
    obtain ⟨c, -, -, rfl⟩ | ⟨-, rfl⟩ := execInstCreate_eq_next.mp h <;> cases hr <;> exact ⟨rfl, rfl⟩
  | instClose => obtain ⟨-, rfl⟩ | ⟨-, rfl⟩ := execInstClose_eq_next.mp h <;> cases hr <;> exact ⟨rfl, rfl⟩
  | writePacket ps => exact execWritePacket_answers_bare h r hr
  | readPacket pd => exact execReadPacket_answers_bare h r hr

/-! ### Right after reset -/

section
variable {p : Params}

/-- After reset no unit is live (R42). -/
theorem State.resetWith_live (p : Params) (sel : Sel) : ((State.resetWith p).buf sel).live = false := by
  rw [State.resetWith_buf]
  rfl

/-- After reset every register of the block is ABSENT (R42). -/
theorem State.resetWith_pkt {x : PktIdx} (hx : x.val < p.nPkt) : (State.resetWith p).pkt x = some .absent :=
  List.getElem?_replicate_of_lt hx

theorem State.resetWith_lt {x : PktIdx} (hx : x.val < p.nPkt) : x.val < (State.resetWith p).pkts.length := by
  rw [State.resetWith, List.length_replicate]
  exact hx

/-- ABSENT written to a register after reset changes nothing. -/
theorem State.resetWith_setPkt {x : PktIdx} (hx : x.val < p.nPkt) :
    (State.resetWith p).setPkt x .absent = State.resetWith p :=
  State.setPkt_same (State.resetWith_pkt hx)

/-- A read of any mode from a unit that is not live is rejected (R114). -/
theorem readWith_of_not_live {effect : BufUnit → Nat → Except Fault BufUnit} {s : State} {sel : Sel} {len : Word}
    {dst : Bool} (hdead : (s.buf sel).live = false) : readWith effect sel len dst s = .next (s.respond (.failure .ok)) :=
  readWith_eq_next.mpr (.inl ⟨BufUnit.fetch_eq_ok.mpr (.inl ⟨hdead, rfl⟩), rfl⟩)

theorem exec_readPacket_resetWith {x : PktIdx} (hx : x.val < p.nPkt) :
    exec (.readPacket x) (State.resetWith p) = .next ((State.resetWith p).respond (.failure .ok)) := by
  rw [exec_readPacket_of_nothing (State.resetWith_lt hx) (.inl rfl), returnPacket_none, State.resetWith_setPkt hx]

theorem exec_pktSerialize_resetWith {x : PktIdx} (hx : x.val < p.nPkt) :
    exec (.pktSerialize x) (State.resetWith p) = .next ((State.resetWith p).respond (.failure .ok)) :=
  exec_pktSerialize_of_fail (State.resetWith_pkt hx) (serialize_eq_none.mpr (.inl rfl))

theorem exec_pktDestroy_resetWith {x : PktIdx} (hx : x.val < p.nPkt) :
    exec (.pktDestroy x) (State.resetWith p) = .next ((State.resetWith p).respond .done) := by
  rw [exec_pktDestroy (State.resetWith_lt hx), State.resetWith_setPkt hx]

end

/-- Settles O49: after reset no unit is live, there is no endpoint, and every register is ABSENT. -/
theorem answersAfterReset : Obligations.AnswersAfterReset := by
  rintro p s rfl
  have hdead := State.resetWith_live p
  refine ⟨fun i hi => ?_, fun ps hps => ?_, fun i hi => ?_, fun i hi => ?_⟩
  · obtain ⟨sel, rfl | rfl⟩ | ⟨sel, len, src, rfl⟩ | ⟨sel, len, dst, rfl | rfl | rfl⟩ | ⟨x, hx, rfl | rfl⟩ := hi
    · exact execBufUsed_eq_next.mpr (.inl ⟨hdead sel, rfl⟩)
    · exact execBufClear_eq_next.mpr (.inl ⟨hdead sel, rfl⟩)
    · exact execBufWrite_of_rejects (BufUnit.rejectsWrite_iff.mpr (.inl (hdead sel)))
    · exact exec_bufReadFull.trans (readWith_of_not_live (hdead sel))
    · exact exec_bufReadPartial.trans (readWith_of_not_live (hdead sel))
    · exact exec_bufReadPeek.trans (readWith_of_not_live (hdead sel))
    · exact exec_pktSerialize_resetWith hx
    · exact exec_readPacket_resetWith hx
  · exact exec_writePacket_of_absent (State.resetWith_pkt hps) (.inl rfl)
  · obtain rfl | ⟨sel, rfl⟩ | ⟨x, hx, rfl⟩ := hi
    · exact exec_instClose_of_not_live rfl
    · exact execBufDestroy_eq_next.mpr (.inr ⟨hdead sel, rfl⟩)
    · exact exec_pktDestroy_resetWith hx
  · obtain ⟨sel, cap, hcap, rfl⟩ | ⟨c, hpos, hcap, rfl⟩ | ⟨x, len, type, rnd, data, hx, hmax, hlen, rfl⟩
      | ⟨x, len, f, hx, hlen, hok, rfl⟩ := hi
    · exact ⟨_, execBufCreate_eq_next.mpr (.inr ⟨hcap, rfl⟩), rfl⟩
    · exact ⟨_, exec_instCreate_of_size ⟨hpos, hcap⟩, rfl⟩
    · exact ⟨_, (exec_pktConstruct_of_some (State.resetWith_lt hx) hmax).trans (withPayload_of_length hlen _), rfl⟩
    · obtain ⟨k, hk⟩ := Option.isSome_iff_exists.mp hok
      have hread := exec_pktDeserialize_of_length (State.resetWith_lt hx) hlen
      exact ⟨_, hread.trans (congrArg _ hk), rfl⟩

end Sys2Proof.Machine
end

section
/-! SUPPORT. Noninterference of the region bytes at and above `tail` (R39): operation by operation, then command by command,
what two states of the invariant that agree on everything else do agrees again. -/

namespace Sys2Proof.Machine

/-! ### Units that agree below `tail` -/

namespace BufUnit.SameVisible

variable {p : Params} {a b c : BufUnit}

theorem head_eq (h : a.SameVisible b) : a.head = b.head := by
  obtain ⟨-, -, hhead, -⟩ := h
  exact hhead

theorem read_eq (h : a.SameVisible b) {i : Nat} (hi : i < a.tail.toNat) : a.region.read i = b.region.read i := by
  obtain ⟨-, -, -, -, hread⟩ := h
  exact hread i hi

theorem refl (a : BufUnit) : a.SameVisible a := ⟨rfl, rfl, rfl, rfl, fun _ _ => rfl⟩

/-- Two units that agree below `tail` are one unit with two regions. -/
theorem eq_withRegion (h : a.SameVisible b) : b = { a with region := b.region } := by
  obtain ⟨hlive, hcap, hhead, htail, -⟩ := h
  rw [hlive, hcap, hhead, htail]

/-- Two empty units with no region bytes below `tail` to compare. -/
theorem of_empty {r : Memory} (hhead : c.head.toNat = 0) (hempty : c.tail = c.head) : c.SameVisible { c with region := r } :=
  ⟨rfl, rfl, rfl, rfl, fun i hi => by rw [hempty, hhead] at hi; exact absurd hi (Nat.not_lt_zero i)⟩

/-- The valid bytes of two such units are the same. -/
theorem readBytes_eq (h : a.SameVisible b) {off n : Nat} (hn : off + n ≤ a.tail.toNat) :
    a.region.readBytes off n = b.region.readBytes off n :=
  Memory.readBytes_congr fun _ _ => h.read_eq (by omega)

theorem used_eq (h : a.SameVisible b) : a.used = b.used := by
  rw [h.eq_withRegion]
  rfl

theorem rejectsWrite_eq (h : a.SameVisible b) (n : Nat) (present : Bool) :
    a.rejectsWrite n present = b.rejectsWrite n present := by
  rw [h.eq_withRegion]
  rfl

theorem peek_eq_ok (h : a.SameVisible b) {off n : Nat} {out : List Byte} (hn : off + n ≤ a.tail.toNat)
    (hp : a.peek off n = .ok out) : b.peek off n = .ok out := by
  have hbytes := h.readBytes_eq hn
  rw [BufUnit.peek_eq_ok] at hp ⊢
  obtain ⟨-, hcap, -⟩ := h
  exact ⟨hcap ▸ hp.1, hbytes.symm.trans hp.2⟩

/-- A read of any mode copies the same bytes from both (R114). -/
theorem fetch_eq_ok (h : a.SameVisible b) {q : Nat} {dst : Bool} {r : Option (List Byte)} (hr : a.fetch q dst = .ok r) :
    b.fetch q dst = .ok r := by
  have hbytes := h.readBytes_eq (off := a.head.toNat) (n := min q (a.tail.toNat - a.head.toNat))
  rw [BufUnit.fetch_eq_ok] at hr ⊢
  obtain ⟨hlive, hcap, hhead, htail, -⟩ := h
  rw [← hlive, ← hcap, ← hhead, ← htail]
  obtain hdead | ⟨hlv, hle, hrej | ⟨hused, hdst, hq, hfit, hout⟩⟩ := hr
  · exact .inl hdead
  · exact .inr ⟨hlv, hle, .inl hrej⟩
  · exact .inr ⟨hlv, hle, .inr ⟨hused, hdst, hq, hfit, hbytes (by omega) ▸ hout⟩⟩

/-- An accepted write leaves units that agree below the new `tail` (R113). -/
theorem store (h : a.SameVisible b) (ha : a.Inv p) (hb : b.Inv p) {bytes : List Byte} (hs : a.store bytes = .ok c) :
    ∃ d, b.store bytes = .ok d ∧ c.SameVisible d := by
  obtain ⟨-, ⟨hwa, -⟩, -⟩ := ha
  obtain ⟨-, ⟨hwb, -⟩, -⟩ := hb
  rw [h.eq_withRegion]
  obtain ⟨hle, ⟨hover, hcap, hn, rfl⟩ | ⟨hfits, hn, rfl⟩⟩ := BufUnit.store_eq_ok.mp hs
  · refine ⟨_, BufUnit.store_eq_ok.mpr ⟨hle, .inl ⟨hover, hcap, hn, rfl⟩⟩, rfl, rfl, rfl, rfl, fun i hi => ?_⟩
    have hi : i < bytes.length := hi.trans_le (Nat.mod_le _ _)
    simp only [Memory.read_writeBytes_zero hwa, Memory.read_writeBytes_zero hwb, if_pos hi]
  · refine ⟨_, BufUnit.store_eq_ok.mpr ⟨hle, .inr ⟨hfits, hn, rfl⟩⟩, rfl, rfl, rfl, rfl, fun i hi => ?_⟩
    have hi : i < a.tail.toNat + bytes.length := hi.trans_le (Nat.mod_le _ _)
    simp only [Memory.read_writeBytes hwa, Memory.read_writeBytes hwb]
    split
    · rfl
    · exact h.read_eq (by omega)

theorem writeAll (h : a.SameVisible b) (ha : a.Inv p) (hb : b.Inv p) {bytes : List Byte} {r : Nat × BufUnit}
    (hs : a.writeAll bytes = .ok r) : ∃ d, b.writeAll bytes = .ok (r.1, d) ∧ r.2.SameVisible d := by
  obtain ⟨hrej, rfl⟩ | ⟨hacc, c, hc, rfl⟩ := BufUnit.writeAll_eq_ok.mp hs
  · exact ⟨b, BufUnit.writeAll_eq_ok.mpr (.inl ⟨(h.rejectsWrite_eq _ _).symm.trans hrej, rfl⟩), h⟩
  · obtain ⟨d, hd, hcd⟩ := h.store ha hb hc
    exact ⟨d, BufUnit.writeAll_eq_ok.mpr (.inr ⟨(h.rejectsWrite_eq _ _).symm.trans hacc, d, hd, rfl⟩), hcd⟩

theorem afterFull (h : a.SameVisible b) (ha : a.Inv p) (hs : a.afterFull = .ok c) :
    ∃ d, b.afterFull = .ok d ∧ c.SameVisible d := by
  cases (BufUnit.afterFull_eq a).symm.trans hs
  refine ⟨_, BufUnit.afterFull_eq b, ?_⟩
  rw [h.eq_withRegion]
  exact of_empty ha.head_toNat rfl

/-- A partial read moves bytes below `tail` only (R116). -/
theorem afterPartial (h : a.SameVisible b) (ha : a.Inv p) (hb : b.Inv p) {eff : Nat} (hs : a.afterPartial eff = .ok c) :
    ∃ d, b.afterPartial eff = .ok d ∧ c.SameVisible d := by
  have hhead := ha.head_toNat
  obtain ⟨-, ⟨hwa, -⟩, -⟩ := ha
  obtain ⟨-, ⟨hwb, -⟩, -⟩ := hb
  rw [h.eq_withRegion]
  obtain ⟨hle, hcap, rfl⟩ := BufUnit.afterPartial_eq_ok.mp hs
  refine ⟨_, BufUnit.afterPartial_eq_ok.mpr ⟨hle, hcap, rfl⟩, rfl, rfl, rfl, rfl, fun i hi => ?_⟩
  have hi : i < a.tail.toNat - eff := hi.trans_le (Nat.mod_le _ _)
  simp only [Memory.read_writeBytes_readBytes hwa, Memory.read_writeBytes_readBytes hwb, hhead, Nat.sub_zero, if_pos hi]
  exact h.read_eq (by omega)

theorem cleared (h : a.SameVisible b) (ha : a.Inv p) (hs : a.cleared = .ok c) :
    ∃ d, b.cleared = .ok d ∧ c.SameVisible d := by
  have hsame := h.eq_withRegion
  obtain ⟨hlt, hcap, rfl⟩ | ⟨hle, rfl⟩ := BufUnit.cleared_eq_ok.mp hs
  · rw [hsame]
    exact ⟨_, BufUnit.cleared_eq_ok.mpr (.inl ⟨hlt, hcap, rfl⟩), of_empty ha.head_toNat rfl⟩
  · refine ⟨b, BufUnit.cleared_eq_ok.mpr (.inr ⟨?_, rfl⟩), h⟩
    rw [hsame]
    exact hle

/-- The two units that READ_PACKET leaves (R181). -/
theorem emptied (h : a.SameVisible b) (ha : a.Inv p) :
    ({ a with tail := a.head } : BufUnit).SameVisible { b with tail := b.head } := by
  rw [h.eq_withRegion]
  exact of_empty (c := { a with tail := a.head }) ha.head_toNat rfl

end BufUnit.SameVisible

/-! ### States that agree but for such bytes -/

namespace State.SameVisible

variable {s t : State}

theorem params (h : s.SameVisible t) : s.params = t.params := h.1

theorem instLive (h : s.SameVisible t) : s.instLive = t.instLive := by
  obtain ⟨-, -, hinst, -⟩ := h
  exact hinst

theorem inputs (h : s.SameVisible t) : s.inputs = t.inputs := by
  obtain ⟨-, -, -, -, -, hinputs, -⟩ := h
  exact hinputs

theorem pkt (h : s.SameVisible t) (i : PktIdx) : s.pkt i = t.pkt i := by
  obtain ⟨-, -, -, hpkts, -⟩ := h
  exact congrArg (·[i.val]?) hpkts

theorem buf (h : s.SameVisible t) (sel : Sel) : (s.buf sel).SameVisible (t.buf sel) := by
  obtain ⟨-, -, -, -, -, -, hin, hout⟩ := h
  cases sel
  · exact hin
  · exact hout

theorem live (h : s.SameVisible t) (sel : Sel) : (s.buf sel).live = (t.buf sel).live := (h.buf sel).1

theorem observed (h : s.SameVisible t) : s.observed = t.observed := by
  obtain ⟨-, -, -, hpkts, hrsp, -⟩ := h
  rw [State.observed, State.observed, hpkts, hrsp]

theorem respond (h : s.SameVisible t) (r : Response) : (s.respond r).SameVisible (t.respond r) := by
  obtain ⟨hparams, hcfg, hinst, hpkts, -, hrest⟩ := h
  exact ⟨hparams, hcfg, hinst, hpkts, rfl, hrest⟩

theorem setBuf (h : s.SameVisible t) (sel : Sel) {a b : BufUnit} (hab : a.SameVisible b) :
    (s.setBuf sel a).SameVisible (t.setBuf sel b) := by
  obtain ⟨hparams, hcfg, hinst, hpkts, hrsp, hinputs, hin, hout⟩ := h
  cases sel
  · exact ⟨hparams, hcfg, hinst, hpkts, hrsp, hinputs, hab, hout⟩
  · exact ⟨hparams, hcfg, hinst, hpkts, hrsp, hinputs, hin, hab⟩

theorem setPkt (h : s.SameVisible t) (i : PktIdx) (k : Packet) : (s.setPkt i k).SameVisible (t.setPkt i k) := by
  obtain ⟨hparams, hcfg, hinst, hpkts, hrest⟩ := h
  exact ⟨hparams, hcfg, hinst, congrArg (·.set i.val k) hpkts, hrest⟩

theorem openEndpoint (h : s.SameVisible t) (c : EndpointCfg) : (s.openEndpoint c).SameVisible (t.openEndpoint c) := by
  obtain ⟨hparams, -, -, hpkts, hrsp, hinputs, -⟩ := h
  exact ⟨hparams, rfl, rfl, hpkts, hrsp, hinputs, .refl _, .refl _⟩

theorem closeEndpoint (h : s.SameVisible t) : s.closeEndpoint.SameVisible t.closeEndpoint := by
  obtain ⟨hparams, -, -, hpkts, hrsp, hinputs, -⟩ := h
  exact ⟨hparams, rfl, rfl, hpkts, hrsp, hinputs, .refl _, .refl _⟩

theorem taken (h : s.SameVisible t) (rest : List Input) : (s.taken rest).SameVisible (t.taken rest) := by
  obtain ⟨hparams, hcfg, hinst, hpkts, -, -, hbufs⟩ := h
  exact ⟨hparams, hcfg, hinst, hpkts, rfl, rfl, hbufs⟩

/-- Reset looks at nothing but the parameters (R42). -/
theorem afterReset (h : s.SameVisible t) (rest : List Input) : (s.afterReset rest).SameVisible (t.afterReset rest) := by
  rw [State.afterReset, State.afterReset, h.params]
  exact ⟨rfl, rfl, rfl, rfl, rfl, rfl, .refl _, .refl _⟩

end State.SameVisible

/-! ### Outcomes that agree -/

/-- Where the one outcome is a next state, the other is one that agrees with it but for bytes at and above `tail`. -/
def Simulates (o₁ o₂ : Host.Outcome State Fault Refusal) : Prop :=
  ∀ t₁, o₁ = .next t₁ → ∃ t₂, o₂ = .next t₂ ∧ t₁.SameVisible t₂

namespace Simulates

variable {s t : State}

theorem next (h : s.SameVisible t) : Simulates (.next s) (.next t) := by
  rintro _ ⟨⟩
  exact ⟨t, rfl, h⟩

theorem raise (h : s.SameVisible t) (st : Status) : Simulates (s.raise st) (t.raise st) := next (h.respond _)

theorem ite {p q : Prop} [Decidable p] [Decidable q] {a b a' b' : Host.Outcome State Fault Refusal} (hpq : p ↔ q)
    (ha : Simulates a a') (hb : Simulates b b') : Simulates (if p then a else b) (if q then a' else b') := by
  by_cases hp : p
  · rw [if_pos hp, if_pos (hpq.mp hp)]
    exact ha
  · rw [if_neg hp, if_neg (mt hpq.mpr hp)]
    exact hb

theorem orFault {α : Type} {r r' : Except Fault α} {k k' : α → Host.Outcome State Fault Refusal}
    (h : ∀ a, r = .ok a → ∃ a', r' = .ok a' ∧ Simulates (k a) (k' a')) : Simulates (orFault r k) (orFault r' k') := by
  intro t₁ ht
  obtain ⟨a, ha, hk⟩ := orFault_eq_next.mp ht
  obtain ⟨a', ha', hsim⟩ := h a ha
  obtain ⟨t₂, ht₂, hsame⟩ := hsim t₁ hk
  exact ⟨t₂, orFault_eq_next.mpr ⟨a', ha', ht₂⟩, hsame⟩

/-- Going on with one result of a primitive that gives both the same. -/
theorem orFault_same {α : Type} {r r' : Except Fault α} {k k' : α → Host.Outcome State Fault Refusal} (hr : r = r')
    (h : ∀ a, r = .ok a → Simulates (k a) (k' a)) : Simulates (Machine.orFault r k) (Machine.orFault r' k') :=
  orFault fun a ha => ⟨a, hr ▸ ha, h a ha⟩

theorem withPkt (h : s.SameVisible t) (i : PktIdx) {k k' : Packet → Host.Outcome State Fault Refusal}
    (hk : ∀ p, Simulates (k p) (k' p)) : Simulates (withPkt s i k) (withPkt t i k') := by
  unfold Machine.withPkt
  rw [← h.pkt i]
  cases s.pkt i with
  | none => exact raise h .undefined
  | some p => exact hk p

theorem withPayload {n : Nat} {bytes : List Byte} {k k' : List Byte → Host.Outcome State Fault Refusal}
    (h : Simulates (k bytes) (k' bytes)) : Simulates (withPayload n bytes k) (withPayload n bytes k') :=
  ite Iff.rfl h fun _ ht => nomatch ht

theorem returnPacket (h : s.SameVisible t) (pd : PktIdx) (r : Option Packet) :
    Simulates (returnPacket s pd r) (returnPacket t pd r) := by
  rw [returnPacket_eq, returnPacket_eq]
  exact next ((h.setPkt pd _).respond _)

end Simulates

/-! ### The commands -/

section
variable {s t : State} (h : s.SameVisible t)
include h

theorem readWith_simulates {effect : BufUnit → Nat → Except Fault BufUnit} {sel : Sel} (len : Word) (dst : Bool)
    (heffect : ∀ n c, effect (s.buf sel) n = .ok c → ∃ d, effect (t.buf sel) n = .ok d ∧ c.SameVisible d) :
    Simulates (readWith effect sel len dst s) (readWith effect sel len dst t) := by
  refine .orFault fun r hr => ⟨r, (h.buf sel).fetch_eq_ok hr, ?_⟩
  cases r with
  | none => exact .raise h .ok
  | some out =>
    refine .orFault fun c hc => ?_
    obtain ⟨d, hd, hcd⟩ := heffect _ c hc
    exact ⟨d, hd, .next ((h.setBuf sel hcd).respond _)⟩

theorem execPktConstruct_simulates (pd : PktIdx) (len type rnd : Word) (data : Option (List Byte)) :
    Simulates (execPktConstruct pd len type rnd data s) (execPktConstruct pd len type rnd data t) := by
  refine .withPkt h pd fun _ => .ite Iff.rfl (.returnPacket h pd none) (.ite (by rw [h.params]) (.returnPacket h pd none) ?_)
  cases data with
  | none => exact .returnPacket h pd _
  | some bytes => exact .withPayload (.returnPacket h pd _)

theorem execPktSerialize_simulates (ps : PktIdx) : Simulates (execPktSerialize ps s) (execPktSerialize ps t) := by
  refine .withPkt h ps fun k => .orFault_same (by rw [h.params]) fun r _ => ?_
  cases r with
  | none => exact .raise h .ok
  | some f => exact .next (h.respond _)

theorem execPktDeserialize_simulates (pd : PktIdx) (len : Word) (bytes : Option (List Byte)) :
    Simulates (execPktDeserialize pd len bytes s) (execPktDeserialize pd len bytes t) := by
  refine .withPkt h pd fun _ => ?_
  cases bytes with
  | none => exact .returnPacket h pd none
  | some b =>
    refine .ite Iff.rfl (.returnPacket h pd none) (.withPayload ?_)
    rw [h.params]
    exact .returnPacket h pd _

theorem execInstCreate_simulates (config : Option EndpointCfg) :
    Simulates (execInstCreate config s) (execInstCreate config t) := by
  cases config with
  | none => exact .raise h .ok
  | some c =>
    exact .ite Iff.rfl (.raise h .ok) (.ite (by rw [h.params]) (.raise h .ok) (.next ((h.openEndpoint c).respond _)))

variable (hs : s.Inv)
include hs

theorem execBufClear_simulates (sel : Sel) : Simulates (execBufClear sel s) (execBufClear sel t) := by
  refine .ite (by rw [h.live sel]) (.raise h .ok) (.orFault fun c hc => ?_)
  obtain ⟨d, hd, hcd⟩ := (h.buf sel).cleared (hs.buf sel) hc
  exact ⟨d, hd, .next ((h.setBuf sel hcd).respond _)⟩

/-- READ_PACKET parses the bytes below `tail` (R181). -/
theorem execReadPacket_simulates (pd : PktIdx) : Simulates (execReadPacket pd s) (execReadPacket pd t) := by
  have hin : s.bufIn.SameVisible t.bufIn := h.buf .input
  have hlive : s.bufIn.live = t.bufIn.live := h.live .input
  refine .withPkt h pd fun _ => .ite (by rw [h.instLive, hlive]) (.returnPacket h pd none)
    (.orFault_same hin.used_eq fun u hu => .ite Iff.rfl (.returnPacket h pd none) (.orFault fun f hf => ?_))
  obtain ⟨hle, rfl⟩ := BufUnit.used_eq_ok.mp hu
  have hset := h.setBuf .input (hin.emptied (hs.buf .input))
  refine ⟨f, hin.head_eq ▸ hin.peek_eq_ok (by omega) hf, ?_⟩
  rw [← h.params]
  exact .returnPacket hset pd _

variable (ht : t.Inv)
include ht

theorem execBufWrite_simulates (sel : Sel) (len : Word) (src : Option (List Byte)) :
    Simulates (execBufWrite sel len src s) (execBufWrite sel len src t) := by
  refine .ite (by rw [(h.buf sel).rejectsWrite_eq]) (.raise h .ok) (.withPayload (.orFault fun c hc => ?_))
  obtain ⟨d, hd, hcd⟩ := (h.buf sel).store (hs.buf sel) (h.params ▸ ht.buf sel) hc
  exact ⟨d, hd, .next ((h.setBuf sel hcd).respond _)⟩

/-- The Byte Buffer write of a frame to `OUT` sees nothing at or above `tail` (R180). -/
theorem sendFrame_simulates (f : List Byte) : Simulates (sendFrame s f) (sendFrame t f) := by
  obtain ⟨-, hcap, -⟩ := h.buf .output
  refine .ite (iff_of_eq (congrArg (BitVec.toNat · < f.length) hcap)) (.raise h .bufferFailure) (.orFault fun r hr => ?_)
  obtain ⟨d, hd, hrd⟩ := (h.buf .output).writeAll (hs.buf .output) (h.params ▸ ht.buf .output) hr
  have hset := h.setBuf .output hrd
  exact ⟨_, hd, .ite Iff.rfl (.raise hset .bufferFailure) (.next (hset.respond _))⟩

theorem execWritePacket_simulates (ps : PktIdx) : Simulates (execWritePacket ps s) (execWritePacket ps t) := by
  have hlive : s.bufOut.live = t.bufOut.live := h.live .output
  refine .withPkt h ps fun k => .ite (by rw [h.instLive, hlive]) (.raise h .undefined)
    (.orFault_same (by rw [h.params]) fun r _ => ?_)
  cases r with
  | none => exact .raise h .invalidPacket
  | some f => exact sendFrame_simulates h hs ht f

/-- Every command that completes does the same on both states, but for bytes at and above `tail`. -/
theorem exec_simulates (i : Instr) : Simulates (exec i s) (exec i t) := by
  cases i with
  | bufCreate sel cap =>
    exact .ite (by rw [h.params]) (.raise h .ok) (.next ((h.setBuf sel (.refl _)).respond _))
  | bufUsed sel =>
    exact .ite (by rw [h.live sel]) (.raise h .ok) (.orFault_same (h.buf sel).used_eq fun _ _ => .next (h.respond _))
  | bufWrite sel len src => exact execBufWrite_simulates h hs ht sel len src
  | bufReadFull sel len dst =>
    rw [exec_bufReadFull, exec_bufReadFull]
    exact readWith_simulates h len dst fun _ _ => (h.buf sel).afterFull (hs.buf sel)
  | bufReadPartial sel len dst =>
    rw [exec_bufReadPartial, exec_bufReadPartial]
    exact readWith_simulates h len dst fun _ _ => (h.buf sel).afterPartial (hs.buf sel) (h.params ▸ ht.buf sel)
  | bufReadPeek sel len dst =>
    rw [exec_bufReadPeek, exec_bufReadPeek]
    exact readWith_simulates h len dst fun _ _ hc => ⟨_, rfl, Except.ok.inj hc ▸ h.buf sel⟩
  | bufClear sel => exact execBufClear_simulates h hs sel
  | bufDestroy sel =>
    exact .ite (by rw [h.live sel]) (.next ((h.setBuf sel (.refl _)).respond _)) (.next (h.respond _))
  | pktConstruct pd len type rnd data => exact execPktConstruct_simulates h pd len type rnd data
  | pktSerialize ps => exact execPktSerialize_simulates h ps
  | pktDeserialize pd len bytes => exact execPktDeserialize_simulates h pd len bytes
  | pktDestroy ps => exact .withPkt h ps fun _ => .next ((h.setPkt ps _).respond _)
  | instCreate config => exact execInstCreate_simulates h config
  | instClose => exact .ite (by rw [h.instLive]) (.next (h.closeEndpoint.respond _)) (.next (h.respond _))
  | writePacket ps => exact execWritePacket_simulates h hs ht ps
  | readPacket pd => exact execReadPacket_simulates h hs pd

end

/-- A step of two such states takes the same input. -/
theorem step_simulates {s t : State} (h : s.SameVisible t) (hs : s.Inv) (ht : t.Inv) : Simulates (step s) (step t) := by
  obtain ⟨hin, hstep⟩ | ⟨rest, hin, hstep⟩ | ⟨c, rest, hin, ⟨i, hdec, hstep⟩ | ⟨e, hdec, hstep⟩⟩ := step_cases s
  · rw [hstep, step_of_nothing (h.inputs ▸ hin)]
    exact .next (h.taken [])
  · rw [hstep, step_of_reset (h.inputs ▸ hin)]
    exact .next (h.afterReset rest)
  · rw [hstep, step_of_decode (h.inputs ▸ hin) (h.params ▸ hdec)]
    exact exec_simulates (h.taken rest) (hs.taken rest) (ht.taken rest) i
  · rw [hstep, step_of_decode_error (h.inputs ▸ hin) (h.params ▸ hdec)]
    exact .raise (h.taken rest) .undefined

/-- Settles O59: the step takes the same input in both states, and what it then does agrees operation by operation. -/
theorem bytesAboveTailAreUnobservable : Obligations.BytesAboveTailAreUnobservable := by
  intro s₁ s₂ t₁ hs ht h hstep
  obtain ⟨t₂, ht₂, hsame⟩ := step_simulates h hs ht t₁ hstep
  exact ⟨t₂, ht₂, hsame, hsame.observed⟩

end Sys2Proof.Machine
end
